-- ==== Sys2Proof/Word.lean ====
section
/-!
DEFINITION. The word types of the JPEGCV CORE (00_scope.md R6, R7).
A signed cell is a bit vector read with `BitVec.toInt` (two's complement), an unsigned one a bit vector read with
`BitVec.toNat`.
-/

namespace Sys2Proof

/-- A command word or a control and status register (30_encoding.md R50, 10_state.md R23 to R26). -/
abbrev Word := BitVec 32

/-- A plane sample, a stream byte, or a cell of an 8-bit buffer (00_scope.md R6). -/
abbrev Byte := BitVec 8

/-- The 64 cells of a block buffer, in linear order `8*r + c` for the two-dimensional ones (00_scope.md R7,
10_state.md R11 to R16). -/
abbrev Block (w : Nat) := Vector (BitVec w) 64

end Sys2Proof
end

