-- ==== Sys2Proof/Syntax.lean ====
section
/-!
DEFINITION. The fourteen commands (30_encoding.md R55), one constructor per row of spec/opcode_table.json, and the
assembler text of R61.
-/

namespace Sys2Proof

/-- A command of the CORE. Operand names are the spec's; `bY` is the spec's `by` (block-row), which is a word of Lean. -/
inductive Instr
  /-- NOP (40_config_partitioner.md R70). -/
  | nop
  /-- CFGW imm16: set the plane width (R71). -/
  | cfgw (imm16 : BitVec 16)
  /-- CFGH imm16: set the plane height (R72). -/
  | cfgh (imm16 : BitVec 16)
  /-- BPX p, bx, by: cut a block out of a plane (R73). -/
  | bpx (p : BitVec 2) (bx bY : BitVec 13)
  /-- LSH: level shift (41_transform.md R84). -/
  | lsh
  /-- FDCT: forward transform (R85). -/
  | fdct
  /-- QNT: quantizer (R86). -/
  | qnt
  /-- ZZS: zigzag scan (42_zigzag.md R103). -/
  | zzs
  /-- RLE: run-length encoder (43_rle.md R114). -/
  | rle
  /-- RLD: run-length decoder (R115). -/
  | rld
  /-- ZZU: zigzag unscan (42_zigzag.md R104). -/
  | zzu
  /-- DQT: dequantizer (41_transform.md R87). -/
  | dqt
  /-- IDCT: inverse transform (R88). -/
  | idct
  /-- ULS: un-level shift (R89). -/
  | uls
  deriving DecidableEq, Repr

/-- The mnemonic of a command (30_encoding.md R55, R61). -/
def Instr.mnemonic : Instr → String
  | .nop => "NOP"
  | .cfgw _ => "CFGW"
  | .cfgh _ => "CFGH"
  | .bpx _ _ _ => "BPX"
  | .lsh => "LSH"
  | .fdct => "FDCT"
  | .qnt => "QNT"
  | .zzs => "ZZS"
  | .rle => "RLE"
  | .rld => "RLD"
  | .zzu => "ZZU"
  | .dqt => "DQT"
  | .idct => "IDCT"
  | .uls => "ULS"

/-- A command as a line of the assembler syntax of 30_encoding.md R61, numbers in decimal, block-column before block-row. -/
def Instr.asm : Instr → String
  | .cfgw imm => "CFGW " ++ toString imm.toNat
  | .cfgh imm => "CFGH " ++ toString imm.toNat
  | .bpx p bx bY => "BPX " ++ toString p.toNat ++ ", " ++ toString bx.toNat ++ ", " ++ toString bY.toNat
  | .nop => "NOP"
  | .lsh => "LSH"
  | .fdct => "FDCT"
  | .qnt => "QNT"
  | .zzs => "ZZS"
  | .rle => "RLE"
  | .rld => "RLD"
  | .zzu => "ZZU"
  | .dqt => "DQT"
  | .idct => "IDCT"
  | .uls => "ULS"

end Sys2Proof
end

