-- ==== Sys2Proof/WellFormed.lean ====
section
/-!
DEFINITION. The check an instruction must pass to be a command of the CORE: the one operand value that is not legal is the
plane number 3 (30_encoding.md R54, R58). Every other operand is legal at every value of its width.
-/

namespace Sys2Proof

/-- An instruction that is one of the commands of 30_encoding.md R55. -/
def Instr.wf : Instr → Bool
  | .bpx p _ _ => p != 3#2
  | .nop => true
  | .cfgw _ => true
  | .cfgh _ => true
  | .lsh => true
  | .fdct => true
  | .qnt => true
  | .zzs => true
  | .rle => true
  | .rld => true
  | .zzu => true
  | .dqt => true
  | .idct => true
  | .uls => true

end Sys2Proof
end

