-- ==== Sys2Proof/Decode.lean ====
section
/-!
DEFINITION. The decoder, total on every 32-bit word and refusing by name (30_encoding.md R50 to R59), the opcode map of
R55 as a table of masks and matches, and the encoder.
-/

namespace Sys2Proof

/-- Why a word is no command. -/
inductive DecodeError
  /-- `op` is 0xE or 0xF (30_encoding.md R56). -/
  | reservedOpcode
  /-- A format N word with one of bits 27:0 set, or a format I word with one of bits 27:16 set (R57). -/
  | reservedBits
  /-- A BPX word with `p = 3` (R58). -/
  | reservedPlane
  deriving DecidableEq, Repr

/-- What the decoder says of a word. -/
inductive Decoded
  /-- The word is this command. -/
  | instr (i : Instr)
  /-- The word is illegal, for this reason. -/
  | illegal (why : DecodeError)
  deriving DecidableEq, Repr

/-- The field `bits[hi:lo]` of a word, `hi = lo + len - 1` (00_scope.md R6). -/
def bitField (w : Word) (lo len : Nat) : BitVec len := w.extractLsb' lo len

/-- Format N: no operand, bits 27:0 must be 0 (30_encoding.md R51, R57). -/
def decodeN (w : Word) (i : Instr) : Decoded :=
  if bitField w 0 28 = 0#28 then .instr i else .illegal .reservedBits

/-- Format I: imm16 in bits 15:0, bits 27:16 must be 0 (30_encoding.md R52, R57). -/
def decodeI (w : Word) (f : BitVec 16 → Instr) : Decoded :=
  if bitField w 16 12 = 0#12 then .instr (f (bitField w 0 16)) else .illegal .reservedBits

/-- Format B: p in bits 27:26, by in bits 25:13, bx in bits 12:0; `p = 3` is reserved (30_encoding.md R53, R58). -/
def decodeB (w : Word) : Decoded :=
  if bitField w 26 2 = 3#2 then .illegal .reservedPlane
  else .instr (.bpx (bitField w 26 2) (bitField w 0 13) (bitField w 13 13))

/-- The decoder: `op = bits[31:28]` selects the command and its format (30_encoding.md R50, R55, R56). -/
def decode (w : Word) : Decoded :=
  match (bitField w 28 4).toNat with
  | 0 => decodeN w .nop
  | 1 => decodeI w .cfgw
  | 2 => decodeI w .cfgh
  | 3 => decodeB w
  | 4 => decodeN w .lsh
  | 5 => decodeN w .fdct
  | 6 => decodeN w .qnt
  | 7 => decodeN w .zzs
  | 8 => decodeN w .rle
  | 9 => decodeN w .rld
  | 10 => decodeN w .zzu
  | 11 => decodeN w .dqt
  | 12 => decodeN w .idct
  | 13 => decodeN w .uls
  | _ => .illegal .reservedOpcode

/-- The command of a word, if it is one. -/
def Decoded.instr? : Decoded → Option Instr
  | .instr i => some i
  | .illegal _ => none

/-- A word of format N (30_encoding.md R51). -/
def wordN (op : BitVec 4) : Word := op ++ 0#28

/-- A word of format I (30_encoding.md R52). -/
def wordI (op : BitVec 4) (imm16 : BitVec 16) : Word := op ++ 0#12 ++ imm16

/-- A word of format B (30_encoding.md R53). -/
def wordB (op : BitVec 4) (p : BitVec 2) (bx bY : BitVec 13) : Word := op ++ p ++ bY ++ bx

/-- The encoder: the word of a command (30_encoding.md R51 to R55). -/
def encode : Instr → Word
  | .nop => wordN 0x0#4
  | .cfgw imm16 => wordI 0x1#4 imm16
  | .cfgh imm16 => wordI 0x2#4 imm16
  | .bpx p bx bY => wordB 0x3#4 p bx bY
  | .lsh => wordN 0x4#4
  | .fdct => wordN 0x5#4
  | .qnt => wordN 0x6#4
  | .zzs => wordN 0x7#4
  | .rle => wordN 0x8#4
  | .rld => wordN 0x9#4
  | .zzu => wordN 0xA#4
  | .dqt => wordN 0xB#4
  | .idct => wordN 0xC#4
  | .uls => wordN 0xD#4

/-- The instruction the decoder reads from a word of `nbits` bits; a command is one 32-bit word, so bit n of `w` is bit n of
the command word and there is no byte order to lay out (20_memory.md R40). -/
def decodeTableWord (nbits w : Nat) : Option Instr :=
  (decode (BitVec.ofNat 32 (w % 2 ^ nbits))).instr?

/-- A row of the opcode map of 30_encoding.md R55. -/
structure OpcodeRow where
  /-- The mnemonic. -/
  mnemonic : String
  /-- The value the masked word must have (the spec's `match`). -/
  pattern : Word
  /-- The bits that are compared. -/
  mask : Word
  deriving DecidableEq, Repr

/-- The opcode map of 30_encoding.md R55: a word `w` is the command if and only if `w &&& mask = pattern`, with the further
condition `p != 3` for BPX. -/
def opcodeMap : List OpcodeRow := [
  ⟨"NOP", 0x00000000#32, 0xFFFFFFFF#32⟩,
  ⟨"CFGW", 0x10000000#32, 0xFFFF0000#32⟩,
  ⟨"CFGH", 0x20000000#32, 0xFFFF0000#32⟩,
  ⟨"BPX", 0x30000000#32, 0xF0000000#32⟩,
  ⟨"LSH", 0x40000000#32, 0xFFFFFFFF#32⟩,
  ⟨"FDCT", 0x50000000#32, 0xFFFFFFFF#32⟩,
  ⟨"QNT", 0x60000000#32, 0xFFFFFFFF#32⟩,
  ⟨"ZZS", 0x70000000#32, 0xFFFFFFFF#32⟩,
  ⟨"RLE", 0x80000000#32, 0xFFFFFFFF#32⟩,
  ⟨"RLD", 0x90000000#32, 0xFFFFFFFF#32⟩,
  ⟨"ZZU", 0xA0000000#32, 0xFFFFFFFF#32⟩,
  ⟨"DQT", 0xB0000000#32, 0xFFFFFFFF#32⟩,
  ⟨"IDCT", 0xC0000000#32, 0xFFFFFFFF#32⟩,
  ⟨"ULS", 0xD0000000#32, 0xFFFFFFFF#32⟩]

/-- The word fits the row (30_encoding.md R55), BPX's further condition included. -/
def OpcodeRow.fits (row : OpcodeRow) (w : Word) : Bool :=
  w &&& row.mask == row.pattern && (row.mnemonic != "BPX" || bitField w 26 2 != 3#2)

end Sys2Proof
end

