-- ==== Sys2Proof/Config.lean ====
section
/-!
DEFINITION. The constants of the implementation and the free values: what the spec leaves open. A free value has no body,
so nothing can be proved about which value it is.
The parameters of 00_scope.md section 4 are taken at their defaults (assumption log 9); the tables QTABLE and ZZ stand in
Machine/Tables.lean.
-/

namespace Sys2Proof.Config

/-- The byte a plane read returns at an address the host never wrote: FREE VALUE, fixed per plane and address because reads
are idempotent (20_memory.md R32; 70_reset_and_hazards.md R173 makes filling the plane the host's duty). Arguments: the
plane's number, the address. Assumption log 3. -/
opaque unsuppliedPlaneByte : Nat → Nat → BitVec 8

/-- The word `BUFRD` returns for a buffer whose valid bit is 0: FREE VALUE, a fresh one at every read ("two such reads may
differ", 20_memory.md R48). Argument: the free counter of State. Assumption log 4. -/
opaque freeWord : Nat → BitVec 32

/-- A cell of Z after an RLD that faulted: FREE VALUE ("the cells of Z are unspecified", 60_exceptions.md R163).
Arguments: the free counter of State, the cell. Assumption log 4. -/
opaque freeCell : Nat → Nat → BitVec 8

/-- Does the byte of a `StrGet` that was answered with an error stay in ISTR? FREE VALUE: 20_memory.md R36 and R47 can be
read either way. Argument: the free counter of State. Assumption log 5. -/
opaque failedGetKeepsByte : Nat → Bool

/-- Does a `MemRead` that races a host write to the same address see the new byte? FREE VALUE: "each cell of S holds either
the old or the new byte of its address" (70_reset_and_hazards.md R175). Arguments: the free counter of State, the address,
the position of the write among the racing writes. Assumption log 8. -/
opaque raceSeesNew : Nat → Nat → Nat → Bool

end Sys2Proof.Config
end

