-- ==== Sys2Proof/Machine/State.lean ====
section
/-!
DEFINITION. The state of the CORE (10_state.md), of the streams and planes it reaches (20_memory.md), and of the host's
side that drives it (44_pipeline_host.md R139); the fault and refusal reasons; the state after reset.
-/

namespace Sys2Proof.Machine

/-- Why the model stops. Every fault of the CORE itself (60_exceptions.md R150) is a NEXT state with FC, FCMD and HALT
written, not one of these. -/
inductive Fault
  /-- The host supplies a byte to ISTR, or raises `eos` again, after it has raised `eos`: 20_memory.md R34 says it supplies
  no more and gives no effect. Raised by the host interactions `feed` and `raiseEos`, never by a command. SAFE: the model
  stops where the spec says nothing. -/
  | istrClosed
  deriving DecidableEq, Repr

/-- Why an instruction has no meaning. -/
inductive Refusal
  /-- The instruction has no meaning in the model yet. Raised by no arm of exec. SAFE. -/
  | notModelled (mnemonic : String)
  deriving DecidableEq, Repr

/-- The planes, in the source's order (20_memory.md R30). -/
inductive PlaneId
  /-- PLANE[0]. -/
  | luma
  /-- PLANE[1]. -/
  | chromaRed
  /-- PLANE[2]. -/
  | chromaBlue
  deriving DecidableEq, Repr

/-- The block buffers by their ids 0 to 5 (20_memory.md R48). -/
inductive BufId
  /-- Sample block, id 0. -/
  | s
  /-- Level-shifted block, id 1. -/
  | l
  /-- Coefficient block, id 2. -/
  | c
  /-- Quantized block, id 3. -/
  | q
  /-- Zigzag sequence, id 4. -/
  | z
  /-- Reconstruction block, id 5. -/
  | r
  deriving DecidableEq, Repr

/-- The six faults of the CORE (60_exceptions.md R150). -/
inductive FaultCode
  /-- F_ILLEGAL, code 1. -/
  | illegal
  /-- F_NOSRC, code 2. -/
  | noSrc
  /-- F_TRUNC, code 3. -/
  | trunc
  /-- F_OVERRUN, code 4. -/
  | overrun
  /-- F_BADSYM, code 5. -/
  | badSym
  /-- F_IO, code 6. -/
  | io
  deriving DecidableEq, Repr

/-- An RLD that waits for a byte (20_memory.md R35): what its pseudocode (43_rle.md R115) holds at that point. -/
structure RldHold where
  /-- The cells of Z filled so far; their number is the pseudocode's `n`. -/
  filled : List Byte
  /-- The value byte `b0` already taken, when the count byte is the one awaited. -/
  value : Option Byte
  deriving DecidableEq, Repr

/-- A plane space: the bytes the host has supplied, by address, strictly rising (20_memory.md R31). An address that is not
listed holds no value of the host's. -/
abbrev Memory := List Host.Cell

/-- One interaction of the host with the CORE (44_pipeline_host.md R139, 70_reset_and_hazards.md R171 and R175). -/
inductive HostAct
  /-- Write a word to the command port `CMD` (30_encoding.md R50). -/
  | cmd (w : Word)
  /-- `CSRRD(n)` (20_memory.md R49). -/
  | csrrd (n : Nat)
  /-- `BUFRD(b, k)` (20_memory.md R48). -/
  | bufrd (b : BufId) (k : Fin 64)
  /-- `BUFWR(b, v[0..63])` (20_memory.md R48). -/
  | bufwr (b : BufId) (v : Vector Word 64)
  /-- Append bytes to ISTR (20_memory.md R34). -/
  | feed (bytes : List Byte)
  /-- Raise `eos` (20_memory.md R34). -/
  | raiseEos
  /-- Take `n` bytes from the front of OSTR (20_memory.md R38). -/
  | drain (n : Nat)
  /-- Write one byte of a plane (44_pipeline_host.md R139, 70_reset_and_hazards.md R175). -/
  | planeWrite (p : PlaneId) (addr : Word) (b : Byte)
  /-- Assert `rst` (70_reset_and_hazards.md R170). -/
  | rst
  /-- Assert `rst`, then reposition or refill the input, which 70_reset_and_hazards.md R171 leaves to a host that resets: new
  contents of ISTR, `eos` low (assumption log 16). -/
  | rstRefill (bytes : List Byte)
  /-- Write a word to `CMD` and assert `rst` while the command runs, after it has made `k` one-byte accesses
  (70_reset_and_hazards.md R171, R172). -/
  | cmdCut (w : Word) (k : Nat)
  /-- Write a word to `CMD` and, while the command runs, write plane bytes (70_reset_and_hazards.md R175). -/
  | cmdRacing (w : Word) (writes : List (PlaneId × Word × Byte))
  deriving DecidableEq, Repr

/-- The machine. The spec's own state first, then the streams and planes, then the model's own fields. -/
structure State where
  /-- Buffer S, u8 (10_state.md R11). -/
  bufS : Block 8
  /-- Buffer L, s8 (10_state.md R12). -/
  bufL : Block 8
  /-- Buffer C, s16 (10_state.md R13). -/
  bufC : Block 16
  /-- Buffer Q, s8 (10_state.md R14). -/
  bufQ : Block 8
  /-- Buffer Z, s8 (10_state.md R15). -/
  bufZ : Block 8
  /-- Buffer R, s32 (10_state.md R16). -/
  bufR : Block 32
  /-- Valid bit of S (10_state.md R17). -/
  vS : Bool
  /-- Valid bit of L. -/
  vL : Bool
  /-- Valid bit of C. -/
  vC : Bool
  /-- Valid bit of Q. -/
  vQ : Bool
  /-- Valid bit of Z. -/
  vZ : Bool
  /-- Valid bit of R. -/
  vR : Bool
  /-- STATUS.FC (10_state.md R23): `none` is code 0. STATUS.HALT is computed from it. -/
  fc : Option FaultCode
  /-- FCMD (10_state.md R24). -/
  fcmd : Word
  /-- PW, bits 15:0 (10_state.md R25). -/
  pw : BitVec 16
  /-- PH, bits 15:0 (10_state.md R26). -/
  ph : BitVec 16
  /-- The RLD that waits for a byte, if one does (20_memory.md R35). STATUS.BUSY is computed from it. -/
  hold : Option RldHold
  /-- ISTR: the bytes not yet consumed (20_memory.md R34). -/
  istr : List Byte
  /-- The end-of-stream flag of ISTR (20_memory.md R34). -/
  eos : Bool
  /-- OSTR: the bytes appended and not yet drained (20_memory.md R38). -/
  ostr : List Byte
  /-- PLANE[0], luma (20_memory.md R30). -/
  planeY : Memory
  /-- PLANE[1], chroma-red. -/
  planeCr : Memory
  /-- PLANE[2], chroma-blue. -/
  planeCb : Memory
  /-- The model's own: the coming answers of the IO_ERROR oracle, false past the end (20_memory.md R47). -/
  ioAnswers : List Bool
  /-- The model's own: the host interactions still to come, in the order they take effect (44_pipeline_host.md R139). -/
  host : List HostAct
  /-- The model's own: the words `CSRRD` and `BUFRD` have returned, oldest first. -/
  rsp : List Word
  /-- The model's own: the counter that free values are applied to. -/
  free : Nat
  deriving DecidableEq, Repr

/-- The machine right after reset (10_state.md R28, 70_reset_and_hazards.md R170): no fault, nothing valid, FCMD, PW and PH
0, idle. DESIGN CHOICE, unsafe: the unspecified cells are 0 (assumption log 1); the streams, planes and host side, which
reset does not touch, are empty (assumption log 2). -/
def State.reset : State where
  bufS := Vector.replicate 64 0#8
  bufL := Vector.replicate 64 0#8
  bufC := Vector.replicate 64 0#16
  bufQ := Vector.replicate 64 0#8
  bufZ := Vector.replicate 64 0#8
  bufR := Vector.replicate 64 0#32
  vS := false
  vL := false
  vC := false
  vQ := false
  vZ := false
  vR := false
  fc := none
  fcmd := 0#32
  pw := 0#16
  ph := 0#16
  hold := none
  istr := []
  eos := false
  ostr := []
  planeY := []
  planeCr := []
  planeCb := []
  ioAnswers := []
  host := []
  rsp := []
  free := 0

end Sys2Proof.Machine
end

