-- ==== Sys2Proof/Machine/Cells.lean ====
section
/-!
DEFINITION. Reading and building block buffers, cell by cell (00_scope.md R7, 10_state.md R11 to R16), and the narrowings of
R8 that write them.
-/

namespace Sys2Proof.Machine

/-- The block whose cell of linear index `k` is `f k` (00_scope.md R7: `k = 8*r + c`). -/
def tabulate {w : Nat} (f : Nat → BitVec w) : Block w := ⟨((List.range 64).map f).toArray, by simp⟩

/-- The cells of a block in linear order. -/
def cells {w : Nat} (b : Block w) : List (BitVec w) := b.toArray.toList

/-- The cell of linear index `k`, 0 to 63. -/
def cell {w : Nat} (b : Block w) (k : Nat) : BitVec w := (cells b).getD k 0#w

/-- The row of the cell of linear index `k` (00_scope.md R7). -/
def rowOf (k : Nat) : Nat := k / 8

/-- The column of the cell of linear index `k` (00_scope.md R7). -/
def colOf (k : Nat) : Nat := k % 8

/-- `RHA(a / t)` for a positive integer `t`: the exact rational rounded to the nearest integer, ties away from zero, by the
integer formula of 41_transform.md R86 (`sign(a) * ((2*|a| + t) div (2*t))`). -/
def rhaDiv (a : Int) (t : Nat) : Int := a.sign * (((2 * a.natAbs + t) / (2 * t) : Nat) : Int)

end Sys2Proof.Machine
end

