-- ==== Sys2Proof/Machine/Ops.lean ====
section
/-!
DEFINITION. The named operations over the planes, the streams and the fault record: reading and writing a plane byte, asking
the IO_ERROR oracle, appending to OSTR, taking a fault (60_exceptions.md R153) and the only way back from one, reset
(70_reset_and_hazards.md R170).
-/

namespace Sys2Proof.Machine

/-! ### Plane spaces (20_memory.md R31, R32) -/

/-- The byte the host supplied at an address, if it supplied one. -/
def readByte : Memory → Nat → Option Byte
  | [], _ => none
  | (a, b) :: m, addr => if a = addr then some b else readByte m addr

/-- The memory with the byte at an address written, addresses kept strictly rising. -/
def writeByte : Memory → Nat → Byte → Memory
  | [], addr, v => [(addr, v)]
  | (a, b) :: m, addr, v =>
    if addr < a then (addr, v) :: (a, b) :: m
    else if a = addr then (addr, v) :: m
    else (a, b) :: writeByte m addr v

/-- The canonical form: addresses strictly rising, each one a 32-bit address (20_memory.md R31). An unlisted address holds
no value, so no entry can equal what an unlisted address reads as. -/
abbrev MemoryWf (m : Memory) : Prop := m.Pairwise (fun x y => x.1 < y.1) ∧ ∀ x ∈ m, x.1 < 2 ^ 32

/-- PLANE[p] of the state (20_memory.md R30). -/
def planeOf (s : State) : PlaneId → Memory
  | .luma => s.planeY
  | .chromaRed => s.planeCr
  | .chromaBlue => s.planeCb

/-- The state with PLANE[p] replaced. -/
def setPlane (s : State) (p : PlaneId) (m : Memory) : State :=
  match p with
  | .luma => { s with planeY := m }
  | .chromaRed => { s with planeCr := m }
  | .chromaBlue => { s with planeCb := m }

/-- The number of a plane (30_encoding.md R54). -/
def planeNumber : PlaneId → Nat
  | .luma => 0
  | .chromaRed => 1
  | .chromaBlue => 2

/-- `MemRead(PLANE[p], addr, 1)` (20_memory.md R32). An address the host never supplied reads as a free value
(assumption log 3). -/
def memRead (s : State) (p : PlaneId) (addr : Nat) : Byte :=
  (readByte (planeOf s p) addr).getD (Config.unsuppliedPlaneByte (planeNumber p) addr)

/-- The host writes one byte of a plane (44_pipeline_host.md R139). -/
def writePlane (s : State) (p : PlaneId) (addr : Word) (b : Byte) : State :=
  setPlane s p (writeByte (planeOf s p) addr.toNat b)

/-! ### The IO_ERROR oracle (20_memory.md R47) -/

/-- Ask the oracle about up to `n` accesses, one after the other, stopping at the first error: did one fail, and the
answers left. Past the end of the list every answer is false, the default oracle. -/
def askOracle : Nat → List Bool → Bool × List Bool
  | 0, io => (false, io)
  | _ + 1, [] => (false, [])
  | n + 1, e :: io => if e then (true, io) else askOracle n io

/-! ### OSTR (20_memory.md R38, R39) -/

/-- What a sequence of `StrPut` calls did. -/
structure PutResult where
  /-- The bytes appended. -/
  appended : List Byte
  /-- Was a `StrPut` answered with an error? Its byte is not appended (60_exceptions.md R157). -/
  failed : Bool
  /-- The oracle's answers left. -/
  io : List Bool
  deriving DecidableEq, Repr

/-- `StrPut` of each byte in turn, ending at the first one answered with an error (20_memory.md R39, R47). -/
def putBytes : List Byte → List Bool → PutResult
  | [], io => ⟨[], false, io⟩
  | b :: bs, io =>
    let asked := askOracle 1 io
    if asked.1 then ⟨[], true, asked.2⟩
    else
      let rest := putBytes bs asked.2
      ⟨b :: rest.appended, rest.failed, rest.io⟩

/-! ### Status of the CORE -/

/-- STATUS.HALT: 1 if and only if FC is not 0 (10_state.md R23). -/
def State.halted (s : State) : Bool := s.fc.isSome

/-- STATUS.BUSY: a command is executing (10_state.md R23). In this model that is an RLD that waits for a byte
(20_memory.md R35); a halted CORE executes none (60_exceptions.md R164). -/
def State.busy (s : State) : Bool := s.hold.isSome && !s.halted

/-- The CORE executes a word that is issued now: it is neither waiting in a command nor halted (30_encoding.md R50,
60_exceptions.md R164). -/
def State.ready (s : State) : Bool := !s.hold.isSome && !s.halted

/-! ### Taking a fault, and the return from one -/

/-- `raise F_X` by the command with word `w` (60_exceptions.md R153): FC and FCMD are written, HALT with FC, and the command
ends. Nothing else is saved and control goes nowhere. -/
def takeFault (f : FaultCode) (w : Word) (s : State) : State :=
  if s.fc = none then { s with fc := some f, fcmd := w, hold := none } else s

/-- `rst`, the only way out of HALT (60_exceptions.md R164, 70_reset_and_hazards.md R170): the CORE's own state as
`State.reset` has it, the streams, the planes and the host's side as they were (R171). -/
def applyReset (s : State) : State :=
  { State.reset with
    istr := s.istr, eos := s.eos, ostr := s.ostr
    planeY := s.planeY, planeCr := s.planeCr, planeCb := s.planeCb
    ioAnswers := s.ioAnswers, host := s.host, rsp := s.rsp, free := s.free }

/-! ### The frame every command runs in -/

/-- A command is executed only by a CORE that is ready. A halted one discards it (60_exceptions.md R164); one that waits in
an RLD does not take it (30_encoding.md R50, 70_reset_and_hazards.md R174). Either way nothing changes. -/
def whenReady (s : State) (run : State) : Host.Outcome State Fault Refusal :=
  .next (if s.ready then run else s)

/-- A command that reads a buffer: F_NOSRC if that buffer is not valid, checked before anything else
(60_exceptions.md R152, 10_state.md R17). -/
def fromSource (i : Instr) (valid : Bool) (s : State) (run : State) : Host.Outcome State Fault Refusal :=
  whenReady s (if valid then run else takeFault .noSrc (encode i) s)

/-- A block of free values: the cells of Z after a faulting RLD (60_exceptions.md R163, assumption log 4). -/
def freeBlock (n : Nat) : Block 8 := tabulate (Config.freeCell n)

end Sys2Proof.Machine
end

