-- ==== Sys2Proof/Machine/Operands.lean ====
section
/-!
DEFINITION. The operand forms: the plane number, the cell a block position names and its address, and the conversions of the
buffer window (30_encoding.md R54, 40_config_partitioner.md R73, 20_memory.md R31 and R48).
-/

namespace Sys2Proof.Machine

/-- The plane a 2-bit operand selects; 3 is reserved (30_encoding.md R54, R58). -/
def planeOfOperand (p : BitVec 2) : Option PlaneId :=
  match p.toNat with
  | 0 => some .luma
  | 1 => some .chromaRed
  | 2 => some .chromaBlue
  | _ => none

/-- `row <- 8*by + r` for the cell of linear index `k` (40_config_partitioner.md R73). -/
def planeRow (bY : BitVec 13) (k : Nat) : Nat := 8 * bY.toNat + rowOf k

/-- `col <- 8*bx + c` for the cell of linear index `k` (40_config_partitioner.md R73). -/
def planeCol (bx : BitVec 13) (k : Nat) : Nat := 8 * bx.toNat + colOf k

/-- Is the cell's plane position inside the plane: `row < PH and col < PW` (40_config_partitioner.md R73)? -/
def inPlane (s : State) (bx bY : BitVec 13) (k : Nat) : Bool :=
  planeRow bY k < s.ph.toNat && planeCol bx k < s.pw.toNat

/-- The address of the cell's sample: `row*PW + col` (20_memory.md R31). -/
def planeAddress (s : State) (bx bY : BitVec 13) (k : Nat) : Nat :=
  planeRow bY k * s.pw.toNat + planeCol bx k

/-- How many `MemRead`s a BPX makes: one per cell inside the plane (20_memory.md R32). -/
def planeReads (s : State) (bx bY : BitVec 13) : Nat :=
  ((List.range 64).filter (inPlane s bx bY)).length

/-- A block written through the window: each cell takes the low bits of its word (20_memory.md R48). -/
def windowBlock (w : Nat) (v : Vector Word 64) : Block w :=
  tabulate fun k => (cell v k).setWidth w

end Sys2Proof.Machine
end

