-- ==== Sys2Proof/Machine/Flags.lean ====
section
/-!
DEFINITION. The flags and the control and status registers as the host reads them: the fault codes, STATUS, FCMD, PW and PH
(10_state.md R23 to R27), the level outputs (60_exceptions.md R161), and the buffer window (20_memory.md R48). The valid
bits are the only flags a command writes (10_state.md section 4).
-/

namespace Sys2Proof.Machine

/-- The value of STATUS.FC for a fault (60_exceptions.md R150). -/
def faultCode : Option FaultCode → BitVec 4
  | none => 0#4
  | some .illegal => 1#4
  | some .noSrc => 2#4
  | some .trunc => 3#4
  | some .overrun => 4#4
  | some .badSym => 5#4
  | some .io => 6#4

/-- The valid bits V_R, V_Z, V_Q, V_C, V_L, V_S: bits 13 down to 8 of STATUS (10_state.md R23). -/
def validBits (s : State) : BitVec 6 :=
  BitVec.ofBool s.vR ++ BitVec.ofBool s.vZ ++ BitVec.ofBool s.vQ ++ BitVec.ofBool s.vC ++ BitVec.ofBool s.vL
    ++ BitVec.ofBool s.vS

/-- STATUS (10_state.md R23): reserved bits 0, then the valid bits, FC, reserved bits 0, HALT, BUSY. -/
def statusWord (s : State) : Word :=
  0#18 ++ validBits s ++ faultCode s.fc ++ 0#2 ++ BitVec.ofBool s.halted ++ BitVec.ofBool s.busy

/-- `CSRRD(n)` (20_memory.md R49, 10_state.md R27): a CSR number of 4 or more reads as 0. -/
def csrValue (s : State) (n : Nat) : Word :=
  match n with
  | 0 => statusWord s
  | 1 => s.fcmd
  | 2 => s.pw.setWidth 32
  | 3 => s.ph.setWidth 32
  | _ => 0#32

/-- The level output `busy` (60_exceptions.md R161). -/
def busyOutput (s : State) : Bool := s.busy

/-- The level output `fault` (60_exceptions.md R161). -/
def faultOutput (s : State) : Bool := s.halted

/-- The valid bit of a buffer (10_state.md R17). -/
def validBit (s : State) : BufId → Bool
  | .s => s.vS
  | .l => s.vL
  | .c => s.vC
  | .q => s.vQ
  | .z => s.vZ
  | .r => s.vR

/-- The buffer a command reads (10_state.md R18). -/
def sourceOf : Instr → Option BufId
  | .nop => none
  | .cfgw _ => none
  | .cfgh _ => none
  | .bpx _ _ _ => none
  | .lsh => some .s
  | .fdct => some .l
  | .qnt => some .c
  | .zzs => some .q
  | .rle => some .z
  | .rld => none
  | .zzu => some .z
  | .dqt => some .q
  | .idct => some .c
  | .uls => some .r

/-- The buffer a command writes (10_state.md R18). -/
def targetOf : Instr → Option BufId
  | .nop => none
  | .cfgw _ => none
  | .cfgh _ => none
  | .bpx _ _ _ => some .s
  | .lsh => some .l
  | .fdct => some .c
  | .qnt => some .q
  | .zzs => some .z
  | .rle => none
  | .rld => some .z
  | .zzu => some .q
  | .dqt => some .c
  | .idct => some .r
  | .uls => some .s

/-- The number of a buffer on the window port (20_memory.md R48). -/
def bufferNumber : BufId → Nat
  | .s => 0
  | .l => 1
  | .c => 2
  | .q => 3
  | .z => 4
  | .r => 5

/-- A cell as the window returns it: zero-extended for S, sign-extended for the others (20_memory.md R48). -/
def windowCell (s : State) (b : BufId) (k : Nat) : Word :=
  match b with
  | .s => (cell s.bufS k).setWidth 32
  | .l => (cell s.bufL k).signExtend 32
  | .c => (cell s.bufC k).signExtend 32
  | .q => (cell s.bufQ k).signExtend 32
  | .z => (cell s.bufZ k).signExtend 32
  | .r => cell s.bufR k

/-- `BUFRD(b, k)` (20_memory.md R48): the word is returned; for a buffer that is not valid it is a fresh free value
(assumption log 4). -/
def windowRead (b : BufId) (k : Nat) (s : State) : State :=
  if validBit s b then { s with rsp := s.rsp ++ [windowCell s b k] }
  else { s with rsp := s.rsp ++ [Config.freeWord s.free], free := s.free + 1 }

/-- `BUFWR(b, v)` (20_memory.md R48): all 64 cells written, the valid bit set. -/
def windowWrite (b : BufId) (v : Vector Word 64) (s : State) : State :=
  match b with
  | .s => { s with bufS := windowBlock 8 v, vS := true }
  | .l => { s with bufL := windowBlock 8 v, vL := true }
  | .c => { s with bufC := windowBlock 16 v, vC := true }
  | .q => { s with bufQ := windowBlock 8 v, vQ := true }
  | .z => { s with bufZ := windowBlock 8 v, vZ := true }
  | .r => { s with bufR := windowBlock 32 v, vR := true }

end Sys2Proof.Machine
end

