-- ==== Sys2Proof/Machine/Partitioner.lean ====
section
/-!
DEFINITION. The configuration commands and the block partitioner: NOP, CFGW, CFGH and BPX (40_config_partitioner.md R70 to
R73).
-/

namespace Sys2Proof.Machine

/-- NOP (40_config_partitioner.md R70): nothing. -/
def execNop (s : State) : Host.Outcome State Fault Refusal := whenReady s s

/-- CFGW imm16 (40_config_partitioner.md R71): `PW <- imm16`. -/
def execCfgw (imm16 : BitVec 16) (s : State) : Host.Outcome State Fault Refusal :=
  whenReady s { s with pw := imm16 }

/-- CFGH imm16 (40_config_partitioner.md R72): `PH <- imm16`. -/
def execCfgh (imm16 : BitVec 16) (s : State) : Host.Outcome State Fault Refusal :=
  whenReady s { s with ph := imm16 }

/-- The block a BPX cuts out when the plane byte at an address reads as `rd addr`: in-range cells read, the others 0
(40_config_partitioner.md R73). -/
def cutBlock (rd : Nat → Byte) (bx bY : BitVec 13) (s : State) : Block 8 :=
  tabulate fun k => if inPlane s bx bY k then rd (planeAddress s bx bY k) else 0#8

/-- The state after a BPX of a legal plane: F_IO if one of its reads is answered with an error, S and V_S as they were
(60_exceptions.md R157); otherwise S written and valid. -/
def partitionFrom (rd : Nat → Byte) (p : BitVec 2) (bx bY : BitVec 13) (s : State) : State :=
  let asked := askOracle (planeReads s bx bY) s.ioAnswers
  if asked.1 then takeFault .io (encode (.bpx p bx bY)) { s with ioAnswers := asked.2 }
  else { s with bufS := cutBlock rd bx bY s, vS := true, ioAnswers := asked.2 }

/-- BPX with its plane reads answered by `rd`; `p = 3` is an illegal command (30_encoding.md R58). -/
def partition (rd : PlaneId → Nat → Byte) (p : BitVec 2) (bx bY : BitVec 13) (s : State) : State :=
  match planeOfOperand p with
  | some plane => partitionFrom (rd plane) p bx bY s
  | none => takeFault .illegal (encode (.bpx p bx bY)) s

/-- BPX p, bx, by (40_config_partitioner.md R73): a block of PLANE[p] into S. -/
def execBpx (p : BitVec 2) (bx bY : BitVec 13) (s : State) : Host.Outcome State Fault Refusal :=
  whenReady s (partition (memRead s) p bx bY s)

end Sys2Proof.Machine
end

