-- ==== Sys2Proof/Machine/RunLength.lean ====
section
/-!
DEFINITION. The run-length codec: RLE and RLD (43_rle.md R110 to R116).
-/

namespace Sys2Proof.Machine

/-! ### RLE -/

/-- The maximal runs of a sequence, as (value, count) in order (43_rle.md R110, R114). -/
def runsOf : List Byte → List (Byte × Nat)
  | [] => []
  | v :: vs =>
    match runsOf vs with
    | [] => [(v, 1)]
    | (u, n) :: rest => if v = u then (u, n + 1) :: rest else (v, 1) :: (u, n) :: rest

/-- The two bytes of a symbol, value first (43_rle.md R112, 20_memory.md R40). -/
def symbolBytes (run : Byte × Nat) : List Byte := [run.1, BitVec.ofNat 8 run.2]

/-- The sentinel (43_rle.md R111). -/
def sentinel : List Byte := [0xFF#8, 0x00#8]

/-- The symbol stream of a sequence: its runs and one sentinel (43_rle.md R113, R114). -/
def symbolStream (z : List Byte) : List Byte := (runsOf z).flatMap symbolBytes ++ sentinel

/-- What an RLE of a valid Z does: its stream to OSTR, byte by byte; at a `StrPut` answered with an error F_IO, the bytes
before it left in OSTR (43_rle.md R114, 60_exceptions.md R157). -/
def encodeRuns (s : State) : State :=
  let put := putBytes (symbolStream (cells s.bufZ)) s.ioAnswers
  let t := { s with ostr := s.ostr ++ put.appended, ioAnswers := put.io }
  if put.failed then takeFault .io (encode .rle) t else t

/-- RLE (43_rle.md R114): Z to OSTR; no buffer and no valid bit changes. -/
def execRle (s : State) : Host.Outcome State Fault Refusal := fromSource .rle s.vZ s (encodeRuns s)

/-! ### RLD -/

/-- How a stretch of RLD ends. -/
inductive RldStop
  /-- The sentinel was read; these are the cells filled, the rest of Z is 0. -/
  | done (filled : List Byte)
  /-- ISTR is empty and `eos` is not raised (20_memory.md R35). -/
  | wait (h : RldHold)
  /-- A fault was raised. -/
  | fault (f : FaultCode)
  deriving DecidableEq, Repr

/-- What a stretch of RLD leaves. -/
structure RldResult where
  /-- How it ended. -/
  stop : RldStop
  /-- ISTR after it. -/
  istr : List Byte
  /-- The oracle's answers left. -/
  io : List Bool
  deriving DecidableEq, Repr

/-- The test of one symbol, in the order of 43_rle.md R115: sentinel, zero count, overrun. `none` means the loop goes on, with
the cells filled so far. -/
def takeSymbol (filled : List Byte) (value count : Byte) : RldStop ⊕ List Byte :=
  if value = 0xFF#8 ∧ count = 0x00#8 then .inl (.done filled)
  else if count = 0x00#8 then .inl (.fault .badSym)
  else if filled.length + count.toNat > 64 then .inl (.fault .overrun)
  else .inr (filled ++ List.replicate count.toNat value)

/-- The loop of 43_rle.md R115, byte by byte over ISTR. `keep` says whether the byte of a `StrGet` that is answered with an
error stays in ISTR (assumption log 5). -/
def decodeLoop (eos keep : Bool) : List Byte → List Bool → RldHold → RldResult
  | [], io, h => ⟨if eos then .fault .trunc else .wait h, [], io⟩
  | b :: rest, io, h =>
    let asked := askOracle 1 io
    if asked.1 then ⟨.fault .io, if keep then b :: rest else rest, asked.2⟩
    else
      match h.value with
      | none => decodeLoop eos keep rest asked.2 { h with value := some b }
      | some value =>
        match takeSymbol h.filled value b with
        | .inl stop => ⟨stop, rest, asked.2⟩
        | .inr filled => decodeLoop eos keep rest asked.2 ⟨filled, none⟩

/-- Z as a completed RLD writes it: the cells filled, then 0 (43_rle.md R115). -/
def padded (filled : List Byte) : Block 8 := tabulate fun k => filled.getD k 0#8

/-- The state after a stretch of RLD: complete, waiting, or faulted with V_Z 0 and the cells of Z free values
(43_rle.md R115, 60_exceptions.md R163). -/
def finishRld (s : State) (r : RldResult) : State :=
  let t := { s with istr := r.istr, ioAnswers := r.io }
  match r.stop with
  | .done filled => { t with bufZ := padded filled, vZ := true, hold := none }
  | .wait h => { t with hold := some h }
  | .fault f => takeFault f (encode .rld) { t with bufZ := freeBlock s.free, vZ := false, free := s.free + 1 }

/-- RLD from the point `h` on: at its start `h` is empty, after a wait it is what was held (20_memory.md R35). -/
def runRld (h : RldHold) (s : State) : State :=
  finishRld s (decodeLoop s.eos (Config.failedGetKeepsByte s.free) s.istr s.ioAnswers h)

/-- Where an RLD starts: nothing filled, no value byte taken. -/
def rldStart : RldHold := ⟨[], none⟩

/-- RLD (43_rle.md R115): one symbol stream from ISTR into Z. -/
def execRld (s : State) : Host.Outcome State Fault Refusal := whenReady s (runRld rldStart s)

end Sys2Proof.Machine
end

