-- ==== Sys2Proof/Machine/CosField.lean ====
section
/-!
DEFINITION. Exact arithmetic for the two transforms (41_transform.md R82, R91). A transform sum is an integer combination of
`g_0 .. g_7`, `g_k = cos(k*pi/16)` (`CosSum`). To round it exactly its sign, and the sign of its difference from an integer,
must be known exactly; for that it is written over nested square roots,
`2*g_4 = √2`, `2*g_2 = √(2+√2)`, `2*g_1 = √(2+√(2+√2))` (`Root2`, `Root4`, `Root8`), where a sign is found by comparing
squares. No approximation decides a result: an approximation only guesses the integer that is then checked.
-/

namespace Sys2Proof.Machine

/-- `c0 + c1*g_1 + ... + c7*g_7` with `g_k = cos(k*pi/16)` (41_transform.md R91). -/
structure CosSum where
  /-- The coefficient of `g_0 = 1`. -/
  c0 : Int
  /-- The coefficient of `g_1`. -/
  c1 : Int
  /-- The coefficient of `g_2`. -/
  c2 : Int
  /-- The coefficient of `g_3`. -/
  c3 : Int
  /-- The coefficient of `g_4`. -/
  c4 : Int
  /-- The coefficient of `g_5`. -/
  c5 : Int
  /-- The coefficient of `g_6`. -/
  c6 : Int
  /-- The coefficient of `g_7`. -/
  c7 : Int
  deriving DecidableEq, Repr

/-- The sum of nothing. -/
def cosZero : CosSum := ⟨0, 0, 0, 0, 0, 0, 0, 0⟩

/-- Add `v * g_m`, `m` in 0..8; `g_8 = 0` (41_transform.md R91). -/
def addCosine (s : CosSum) (v : Int) : Nat → CosSum
  | 0 => { s with c0 := s.c0 + v }
  | 1 => { s with c1 := s.c1 + v }
  | 2 => { s with c2 := s.c2 + v }
  | 3 => { s with c3 := s.c3 + v }
  | 4 => { s with c4 := s.c4 + v }
  | 5 => { s with c5 := s.c5 + v }
  | 6 => { s with c6 := s.c6 + v }
  | 7 => { s with c7 := s.c7 + v }
  | _ => s

/-- The index in 0..16 with the same cosine: `g_{k+32} = g_k`, `g_{32-k} = g_k` (41_transform.md R91). -/
def foldPhase (n : Nat) : Nat := if n % 32 ≤ 16 then n % 32 else 32 - n % 32

/-- Add `v * g_n` for any `n`: `g_{16-k} = -g_k` (41_transform.md R91). -/
def addPhase (s : CosSum) (v : Int) (n : Nat) : CosSum :=
  if foldPhase n ≤ 8 then addCosine s v (foldPhase n) else addCosine s (-v) (16 - foldPhase n)

/-- `a + b*√2`. -/
structure Root2 where
  /-- The integer part. -/
  a : Int
  /-- The coefficient of `√2`. -/
  b : Int
  deriving DecidableEq, Repr

/-- `p + q*√(2+√2)`. -/
structure Root4 where
  /-- The part over `√2`. -/
  p : Root2
  /-- The coefficient of `√(2+√2)`. -/
  q : Root2
  deriving DecidableEq, Repr

/-- `p + q*√(2+√(2+√2))`. -/
structure Root8 where
  /-- The part over `√2` and `√(2+√2)`. -/
  p : Root4
  /-- The coefficient of `√(2+√(2+√2))`. -/
  q : Root4
  deriving DecidableEq, Repr

/-- Sum. -/
def Root2.add (x y : Root2) : Root2 := ⟨x.a + y.a, x.b + y.b⟩

/-- Difference. -/
def Root2.sub (x y : Root2) : Root2 := ⟨x.a - y.a, x.b - y.b⟩

/-- Product. -/
def Root2.mul (x y : Root2) : Root2 := ⟨x.a * y.a + 2 * (x.b * y.b), x.a * y.b + x.b * y.a⟩

/-- `2 + √2`, the square of `√(2+√2)`. -/
def square4 : Root2 := ⟨2, 1⟩

/-- Difference. -/
def Root4.sub (x y : Root4) : Root4 := ⟨x.p.sub y.p, x.q.sub y.q⟩

/-- Product. -/
def Root4.mul (x y : Root4) : Root4 :=
  ⟨(x.p.mul y.p).add (square4.mul (x.q.mul y.q)), (x.p.mul y.q).add (x.q.mul y.p)⟩

/-- `2 + √(2+√2)`, the square of `√(2+√(2+√2))`. -/
def square8 : Root4 := ⟨⟨2, 0⟩, ⟨1, 0⟩⟩

/-- The sign of `x + y*r` for a positive `r`, from the signs of `x`, of `y` and of `x^2 - y^2*r^2`. -/
def joinSign (sx sy sd : Int) : Int :=
  if sy = 0 then sx else if sx = 0 ∨ sx = sy then sy else sx * sd

/-- The sign, -1, 0 or 1. -/
def Root2.sgn (x : Root2) : Int := joinSign x.a.sign x.b.sign (x.a * x.a - 2 * (x.b * x.b)).sign

/-- The sign, -1, 0 or 1. -/
def Root4.sgn (x : Root4) : Int :=
  joinSign x.p.sgn x.q.sgn ((x.p.mul x.p).sub (square4.mul (x.q.mul x.q))).sgn

/-- The sign, -1, 0 or 1. -/
def Root8.sgn (x : Root8) : Int :=
  joinSign x.p.sgn x.q.sgn ((x.p.mul x.p).sub (square8.mul (x.q.mul x.q))).sgn

/-- The value less an integer. -/
def Root8.subInt (x : Root8) (k : Int) : Root8 := { x with p := { x.p with p := { x.p.p with a := x.p.p.a - k } } }

/-- The value with its sign changed. -/
def Root8.neg (x : Root8) : Root8 :=
  ⟨⟨⟨-x.p.p.a, -x.p.p.b⟩, ⟨-x.p.q.a, -x.p.q.b⟩⟩, ⟨⟨-x.q.p.a, -x.q.p.b⟩, ⟨-x.q.q.a, -x.q.q.b⟩⟩⟩

/-- Twice a cosine sum, over the square roots. With `t = √2`, `u = √(2+√2)`, `w = √(2+√(2+√2))`: `2g_1 = w`, `2g_2 = u`,
`2g_3 = (u-1)*w`, `2g_4 = t`, `2g_5 = (1+t-u)*w`, `2g_6 = t*u-u`, `2g_7 = (t*u-t-1)*w`. -/
def twice (s : CosSum) : Root8 :=
  ⟨⟨⟨2 * s.c0, s.c4⟩, ⟨s.c2 - s.c6, s.c6⟩⟩,
   ⟨⟨s.c1 - s.c3 + s.c5 - s.c7, s.c5 - s.c7⟩, ⟨s.c3 - s.c5, s.c7⟩⟩⟩

/-- `m <= x/16 + 1/2`, decided exactly. -/
def reaches (x : Root8) (m : Nat) : Bool := 0 ≤ (x.subInt (16 * (m : Int) - 8)).sgn

/-- The largest `m` below `m0 + 2^bits`, from `m0` up, that `x` reaches, bit by bit. -/
def searchRound (x : Root8) : Nat → Nat → Nat
  | 0, m => m
  | bits + 1, m => if reaches x (m + 2 ^ bits) then searchRound x bits (m + 2 ^ bits) else searchRound x bits m

/-- `2^40 * x`, roughly: the powers of the roots to 40 binary places. Used for a guess only. -/
def roughly (x : Root8) : Int :=
  1099511627776 * x.p.p.a + 1554944255988 * x.p.p.b + 2031632577321 * x.p.q.a + 2873162344606 * x.p.q.b
    + 2156769640310 * x.q.p.a + 3050132876241 * x.q.p.b + 3985190654048 * x.q.q.a + 5635910671597 * x.q.q.b

/-- A guess at `floor(x/16 + 1/2)`. -/
def guessRound (x : Root8) : Nat := ((roughly x).toNat + 2 ^ 43) / 2 ^ 44

/-- `floor(x/16 + 1/2)` for `0 <= x/16 + 1/2 < 2^20`: the guess if it is exactly right, else the search. -/
def floorHalfUp (x : Root8) : Nat :=
  if reaches x (guessRound x) && !reaches x (guessRound x + 1) then guessRound x else searchRound x 20 0

/-- `RHA(x/16)` (00_scope.md R8) for `|x/16| + 1/2 < 2^20`. -/
def rhaSixteenth (x : Root8) : Int := if 0 ≤ x.sgn then floorHalfUp x else -(floorHalfUp x.neg : Int)

end Sys2Proof.Machine
end

