-- ==== Sys2Proof/Machine/Tables.lean ====
section
/-!
DEFINITION. The two constant tables of the CORE (10_state.md R20): QTABLE (41_transform.md R83) and ZZ (42_zigzag.md R101).
-/

namespace Sys2Proof.Machine

/-- Rows 0 to 3 of QTABLE (41_transform.md R83). -/
def qTableTop : List Nat := [
  16, 11, 10, 16, 24, 40, 51, 61,
  12, 12, 14, 19, 26, 58, 60, 55,
  14, 13, 16, 24, 40, 57, 69, 56,
  14, 17, 22, 29, 51, 87, 80, 62]

/-- Rows 4 to 7 of QTABLE (41_transform.md R83). -/
def qTableBottom : List Nat := [
  18, 22, 37, 56, 68, 109, 103, 77,
  24, 35, 55, 64, 81, 104, 113, 92,
  49, 64, 78, 87, 103, 121, 120, 101,
  72, 92, 95, 98, 112, 100, 103, 99]

/-- `QTABLE[i][j]` at the linear index `8*i + j` (41_transform.md R83). -/
def qTable (k : Nat) : Nat := (qTableTop ++ qTableBottom).getD k 1

/-- Positions 0 to 31 of ZZ (42_zigzag.md R101). -/
def zzFirst : List Nat := [
  0, 1, 8, 16, 9, 2, 3, 10,
  17, 24, 32, 25, 18, 11, 4, 5,
  12, 19, 26, 33, 40, 48, 41, 34,
  27, 20, 13, 6, 7, 14, 21, 28]

/-- Positions 32 to 63 of ZZ (42_zigzag.md R101). -/
def zzLast : List Nat := [
  35, 42, 49, 56, 57, 50, 43, 36,
  29, 22, 15, 23, 30, 37, 44, 51,
  58, 59, 52, 45, 38, 31, 39, 46,
  53, 60, 61, 54, 47, 55, 62, 63]

/-- The table ZZ (42_zigzag.md R101). -/
def zzTable : List Nat := zzFirst ++ zzLast

/-- `ZZ[k]`: the linear index of the cell that stands at position `k` of the sequence (42_zigzag.md R101). -/
def zz (k : Nat) : Nat := zzTable.getD k 0

/-- `ZZINV[n]`: the position `k` with `ZZ[k] = n` (42_zigzag.md R105). -/
def zzInv (n : Nat) : Nat := zzTable.idxOf n

/-- The rows of the cells of anti-diagonal `d`, in the order the sweep visits them: falling for even `d`, rising for odd
(42_zigzag.md R102). -/
def sweepRows (d : Nat) : List Nat :=
  let rows := (List.range 8).filter fun r => r ≤ d && d - r ≤ 7
  if d % 2 = 0 then rows.reverse else rows

/-- The table as the procedure of 42_zigzag.md R102 generates it. -/
def zzGenerated : List Nat := (List.range 15).flatMap fun d => (sweepRows d).map fun r => 8 * r + (d - r)

end Sys2Proof.Machine
end

