-- ==== Sys2Proof/Machine/Transform.lean ====
section
/-!
DEFINITION. The block transform pipeline: LSH, FDCT, QNT, DQT, IDCT and ULS (41_transform.md R84 to R89).
-/

namespace Sys2Proof.Machine

/-! ### The cell functions -/

/-- `S[r][c] - 128`, exact (41_transform.md R84). -/
def levelShiftCell (v : BitVec 8) : BitVec 8 := BitVec.ofInt 8 ((v.toNat : Int) - 128)

/-- The phase of `c(k) * cos((2t+1)*k*pi/16) = g_phase / 2` (41_transform.md R81, R91: `c(0) = g_4/2`, `c(k) = 1/2`). -/
def phase (t k : Nat) : Nat := if k = 0 then 4 else (2 * t + 1) * k

/-- Add `8 * v * c(i)*c(j)*cos((2y+1)*i*pi/16)*cos((2x+1)*j*pi/16)` for the phases `a` and `b` of its two factors:
`8 * g_a/2 * g_b/2 = g_{a+b} + g_{a-b}` (41_transform.md R91). Phases are at most 105, so 256 is a multiple of the period 32
that keeps the difference a natural number. -/
def addTerm (s : CosSum) (v : Int) (a b : Nat) : CosSum := addPhase (addPhase s v (a + b)) v (a + (256 - b))

/-- Eight times the sum of 41_transform.md R85 for the coefficient `(i, j)`, over the samples in linear order from
index `k` on. -/
def forwardSum (i j : Nat) : List (BitVec 8) → Nat → CosSum → CosSum
  | [], _, s => s
  | v :: vs, k, s => forwardSum i j vs (k + 1) (addTerm s v.toInt (phase (rowOf k) i) (phase (colOf k) j))

/-- Eight times the sum of 41_transform.md R88 for the sample `(y, x)`, over the coefficients in linear order from
index `k` on. The first index of C pairs with the row `y` (R93). -/
def inverseSum (y x : Nat) : List (BitVec 16) → Nat → CosSum → CosSum
  | [], _, s => s
  | v :: vs, k, s => inverseSum y x vs (k + 1) (addTerm s v.toInt (phase y (rowOf k)) (phase x (colOf k)))

/-- `RHA` of the forward transform's real value at `(i, j)` (41_transform.md R85). -/
def fdctCell (l : Block 8) (i j : Nat) : Int := rhaSixteenth (twice (forwardSum i j (cells l) 0 cosZero))

/-- `RHA` of the inverse transform's real value at `(y, x)` (41_transform.md R88). -/
def idctCell (c : Block 16) (y x : Nat) : Int := rhaSixteenth (twice (inverseSum y x (cells c) 0 cosZero))

/-- `wrap_s8(RHA(a / t))` (41_transform.md R86). -/
def quantCell (a : BitVec 16) (t : Nat) : BitVec 8 := BitVec.ofInt 8 (rhaDiv a.toInt t)

/-- `Q[i][j] * QTABLE[i][j]`, exact (41_transform.md R87). -/
def dequantCell (q : BitVec 8) (t : Nat) : BitVec 16 := BitVec.ofInt 16 (q.toInt * (t : Int))

/-- `wrap_u8(R[r][c] + 128)` (41_transform.md R89). -/
def unlevelShiftCell (v : BitVec 32) : BitVec 8 := BitVec.ofInt 8 (v.toInt + 128)

/-! ### The block functions -/

/-- The level shift of a block (41_transform.md R84). -/
def levelShift (s : Block 8) : Block 8 := tabulate fun k => levelShiftCell (cell s k)

/-- The forward transform of a block (41_transform.md R85). -/
def forwardDct (l : Block 8) : Block 16 := tabulate fun k => BitVec.ofInt 16 (fdctCell l (rowOf k) (colOf k))

/-- The quantizer (41_transform.md R86). -/
def quantize (c : Block 16) : Block 8 := tabulate fun k => quantCell (cell c k) (qTable k)

/-- The dequantizer (41_transform.md R87). -/
def dequantize (q : Block 8) : Block 16 := tabulate fun k => dequantCell (cell q k) (qTable k)

/-- The inverse transform of a block (41_transform.md R88). -/
def inverseDct (c : Block 16) : Block 32 := tabulate fun k => BitVec.ofInt 32 (idctCell c (rowOf k) (colOf k))

/-- The un-level shift of a block (41_transform.md R89). -/
def unlevelShift (r : Block 32) : Block 8 := tabulate fun k => unlevelShiftCell (cell r k)

/-! ### The meanings -/

/-- LSH (41_transform.md R84): S into L. -/
def execLsh (s : State) : Host.Outcome State Fault Refusal :=
  fromSource .lsh s.vS s { s with bufL := levelShift s.bufS, vL := true }

/-- FDCT (41_transform.md R85): L into C. -/
def execFdct (s : State) : Host.Outcome State Fault Refusal :=
  fromSource .fdct s.vL s { s with bufC := forwardDct s.bufL, vC := true }

/-- QNT (41_transform.md R86): C into Q. -/
def execQnt (s : State) : Host.Outcome State Fault Refusal :=
  fromSource .qnt s.vC s { s with bufQ := quantize s.bufC, vQ := true }

/-- DQT (41_transform.md R87): Q into C. -/
def execDqt (s : State) : Host.Outcome State Fault Refusal :=
  fromSource .dqt s.vQ s { s with bufC := dequantize s.bufQ, vC := true }

/-- IDCT (41_transform.md R88): C into R. -/
def execIdct (s : State) : Host.Outcome State Fault Refusal :=
  fromSource .idct s.vC s { s with bufR := inverseDct s.bufC, vR := true }

/-- ULS (41_transform.md R89): R into S. -/
def execUls (s : State) : Host.Outcome State Fault Refusal :=
  fromSource .uls s.vR s { s with bufS := unlevelShift s.bufR, vS := true }

end Sys2Proof.Machine
end

