-- ==== Sys2Proof/Machine/Zigzag.lean ====
section
/-!
DEFINITION. The zigzag scanner: ZZS and ZZU (42_zigzag.md R103, R104).
-/

namespace Sys2Proof.Machine

/-- `Z[k] <- Q[ZZ[k]]` (42_zigzag.md R103). -/
def zigzagScan (q : Block 8) : Block 8 := tabulate fun k => cell q (zz k)

/-- `Q[ZZ[k]] <- Z[k]` for every `k` (42_zigzag.md R104); each cell of Q is written once, at the position `ZZINV` of it
(R105). -/
def zigzagUnscan (z : Block 8) : Block 8 := tabulate fun n => cell z (zzInv n)

/-- ZZS (42_zigzag.md R103): Q into Z. -/
def execZzs (s : State) : Host.Outcome State Fault Refusal :=
  fromSource .zzs s.vQ s { s with bufZ := zigzagScan s.bufQ, vZ := true }

/-- ZZU (42_zigzag.md R104): Z into Q. -/
def execZzu (s : State) : Host.Outcome State Fault Refusal :=
  fromSource .zzu s.vZ s { s with bufQ := zigzagUnscan s.bufZ, vQ := true }

end Sys2Proof.Machine
end

