-- ==== Sys2Proof/Machine/Dispatch.lean ====
section
/-!
DEFINITION. exec: one arm per command, each one call of its meaning.
-/

namespace Sys2Proof.Machine

/-- The effect of one command. -/
def exec (i : Instr) (s : State) : Host.Outcome State Fault Refusal :=
  match i with
  | .nop => Sys2Proof.Machine.execNop s
  | .cfgw imm16 => Sys2Proof.Machine.execCfgw imm16 s
  | .cfgh imm16 => Sys2Proof.Machine.execCfgh imm16 s
  | .bpx p bx bY => Sys2Proof.Machine.execBpx p bx bY s
  | .lsh => Sys2Proof.Machine.execLsh s
  | .fdct => Sys2Proof.Machine.execFdct s
  | .qnt => Sys2Proof.Machine.execQnt s
  | .zzs => Sys2Proof.Machine.execZzs s
  | .rle => Sys2Proof.Machine.execRle s
  | .rld => Sys2Proof.Machine.execRld s
  | .zzu => Sys2Proof.Machine.execZzu s
  | .dqt => Sys2Proof.Machine.execDqt s
  | .idct => Sys2Proof.Machine.execIdct s
  | .uls => Sys2Proof.Machine.execUls s

end Sys2Proof.Machine
end

