-- ==== Sys2Proof/Machine/HostPort.lean ====
section
/-!
DEFINITION. The CORE seen from its ports: taking a command word (30_encoding.md R50, 60_exceptions.md R151), each
interaction of the host (44_pipeline_host.md R139), and one step of the whole.
-/

namespace Sys2Proof.Machine

/-- The CORE, idle, takes a word from `CMD`: the command it is, or F_ILLEGAL if it is none (60_exceptions.md R151); a halted
CORE discards either (R164). -/
def takeWord (w : Word) (s : State) : Host.Outcome State Fault Refusal :=
  match decode w with
  | .instr i => exec i s
  | .illegal _ => whenReady s (takeFault .illegal w s)

/-! ### A reset inside a command (70_reset_and_hazards.md R171, R172) -/

/-- The streams after the first `k` one-byte accesses of a command, and the oracle's answers left. What it does to the CORE's
own state does not matter, since reset follows. -/
def cutAccesses (k : Nat) (s : State) : Instr → State
  | .bpx _ bx bY => { s with ioAnswers := (askOracle (min k (planeReads s bx bY)) s.ioAnswers).2 }
  | .rle =>
    if s.vZ then
      let put := putBytes ((symbolStream (cells s.bufZ)).take k) s.ioAnswers
      { s with ostr := s.ostr ++ put.appended, ioAnswers := put.io }
    else s
  | .rld =>
    let r := decodeLoop false (Config.failedGetKeepsByte s.free) (s.istr.take k) s.ioAnswers rldStart
    { s with istr := r.istr ++ s.istr.drop k, ioAnswers := r.io, free := s.free + 1 }
  | .nop => s
  | .cfgw _ => s
  | .cfgh _ => s
  | .lsh => s
  | .fdct => s
  | .qnt => s
  | .zzs => s
  | .zzu => s
  | .dqt => s
  | .idct => s
  | .uls => s

/-- A word is written to `CMD` and `rst` is asserted after the command's first `k` accesses. -/
def cutWord (w : Word) (k : Nat) (s : State) : State :=
  match decode w with
  | .instr i => applyReset (if s.ready then cutAccesses k s i else s)
  | .illegal _ => applyReset s

/-! ### Plane writes that race a command (70_reset_and_hazards.md R175) -/

/-- The byte a racing read sees: the old one or, by a free choice for each write to its address, a new one. -/
def racingByte (n : Nat) (p : PlaneId) (addr : Nat) : List (PlaneId × Word × Byte) → Nat → Byte → Byte
  | [], _, seen => seen
  | (q, a, b) :: writes, j, seen =>
    racingByte n p addr writes (j + 1)
      (if q = p ∧ a.toNat = addr ∧ Config.raceSeesNew n addr j then b else seen)

/-- The planes after a list of host writes. -/
def writePlanes (s : State) : List (PlaneId × Word × Byte) → State
  | [] => s
  | (p, a, b) :: writes => writePlanes (writePlane s p a b) writes

/-- The command of a word run while the host writes plane bytes. Only a BPX can notice. -/
def racingWord (w : Word) (writes : List (PlaneId × Word × Byte)) (s : State) :
    Host.Outcome State Fault Refusal :=
  match decode w with
  | .instr (.bpx p bx bY) =>
    whenReady s (partition (fun plane a => racingByte s.free plane a writes 0 (memRead s plane a)) p bx bY s)
  | .instr i => exec i s
  | .illegal _ => whenReady s (takeFault .illegal w s)

/-- What follows a racing command: the writes have landed. -/
def landWrites (writes : List (PlaneId × Word × Byte)) :
    Host.Outcome State Fault Refusal → Host.Outcome State Fault Refusal
  | .next s => .next (writePlanes { s with free := s.free + 1 } writes)
  | .fault r => .fault r
  | .refused r => .refused r

/-! ### The host's interactions -/

/-- An interaction that needs the CORE idle waits while it is busy: nothing happens and it is still to come
(30_encoding.md R50, 10_state.md R22, 70_reset_and_hazards.md R174). `s` is the state with it at the head of `host`. -/
def whenIdle (s : State) (run : Host.Outcome State Fault Refusal) : Host.Outcome State Fault Refusal :=
  if s.busy then .next s else run

/-- The next interaction of the host takes effect; with none left the CORE stays as it is (10_state.md R28). -/
def hostStep (s : State) : Host.Outcome State Fault Refusal :=
  match s.host with
  | [] => .next s
  | .cmd w :: acts => whenIdle s (takeWord w { s with host := acts })
  | .csrrd n :: acts => .next { s with host := acts, rsp := s.rsp ++ [csrValue s n] }
  | .bufrd b k :: acts => whenIdle s (.next (windowRead b k { s with host := acts }))
  | .bufwr b v :: acts =>
    whenIdle s (.next (if s.halted then { s with host := acts } else windowWrite b v { s with host := acts }))
  | .feed bytes :: acts =>
    if s.eos then .fault .istrClosed else .next { s with host := acts, istr := s.istr ++ bytes }
  | .raiseEos :: acts => if s.eos then .fault .istrClosed else .next { s with host := acts, eos := true }
  | .drain n :: acts => .next { s with host := acts, ostr := s.ostr.drop n }
  | .planeWrite p a b :: acts => .next (writePlane { s with host := acts } p a b)
  | .rst :: acts => .next (applyReset { s with host := acts })
  | .rstRefill bytes :: acts => .next (applyReset { s with host := acts, istr := bytes, eos := false })
  | .cmdCut w k :: acts => whenIdle s (.next (cutWord w k { s with host := acts }))
  | .cmdRacing w writes :: acts => whenIdle s (landWrites writes (racingWord w writes { s with host := acts }))

/-- The interactions that assert `rst` at any time, also while an RLD waits (70_reset_and_hazards.md R170). A command with a
reset inside it is none of them: its word first waits for BUSY 0. -/
def HostAct.isRst : HostAct → Bool
  | .rst => true
  | .rstRefill _ => true
  | .cmd _ => false
  | .csrrd _ => false
  | .bufrd _ _ => false
  | .bufwr _ _ => false
  | .feed _ => false
  | .raiseEos => false
  | .drain _ => false
  | .planeWrite _ _ _ => false
  | .cmdCut _ _ => false
  | .cmdRacing _ _ => false

/-- The host's next interaction asserts `rst`. -/
def State.rstNext (s : State) : Bool := s.host.head?.any HostAct.isRst

/-- An RLD that waits goes on: a byte or the end of ISTR is there (20_memory.md R35, R36), and the host does not assert
`rst`, which takes effect at any time (70_reset_and_hazards.md R170). -/
def State.goesOn (s : State) : Bool := s.busy && (s.istr != [] || s.eos) && !s.rstNext

/-- One step: an RLD that waits goes on as soon as it can; otherwise the next interaction of the host takes effect
(assumption log 7). -/
def coreStep (s : State) : Host.Outcome State Fault Refusal :=
  match s.hold with
  | some h => if s.goesOn then .next (runRld h s) else hostStep s
  | none => hostStep s

end Sys2Proof.Machine
end

