-- ==== Sys2Proof/Machine/Step.lean ====
section
/-!
DEFINITION. The step of the machine, and the host's way to offer it one instruction.
-/

namespace Sys2Proof.Machine

/-- One step of the CORE with its host. -/
def step (s : State) : Host.Outcome State Fault Refusal := coreStep s

/-- The state in which the next step takes the given command word. The CORE fetches nothing (10_state.md R21): a word comes
from the host at the port `CMD`, so it is put first among the host's interactions; and because the port takes a word only
while BUSY is 0 (30_encoding.md R50), no RLD is left waiting. How programs come to run: assumption log 13. -/
def State.withFetchWord (s : State) (nbits w : Nat) : State :=
  { s with hold := none, host := .cmd (BitVec.ofNat 32 (w % 2 ^ nbits)) :: s.host }

end Sys2Proof.Machine
end

