-- ==== Sys2Proof/Machine/Pipeline.lean ====
section
/-!
DEFINITION. The pseudo-commands and the host's two runs (44_pipeline_host.md R130 to R138), as lists of commands and of host
interactions. Nothing in the CORE refers to them; they have no encoding of their own (30_encoding.md R62).
-/

namespace Sys2Proof.Machine

/-- `SETDIM w, h` (44_pipeline_host.md R130). -/
def setDim (w h : BitVec 16) : List Instr := [.cfgw w, .cfgh h]

/-- `ENCBLK p, bx, by` (44_pipeline_host.md R131). -/
def encBlk (p : BitVec 2) (bx bY : BitVec 13) : List Instr := [.bpx p bx bY, .lsh, .fdct, .qnt, .zzs, .rle]

/-- `DECBLK` (44_pipeline_host.md R132). -/
def decBlk : List Instr := [.rld, .zzu, .dqt, .idct, .uls]

/-- `ENC3 bx, by` (44_pipeline_host.md R133). -/
def enc3 (bx bY : BitVec 13) : List Instr := encBlk 0#2 bx bY ++ encBlk 1#2 bx bY ++ encBlk 2#2 bx bY

/-- `DEC3` (44_pipeline_host.md R134). -/
def dec3 : List Instr := decBlk ++ decBlk ++ decBlk

/-- `ceil(W/8)`: the number of block-columns of a width, or of block-rows of a height (40_config_partitioner.md R74). -/
def blocksOf (size : Nat) : Nat := (size + 7) / 8

/-- The number of the symbol stream of plane `p` of block `(bx, by)` in the container (44_pipeline_host.md R136). -/
def streamNumber (blocksY bx bY p : Nat) : Nat := 3 * (bx * blocksY + bY) + p

/-- Where the host puts the sample of cell `k` of block `(bx, by)` in its output plane: row and column
(40_config_partitioner.md R75). -/
def outputPlace (bx bY k : Nat) : Nat × Nat := (8 * bY + rowOf k, 8 * bx + colOf k)

/-- Commands as the host issues them. -/
def issue (is : List Instr) : List HostAct := is.map fun i => .cmd (encode i)

/-- The block positions in container order: outer loop over block-columns, inner loop over block-rows
(44_pipeline_host.md R136, 90_conflicts.md C6). -/
def blockOrder (blocksX blocksY : Nat) : List (Nat × Nat) :=
  (List.range blocksX).flatMap fun bx => (List.range blocksY).map fun bY => (bx, bY)

/-- The host's compression run (44_pipeline_host.md R137). -/
def compressionRun (w h : BitVec 16) : List HostAct :=
  issue (setDim w h ++ (blockOrder (blocksOf w.toNat) (blocksOf h.toNat)).flatMap fun b =>
    enc3 (BitVec.ofNat 13 b.1) (BitVec.ofNat 13 b.2))

/-- The host reads S through the window, cell by cell (44_pipeline_host.md R134, R138). -/
def readSamples : List HostAct := (List.finRange 64).map fun k => .bufrd .s k

/-- The host's decompression run (44_pipeline_host.md R138). -/
def decompressionRun (blocksX blocksY : Nat) : List HostAct :=
  (blockOrder blocksX blocksY).flatMap fun _ =>
    (issue decBlk ++ readSamples) ++ (issue decBlk ++ readSamples) ++ (issue decBlk ++ readSamples)

end Sys2Proof.Machine
end

