-- ==== Sys2Proof/Safety.lean ====
section
/-!
DEFINITION. The terms the claims use: the end of a run (70_reset_and_hazards.md R181), the machine's invariant, and the
real-valued transforms of 41_transform.md R81, R85 and R88 that the integer arithmetic of the model is measured against.
-/

namespace Sys2Proof.Machine

/-! ### The end of a run (70_reset_and_hazards.md R181) -/

/-- Does an interaction still bring a command word? -/
def HostAct.issuesWord : HostAct → Bool
  | .cmd _ => true
  | .cmdCut _ _ => true
  | .cmdRacing _ _ => true
  | .csrrd _ => false
  | .bufrd _ _ => false
  | .bufwr _ _ => false
  | .feed _ => false
  | .raiseEos => false
  | .drain _ => false
  | .planeWrite _ _ _ => false
  | .rst => false
  | .rstRefill _ => false

/-- Every word has been taken and the last command has ended. -/
def State.runOver (s : State) : Bool := s.host.all (fun a => !a.issuesWord) && !s.busy

/-- The run is over and complete: FC is 0. -/
def State.runComplete (s : State) : Bool := s.runOver && !s.halted

/-- The run is over and faulted. -/
def State.runFaulted (s : State) : Bool := s.runOver && s.halted

/-! ### Situations the claims speak of -/

/-- The CORE executes a word now, and the host writes this one to `CMD` next (30_encoding.md R50). -/
def State.takes (s : State) (w : Word) (acts : List HostAct) : Prop := s.ready = true ∧ s.host = .cmd w :: acts

/-- The IO_ERROR oracle answers none of the next `n` accesses with an error (20_memory.md R47). -/
def State.quiet (s : State) (n : Nat) : Prop := true ∉ s.ioAnswers.take n

/-- The interactions that assert `rst` (70_reset_and_hazards.md R170, R171). -/
def HostAct.resets : HostAct → Bool
  | .rst => true
  | .rstRefill _ => true
  | .cmdCut _ _ => true
  | .cmd _ => false
  | .cmdRacing _ _ => false
  | .csrrd _ => false
  | .bufrd _ _ => false
  | .bufwr _ _ => false
  | .feed _ => false
  | .raiseEos => false
  | .drain _ => false
  | .planeWrite _ _ _ => false

/-- The host's next interaction asserts `rst`, on its own or inside a command. -/
def State.resetNext (s : State) : Bool := s.host.head?.any HostAct.resets

/-- The commands that read one buffer and write another (10_state.md R18). -/
def blockCommands : List Instr := [.lsh, .fdct, .qnt, .zzs, .zzu, .dqt, .idct, .uls]

/-! ### Symbol streams (43_rle.md R110 to R113) -/

/-- Symbols, as (value byte, count byte), laid out in a stream (43_rle.md R112). -/
def layOut (syms : List (Byte × Byte)) : List Byte := syms.flatMap fun x => [x.1, x.2]

/-- The cells a list of symbols stands for (43_rle.md R110). -/
def expansion (syms : List (Byte × Byte)) : List Byte := syms.flatMap fun x => List.replicate x.2.toNat x.1

/-- Symbols an RLD takes as data: no count is 0 and they fill at most 64 cells (43_rle.md R110, R115). -/
def dataSymbols (syms : List (Byte × Byte)) : Prop := (∀ x ∈ syms, x.2 ≠ 0x00#8) ∧ (expansion syms).length ≤ 64

/-! ### The invariant of the machine -/

/-- The nine commands that read a buffer (60_exceptions.md R150). -/
def sourceCommands : List Instr := [.lsh, .fdct, .qnt, .zzs, .rle, .zzu, .dqt, .idct, .uls]

/-- FC and FCMD agree: no fault goes with FCMD 0 (10_state.md R24), and a recorded fault with the word of a command that can
raise it (60_exceptions.md R150). -/
def recordExplained (s : State) : Prop :=
  match s.fc with
  | none => s.fcmd = 0#32
  | some .illegal => ∃ why, decode s.fcmd = .illegal why
  | some .noSrc => ∃ i ∈ sourceCommands, s.fcmd = encode i
  | some .trunc => s.fcmd = encode .rld
  | some .overrun => s.fcmd = encode .rld
  | some .badSym => s.fcmd = encode .rld
  | some .io => s.fcmd = encode .rle ∨ s.fcmd = encode .rld
      ∨ ∃ p bx bY, p ≠ 3#2 ∧ s.fcmd = encode (.bpx p bx bY)

/-- The plane memories are in canonical form. -/
def planesWf (s : State) : Prop := MemoryWf s.planeY ∧ MemoryWf s.planeCr ∧ MemoryWf s.planeCb

/-- An RLD waits only in a CORE that is not halted, with at most 64 cells filled (43_rle.md R115, 60_exceptions.md R164). -/
def holdLegal (s : State) : Prop := ∀ h, s.hold = some h → s.fc = none ∧ h.filled.length ≤ 64

/-- The invariant that every step keeps. -/
def Invariant (s : State) : Prop := recordExplained s ∧ holdLegal s ∧ planesWf s

/-! ### The transforms over the reals -/

/-- `RHA(v)`: round to nearest, ties away from zero (00_scope.md R8). -/
noncomputable def rha (v : ℝ) : ℤ := (SignType.sign v : ℤ) * ⌊|v| + 1 / 2⌋

/-- `c(k)`: `sqrt(1/8)` for `k = 0`, else `sqrt(2/8)` (41_transform.md R81). -/
noncomputable def dctScale (k : ℕ) : ℝ := if k = 0 then √(1 / 8) else √(2 / 8)

/-- `cos((2t+1)*k*pi/16)` (41_transform.md R81). -/
noncomputable def dctBasis (t k : ℕ) : ℝ := Real.cos ((2 * (t : ℝ) + 1) * (k : ℝ) * Real.pi / 16)

/-- The real value of the forward transform at `(i, j)` (41_transform.md R85). -/
noncomputable def fdctReal (l : Block 8) (i j : ℕ) : ℝ :=
  dctScale i * dctScale j * ∑ y ∈ Finset.range 8, ∑ x ∈ Finset.range 8,
    ((cell l (8 * y + x)).toInt : ℝ) * dctBasis y i * dctBasis x j

/-- The real value of the inverse transform at `(y, x)` (41_transform.md R88). -/
noncomputable def idctReal (c : Block 16) (y x : ℕ) : ℝ :=
  ∑ i ∈ Finset.range 8, ∑ j ∈ Finset.range 8,
    dctScale i * dctScale j * ((cell c (8 * i + j)).toInt : ℝ) * dctBasis y i * dctBasis x j

end Sys2Proof.Machine
end

