-- ==== Sys2Proof/Certificates/Slice0/Obligations.lean ====
section
/-!
DEFINITION. The statements for the provers. Each docstring says which rule of spec/ it formalises.
-/

open Sys2Proof Sys2Proof.Machine

/-! ### Encoding (30_encoding.md) -/

/-- Decoding the word of a well-formed instruction gives it back, every operand at every value. -/
def Obligations.DecodeOfEncode : Prop := ∀ i : Instr, i.wf = true → decode (encode i) = .instr i

/-- A word that decodes is the word of a well-formed instruction: no bit is dropped or ignored. -/
def Obligations.EncodeOfDecode : Prop := ∀ (w : Word) (i : Instr), decode w = .instr i → i.wf = true ∧ encode i = w

/-- 30_encoding.md R55: a word is the command of a row if and only if it fits the row's mask and match (with `p != 3` for
BPX); the opcodes 0xE and 0xF are reserved. -/
def Obligations.OpcodeMapDecidesTheWord : Prop :=
  (∀ (w : Word), ∀ row ∈ opcodeMap, row.fits w = true ↔ ∃ i, decode w = .instr i ∧ i.mnemonic = row.mnemonic)
    ∧ (∀ w : Word, 14 ≤ (bitField w 28 4).toNat → decode w = .illegal .reservedOpcode)

/-- 30_encoding.md R56, R57, R58 and 60_exceptions.md R151: which words are illegal, and that an illegal word taken by the
CORE writes the fault record and nothing else (`hold` is none before and after). -/
def Obligations.IllegalWordsFault : Prop :=
  (∀ w : Word, (∃ why, decode w = .illegal why) ↔
    ((bitField w 28 4).toNat ∈ [14, 15])
      ∨ ((bitField w 28 4).toNat ∈ [0, 4, 5, 6, 7, 8, 9, 10, 11, 12, 13] ∧ bitField w 0 28 ≠ 0#28)
      ∨ ((bitField w 28 4).toNat ∈ [1, 2] ∧ bitField w 16 12 ≠ 0#12)
      ∨ ((bitField w 28 4).toNat = 3 ∧ bitField w 26 2 = 3#2))
    ∧ (∀ (s : State) (w : Word) (acts : List HostAct) (why : DecodeError), s.takes w acts → decode w = .illegal why →
        step s = .next { s with host := acts, fc := some .illegal, fcmd := w })
    ∧ decode 0x40000001#32 = .illegal .reservedBits ∧ decode 0x3C000000#32 = .illegal .reservedPlane

/-- When the word taken from `CMD` decodes to an instruction, the step is `exec` of it, the word gone from the host's list;
the word placed by `withFetchWord` is the one the next step runs; and an RLD that waits goes on as soon as it can, before the
host's next interaction unless that asserts `rst` (the model's order of steps, assumption log 7). -/
def Obligations.StepRunsTheDecodedInstruction : Prop :=
  (∀ (s : State) (w : Word) (i : Instr) (acts : List HostAct), s.takes w acts → decode w = .instr i →
      step s = exec i { s with host := acts })
    ∧ (∀ (s : State) (nbits w : Nat) (i : Instr), decodeTableWord nbits w = some i →
        step (s.withFetchWord nbits w) = exec i { s with hold := none })
    ∧ (∀ (h : RldHold) (s : State), s.hold = some h → s.fc = none → (s.istr ≠ [] ∨ s.eos = true) →
        s.rstNext = false → step s = .next (runRld h s))

/-- Words written out from 30_encoding.md R61 and the opcode map decode to the commands they stand for. -/
def Obligations.WordsOfTheSpecDecode : Prop :=
  decode 0x10000010#32 = .instr (.cfgw 16#16) ∧ decode 0x20000009#32 = .instr (.cfgh 9#16)
    ∧ decode 0x30002001#32 = .instr (.bpx 0#2 1#13 1#13) ∧ decode 0x3BFFFFFF#32 = .instr (.bpx 2#2 8191#13 8191#13)
    ∧ decode 0x34000001#32 = .instr (.bpx 1#2 1#13 0#13) ∧ decode 0x90000000#32 = .instr .rld
    ∧ decode 0x70000000#32 = .instr .zzs ∧ decode 0xC0000000#32 = .instr .idct

/-! ### Reset (10_state.md R28, 70_reset_and_hazards.md R170 and R171) -/

/-- 70_reset_and_hazards.md R170: `rst` at any time, also while a command runs or waits and while HALT is 1, gives STATUS,
FCMD, PW and PH 0, nothing valid, no command executing, the CORE ready; and so does `State.reset`. -/
def Obligations.ResetAtAnyTime : Prop :=
  (∀ (s : State) (acts : List HostAct),
      (s.host = .rst :: acts ∨ (∃ bytes, s.host = .rstRefill bytes :: acts) ∨ (s.busy = false ∧ ∃ w k, s.host = .cmdCut w k :: acts)) →
      ∃ t, step s = .next t ∧ statusWord t = 0#32 ∧ t.fc = none ∧ t.halted = false ∧ t.busy = false ∧ t.fcmd = 0#32
        ∧ t.pw = 0#16 ∧ t.ph = 0#16 ∧ (∀ b, validBit t b = false) ∧ t.hold = none ∧ t.ready = true ∧ t.host = acts)
    ∧ statusWord State.reset = 0#32 ∧ State.reset.fcmd = 0#32 ∧ State.reset.pw = 0#16 ∧ State.reset.ph = 0#16
    ∧ (∀ b, validBit State.reset b = false) ∧ State.reset.ready = true

/-- 70_reset_and_hazards.md section 1: `rst` leaves ISTR, OSTR and the planes; the refill that the host makes after it gives
ISTR new contents and, by the model's choice, lowers `eos` (assumption log 16); a reset inside an RLE leaves in OSTR the bytes
already appended; one inside an RLD leaves ISTR short of the bytes already consumed, which are those that an RLD offered the
first `k` bytes alone consumes: all `k` if it then still waits for more. That the reset falls after `k` one-byte accesses is
the model's way to say when it happens (assumption log 12). -/
def Obligations.ResetLeavesTheStreams : Prop :=
  (∀ (s t : State) (acts : List HostAct), s.host = .rst :: acts → step s = .next t →
      t.istr = s.istr ∧ t.eos = s.eos ∧ t.ostr = s.ostr
        ∧ ∀ p a, readByte (planeOf t p) a = readByte (planeOf s p) a)
    ∧ (∀ (s t : State) (bytes : List Byte) (acts : List HostAct), s.host = .rstRefill bytes :: acts → step s = .next t →
      t.istr = bytes ∧ t.eos = false ∧ t.ostr = s.ostr
        ∧ ∀ p a, readByte (planeOf t p) a = readByte (planeOf s p) a)
    ∧ (∀ (s : State) (k : Nat) (acts : List HostAct), s.ready = true → s.vZ = true → s.quiet k →
        s.host = .cmdCut (encode .rle) k :: acts →
        ∃ t, step s = .next t ∧ t.ostr = s.ostr ++ (symbolStream (cells s.bufZ)).take k ∧ t.istr = s.istr
          ∧ t.vZ = false ∧ t.ready = true)
    ∧ (∀ (s u : State) (k : Nat) (acts : List HostAct), s.ready = true → s.host = .cmdCut (encode .rld) k :: acts →
        exec .rld { s with istr := s.istr.take k, eos := false } = .next u →
        ∃ t, step s = .next t ∧ t.istr = u.istr ++ s.istr.drop k ∧ (u.busy = true → t.istr = s.istr.drop k)
          ∧ t.ostr = s.ostr ∧ t.vZ = false ∧ t.ready = true)

/-! ### The invariant -/

/-- The invariant holds right after reset. -/
def Obligations.InvariantAtReset : Prop := Invariant State.reset

/-- Every step keeps the invariant: FC and FCMD explain each other, an RLD waits only in a CORE that is not halted with at
most 64 cells filled, the planes are in canonical form. -/
def Obligations.StepKeepsInvariant : Prop := ∀ s t : State, Invariant s → step s = .next t → Invariant t

/-! ### Configuration commands and the block partitioner (40_config_partitioner.md) -/

/-- 40_config_partitioner.md R70: NOP is the all-zero word, changes nothing, is discarded while HALT is 1, and any reserved
bit in it is illegal. -/
def Obligations.NopChangesNothing : Prop :=
  encode .nop = 0x00000000#32 ∧ decode 0x00000000#32 = .instr .nop
    ∧ (∀ s : State, exec .nop s = .next s)
    ∧ (∀ (s : State) (acts : List HostAct), s.halted = true → s.host = .cmd 0x00000000#32 :: acts →
        step s = .next { s with host := acts })
    ∧ (∀ w : Word, bitField w 28 4 = 0x0#4 → bitField w 0 28 ≠ 0#28 → decode w = .illegal .reservedBits)

/-- CFGW writes PW and CFGH writes PH, and nothing else, with any immediate (40_config_partitioner.md section 2). -/
def Obligations.ConfigCommandsSetThePlaneSize : Prop :=
  ∀ (s : State) (imm16 : BitVec 16), s.ready = true →
    exec (.cfgw imm16) s = .next { s with pw := imm16 } ∧ exec (.cfgh imm16) s = .next { s with ph := imm16 }

/-- BPX copies the in-range samples of the block, row-major with stride PW, and fills the rest with 0
(40_config_partitioner.md section 3); it completes for every legal plane and every position. -/
def Obligations.BpxCutsTheBlock : Prop :=
  ∀ (s : State) (p : BitVec 2) (plane : PlaneId) (bx bY : BitVec 13), s.ready = true → planeOfOperand p = some plane →
    s.quiet (planeReads s bx bY) →
    ∃ t, exec (.bpx p bx bY) s = .next t
      ∧ t = { s with bufS := t.bufS, vS := true, ioAnswers := s.ioAnswers.drop (planeReads s bx bY) }
      ∧ ∀ r c, r < 8 → c < 8 → cell t.bufS (8 * r + c) =
          if 8 * bY.toNat + r < s.ph.toNat ∧ 8 * bx.toNat + c < s.pw.toNat then
            memRead s plane ((8 * bY.toNat + r) * s.pw.toNat + (8 * bx.toNat + c))
          else 0#8

/-- A BPX of the reserved plane is an illegal command (30_encoding.md section 4). The decoder never gives this instruction;
that `exec`, handed it, does what the CORE does with the word is the model's choice (assumption log 15, DEDUCED). -/
def Obligations.BpxOfTheReservedPlaneIsIllegal : Prop :=
  ∀ (s : State) (bx bY : BitVec 13), s.ready = true →
    exec (.bpx 3#2 bx bY) s = .next { s with fc := some .illegal, fcmd := encode (.bpx 3#2 bx bY) }

/-- 20_memory.md section 2: every address BPX reads is below PW*PH and fits 32 bits, and the block does not depend on any
other byte of the plane, nor on the other planes. -/
def Obligations.BpxReadsOnlyInsideThePlane : Prop :=
  (∀ (s : State) (bx bY : BitVec 13) (k : Nat), inPlane s bx bY k = true →
      planeAddress s bx bY k < s.pw.toNat * s.ph.toNat ∧ planeAddress s bx bY k < 2 ^ 32)
    ∧ (∀ (s u s' u' : State) (p : BitVec 2) (plane : PlaneId) (bx bY : BitVec 13), planeOfOperand p = some plane →
        s.ready = true → u.ready = true → s.quiet 64 → u.quiet 64 → s.pw = u.pw → s.ph = u.ph →
        (∀ a, a < s.pw.toNat * s.ph.toNat → readByte (planeOf s plane) a = readByte (planeOf u plane) a) →
        exec (.bpx p bx bY) s = .next s' → exec (.bpx p bx bY) u = .next u' → s'.bufS = u'.bufS)

/-! ### The transform pipeline (41_transform.md) -/

/-- LSH: each cell of L is the sample less 128, exactly (41_transform.md section 3). -/
def Obligations.LshSubtracts128 : Prop :=
  ∀ s : State, s.ready = true → s.vS = true →
    ∃ t, exec .lsh s = .next t ∧ t = { s with bufL := t.bufL, vL := true }
      ∧ ∀ k, k < 64 → (cell t.bufL k).toInt = ((cell s.bufS k).toNat : Int) - 128

/-- FDCT: each coefficient is the real-valued forward transform, rounded once, ties away from zero
(41_transform.md sections 2 and 4). -/
def Obligations.FdctRoundsTheRealTransform : Prop :=
  ∀ s : State, s.ready = true → s.vL = true →
    ∃ t, exec .fdct s = .next t ∧ t = { s with bufC := t.bufC, vC := true }
      ∧ ∀ i j, i < 8 → j < 8 → (cell t.bufC (8 * i + j)).toInt = rha (fdctReal s.bufL i j)

/-- QNT: each cell is the exact quotient by the table entry, rounded half away from zero, narrowed by wrapping
(41_transform.md section 5). -/
def Obligations.QntDividesRoundsAndWraps : Prop :=
  ∀ s : State, s.ready = true → s.vC = true →
    ∃ t, exec .qnt s = .next t ∧ t = { s with bufQ := t.bufQ, vQ := true }
      ∧ ∀ k, k < 64 → cell t.bufQ k = BitVec.ofInt 8 (rha (((cell s.bufC k).toInt : ℝ) / (qTable k : ℝ)))

/-- DQT: each cell is the product with the table entry, exactly (41_transform.md section 6). -/
def Obligations.DqtMultiplies : Prop :=
  ∀ s : State, s.ready = true → s.vQ = true →
    ∃ t, exec .dqt s = .next t ∧ t = { s with bufC := t.bufC, vC := true }
      ∧ ∀ k, k < 64 → (cell t.bufC k).toInt = (cell s.bufQ k).toInt * (qTable k : Int)

/-- IDCT: each cell is the real-valued inverse transform, rounded once, ties away from zero
(41_transform.md sections 2 and 7). -/
def Obligations.IdctRoundsTheRealTransform : Prop :=
  ∀ s : State, s.ready = true → s.vC = true →
    ∃ t, exec .idct s = .next t ∧ t = { s with bufR := t.bufR, vR := true }
      ∧ ∀ y x, y < 8 → x < 8 → (cell t.bufR (8 * y + x)).toInt = rha (idctReal s.bufC y x)

/-- ULS: each sample is the cell plus 128 modulo 256 (41_transform.md section 8). -/
def Obligations.UlsAdds128AndWraps : Prop :=
  ∀ s : State, s.ready = true → s.vR = true →
    ∃ t, exec .uls s = .next t ∧ t = { s with bufS := t.bufS, vS := true }
      ∧ ∀ k, k < 64 → ((cell t.bufS k).toNat : Int) = ((cell s.bufR k).toInt + 128) % 256

/-- The integer formula the quantizer rounds with is RHA of the exact quotient, and the sign rule is symmetric
(41_transform.md sections 5 and 9). -/
def Obligations.IntegerRoundingIsRha : Prop :=
  ∀ (a : Int) (t : Nat), 0 < t → rhaDiv a t = rha ((a : ℝ) / (t : ℝ)) ∧ rhaDiv (-a) t = -rhaDiv a t

/-- FDCT of any block stays within -1024 .. 1024 (41_transform.md section 9). -/
def Obligations.FdctStaysWithin1024 : Prop :=
  ∀ s t : State, s.ready = true → s.vL = true → exec .fdct s = .next t →
    ∀ k, k < 64 → -1024 ≤ (cell t.bufC k).toInt ∧ (cell t.bufC k).toInt ≤ 1024

/-- A uniform block has one coefficient, eight times its value (41_transform.md section 4). -/
def Obligations.UniformBlockHasOneCoefficient : Prop :=
  ∀ (s : State) (v : BitVec 8), s.ready = true → s.vL = true → (∀ k, k < 64 → cell s.bufL k = v) →
    ∃ t, exec .fdct s = .next t ∧ (cell t.bufC 0).toInt = 8 * v.toInt ∧ ∀ k, 0 < k → k < 64 → cell t.bufC k = 0#16

/-- A block with only the coefficient `(0, 0)` comes back uniform, an eighth of it rounded (41_transform.md section 7). -/
def Obligations.LoneDcGivesAUniformBlock : Prop :=
  ∀ s : State, s.ready = true → s.vC = true → (∀ k, 0 < k → k < 64 → cell s.bufC k = 0#16) →
    ∃ t, exec .idct s = .next t ∧ ∀ k, k < 64 → (cell t.bufR k).toInt = rhaDiv (cell s.bufC 0).toInt 8

/-- The transforms of a uniform block of even samples give it back exactly (41_transform.md section 9, round trip). -/
def Obligations.EvenUniformBlockComesBack : Prop :=
  ∀ (b : Block 8) (v : BitVec 8), v.toNat % 2 = 0 → (∀ k, k < 64 → cell b k = v) →
    unlevelShift (inverseDct (dequantize (quantize (forwardDct (levelShift b))))) = b

/-! ### The zigzag scanner (42_zigzag.md) -/

/-- ZZS: position k of Z is the cell `ZZ[k]` of Q (42_zigzag.md section 2). -/
def Obligations.ZzsScans : Prop :=
  ∀ s : State, s.ready = true → s.vQ = true →
    ∃ t, exec .zzs s = .next t ∧ t = { s with bufZ := t.bufZ, vZ := true }
      ∧ ∀ k, k < 64 → cell t.bufZ k = cell s.bufQ (zz k)

/-- ZZU: the cell `ZZ[k]` of Q is position k of Z (42_zigzag.md section 3). -/
def Obligations.ZzuUnscans : Prop :=
  ∀ s : State, s.ready = true → s.vZ = true →
    ∃ t, exec .zzu s = .next t ∧ t = { s with bufQ := t.bufQ, vQ := true }
      ∧ ∀ k, k < 64 → cell t.bufQ (zz k) = cell s.bufZ k

/-- 42_zigzag.md R106: ZZS then ZZU returns Q, ZZU then ZZS returns Z, and neither faults on its data. -/
def Obligations.ZigzagRoundTrip : Prop :=
  (∀ s : State, s.ready = true → s.vQ = true →
      ∃ t u, exec .zzs s = .next t ∧ exec .zzu t = .next u ∧ u.bufQ = s.bufQ ∧ t.fc = none ∧ u.fc = none)
    ∧ (∀ s : State, s.ready = true → s.vZ = true →
      ∃ t u, exec .zzu s = .next t ∧ exec .zzs t = .next u ∧ u.bufZ = s.bufZ ∧ t.fc = none ∧ u.fc = none)

/-- 42_zigzag.md R100: scan is a fixed permutation of the cell positions, the anti-diagonal sweep; unscan is its inverse; the
multiset of the values is the same before and after. -/
def Obligations.ZigzagOnlyMovesValues : Prop :=
  (∀ b : Block 8, (cells (zigzagScan b)).Perm (cells b) ∧ (cells (zigzagUnscan b)).Perm (cells b)
      ∧ zigzagUnscan (zigzagScan b) = b ∧ zigzagScan (zigzagUnscan b) = b)
    ∧ zzTable.Perm (List.range 64) ∧ zzTable = zzGenerated

/-! ### The run-length codec (43_rle.md) -/

/-- 43_rle.md R113: RLE appends data symbols and one sentinel; the symbols expand to Z, their counts sum to 64, each count is
1 to 64, neighbours differ in value. Nothing else of the machine changes but the oracle's answers used up. -/
def Obligations.RleWritesMaximalRuns : Prop :=
  ∀ s : State, s.ready = true → s.vZ = true → s.quiet 130 →
    ∃ (t : State) (syms : List (Byte × Byte)), exec .rle s = .next t
      ∧ t = { s with ostr := s.ostr ++ (layOut syms ++ [0xFF#8, 0x00#8])
                     ioAnswers := s.ioAnswers.drop (layOut syms ++ [0xFF#8, 0x00#8]).length }
      ∧ expansion syms = cells s.bufZ
      ∧ (syms.map fun x => x.2.toNat).sum = 64
      ∧ (∀ x ∈ syms, 1 ≤ x.2.toNat ∧ x.2.toNat ≤ 64)
      ∧ syms.IsChain (fun x y => x.1 ≠ y.1)

/-- 43_rle.md R118: a stream RLE produces has 2 bytes per run and 2 more, at least 4 and at most 130; an RLD that completes
consumes a prefix of at least 2 and at most 130 bytes. -/
def Obligations.SymbolStreamLengths : Prop :=
  (∀ b : Block 8, (symbolStream (cells b)).length = 2 * (runsOf (cells b)).length + 2
      ∧ 4 ≤ (symbolStream (cells b)).length ∧ (symbolStream (cells b)).length ≤ 130)
    ∧ (∀ s t : State, s.ready = true → exec .rld s = .next t → t.fc = none → t.hold = none →
        ∃ n, t.istr = s.istr.drop n ∧ 2 ≤ n ∧ n ≤ 130 ∧ n ≤ s.istr.length)

/-- 20_memory.md R37: RLD consumes exactly its symbols and the sentinel, whatever follows stays for the next RLD, and no
other command moves the position in ISTR. Z is the expansion, padded with 0 (43_rle.md section 3). -/
def Obligations.RldStopsAtTheSentinel : Prop :=
  (∀ (s : State) (syms : List (Byte × Byte)) (rest : List Byte), s.ready = true → dataSymbols syms →
      s.istr = layOut syms ++ [0xFF#8, 0x00#8] ++ rest → s.quiet (layOut syms ++ [0xFF#8, 0x00#8]).length →
      ∃ t, exec .rld s = .next t
        ∧ t = { s with istr := rest, bufZ := t.bufZ, vZ := true
                       ioAnswers := s.ioAnswers.drop (layOut syms ++ [0xFF#8, 0x00#8]).length }
        ∧ ∀ k, k < 64 → cell t.bufZ k = (expansion syms).getD k 0#8)
    ∧ (∀ (i : Instr) (s t : State), i ≠ .rld → exec i s = .next t → t.istr = s.istr)

/-- A stream that ends before its sentinel, a zero count on another value than 0xFF, and a count that overruns 64 cells
fault F_TRUNC, F_BADSYM and F_OVERRUN: V_Z is cleared, the bytes up to the offending symbol are consumed, and every other
field is as it was, but for Z, whose cells are free values (43_rle.md section 3, 60_exceptions.md section 4). -/
def Obligations.RldFaultsOnMalformedStreams : Prop :=
  ∀ (s : State) (syms : List (Byte × Byte)) (f : FaultCode) (bad rest : List Byte), s.ready = true → dataSymbols syms →
    s.istr = layOut syms ++ bad ++ rest → s.quiet (layOut syms ++ bad).length →
    ((f = .trunc ∧ bad.length ≤ 1 ∧ rest = [] ∧ s.eos = true)
      ∨ (f = .badSym ∧ ∃ v, bad = [v, 0x00#8] ∧ v ≠ 0xFF#8)
      ∨ (f = .overrun ∧ ∃ v n, bad = [v, n] ∧ n ≠ 0x00#8 ∧ 64 < (expansion syms).length + n.toNat)) →
    ∃ t, exec .rld s = .next t
      ∧ t = { s with fc := some f, fcmd := 0x90000000#32, istr := rest, vZ := false, bufZ := t.bufZ, free := t.free
                     ioAnswers := s.ioAnswers.drop (layOut syms ++ bad).length }

/-- 20_memory.md R35: an RLD that finds ISTR empty before `eos`, at its first byte or after some symbols, waits, and BUSY is
1; while it waits nothing but a byte in ISTR, `eos` or `rst` ends the wait, and the CORE's own state stays; a byte or `eos`
lets it go on; with `eos` raised no wait occurs. -/
def Obligations.RldWaitsForTheHost : Prop :=
  (∀ (s : State) (syms : List (Byte × Byte)) (value : Option Byte), s.ready = true → dataSymbols syms →
      s.istr = layOut syms ++ value.toList → s.eos = false → s.quiet s.istr.length →
      ∃ t, exec .rld s = .next t ∧ t.busy = true
        ∧ t = { s with istr := [], hold := some ⟨expansion syms, value⟩, ioAnswers := s.ioAnswers.drop s.istr.length })
    ∧ (∀ s t : State, s.busy = true → s.istr = [] → s.eos = false → s.resetNext = false → step s = .next t →
        t.hold = s.hold ∧ t.busy = true ∧ t.bufS = s.bufS ∧ t.bufL = s.bufL ∧ t.bufC = s.bufC ∧ t.bufQ = s.bufQ
          ∧ t.bufZ = s.bufZ ∧ t.bufR = s.bufR ∧ (∀ b, validBit t b = validBit s b) ∧ t.fc = s.fc ∧ t.fcmd = s.fcmd
          ∧ t.pw = s.pw ∧ t.ph = s.ph)
    ∧ (∀ (h : RldHold) (s : State), s.hold = some h → s.fc = none → (s.istr ≠ [] ∨ s.eos = true) → s.host = [] →
        step s = .next (runRld h s))
    ∧ (∀ s t : State, s.ready = true → s.eos = true → exec .rld s = .next t → t.busy = false)

/-- Waiting changes no result: an RLD that waited after the bytes `a` and goes on with the bytes `b` ends as one that found
`a ++ b` at once (20_memory.md section 3, 43_rle.md section 3). -/
def Obligations.ResumedRldIsTheWholeRld : Prop :=
  ∀ (s t : State) (a b : List Byte) (e : Bool), s.ready = true →
    exec .rld { s with istr := a, eos := false } = .next t → t.busy = true →
    ∃ h, t.hold = some h
      ∧ exec .rld { s with istr := a ++ b, eos := e } = .next (runRld h { t with istr := b, eos := e })

/-- 43_rle.md R117: the bytes one RLE appends, given to ISTR, make an RLD complete without a fault, consume exactly those
bytes and write the Z that RLE read. The converse does not hold: some RLD completes on a stream that RLE of its Z would not
write. -/
def Obligations.RunLengthRoundTrip : Prop :=
  (∀ s t u : State, s.ready = true → s.vZ = true → s.quiet 130 → exec .rle s = .next t → u.ready = true →
      ∀ (bytes rest : List Byte), t.ostr = s.ostr ++ bytes → u.istr = bytes ++ rest → u.quiet 130 →
      ∃ v, exec .rld u = .next v ∧ v.bufZ = s.bufZ ∧ v.vZ = true ∧ v.istr = rest ∧ v.fc = none ∧ v.hold = none)
    ∧ (∃ u v : State, u.ready = true ∧ exec .rld u = .next v ∧ v.hold = none ∧ v.fc = none ∧ v.vZ = true ∧ v.istr = []
        ∧ symbolStream (cells v.bufZ) ≠ u.istr)

/-- 20_memory.md R39: OSTR only grows at its end, and RLE is the only command that appends; what RLE appends is a prefix of
Z's symbol stream, in order. -/
def Obligations.OnlyRleAppendsToOstr : Prop :=
  ∀ (i : Instr) (s t : State), exec i s = .next t →
    ∃ bytes, t.ostr = s.ostr ++ bytes ∧ (i ≠ .rle → bytes = []) ∧ bytes <+: symbolStream (cells s.bufZ)

/-! ### Faults (60_exceptions.md) -/

/-- 60_exceptions.md R152: a command whose source buffer is not valid faults F_NOSRC and changes nothing but the record. -/
def Obligations.MissingSourceFaults : Prop :=
  ∀ (i : Instr) (b : BufId) (s : State), sourceOf i = some b → s.ready = true → validBit s b = false →
    exec i s = .next { s with fc := some .noSrc, fcmd := encode i }

/-- 60_exceptions.md section 1: which commands raise which fault, and that FCMD holds the faulting command's word. -/
def Obligations.WhichCommandRaisesWhich : Prop :=
  ∀ (i : Instr) (s t : State) (f : FaultCode), s.ready = true → exec i s = .next t → t.fc = some f →
    t.fcmd = encode i ∧ t.halted = true
      ∧ ((f = .illegal ∧ ∃ bx bY, i = .bpx 3#2 bx bY)
        ∨ (f = .noSrc ∧ ∃ b, sourceOf i = some b ∧ validBit s b = false)
        ∨ (f ∈ [FaultCode.trunc, .overrun, .badSym] ∧ i = .rld)
        ∨ (f = .io ∧ (i = .rle ∨ i = .rld ∨ ∃ p bx bY, i = .bpx p bx bY)))

/-- 60_exceptions.md R157: what an access answered with an error does to a BPX, an RLE and an RLD; with the default oracle no
command raises F_IO. For RLD the byte of the failed access may be consumed or not. -/
def Obligations.IoErrorsFault : Prop :=
  (∀ (s : State) (p : BitVec 2) (bx bY : BitVec 13), s.ready = true → p ≠ 3#2 →
      true ∈ s.ioAnswers.take (planeReads s bx bY) →
      ∃ t, exec (.bpx p bx bY) s = .next t ∧ t.fc = some .io ∧ t.fcmd = encode (.bpx p bx bY) ∧ t.bufS = s.bufS
        ∧ t.vS = s.vS)
    ∧ (∀ (s : State) (n : Nat) (answers : List Bool), s.ready = true → s.vZ = true →
        s.ioAnswers = List.replicate n false ++ true :: answers → n < (symbolStream (cells s.bufZ)).length →
        exec .rle s = .next { s with ostr := s.ostr ++ (symbolStream (cells s.bufZ)).take n
                                     ioAnswers := answers, fc := some .io, fcmd := encode .rle })
    ∧ (∀ (s u : State) (n : Nat) (answers : List Bool), s.ready = true → n < s.istr.length →
        s.ioAnswers = List.replicate n false ++ true :: answers →
        exec .rld { s with istr := s.istr.take n, eos := false, ioAnswers := [] } = .next u → u.busy = true →
        ∃ t, exec .rld s = .next t ∧ t.fc = some .io ∧ t.fcmd = encode .rld ∧ t.vZ = false
          ∧ (t.istr = s.istr.drop n ∨ t.istr = s.istr.drop (n + 1)))
    ∧ (∀ (i : Instr) (s t : State), s.ioAnswers = [] → s.fc ≠ some .io → exec i s = .next t → t.fc ≠ some .io)

/-- 60_exceptions.md R164: a halted CORE takes and discards every word, ignores BUFWR, answers BUFRD and CSRRD, and keeps FC
and FCMD through every interaction that does not assert `rst`; after `rst` no buffer is valid. -/
def Obligations.HaltedCoreDiscards : Prop :=
  (∀ (s : State) (w : Word) (acts : List HostAct), s.halted = true → s.host = .cmd w :: acts →
      step s = .next { s with host := acts })
    ∧ (∀ (s : State) (b : BufId) (v : Vector Word 64) (acts : List HostAct), s.halted = true →
        s.host = .bufwr b v :: acts → step s = .next { s with host := acts })
    ∧ (∀ (s : State) (b : BufId) (k : Fin 64) (acts : List HostAct), s.halted = true → s.host = .bufrd b k :: acts →
        validBit s b = true → step s = .next { s with host := acts, rsp := s.rsp ++ [windowCell s b k] })
    ∧ (∀ (s : State) (n : Nat) (acts : List HostAct), s.halted = true → s.host = .csrrd n :: acts →
        step s = .next { s with host := acts, rsp := s.rsp ++ [csrValue s n] })
    ∧ (∀ s t : State, s.halted = true → s.resetNext = false → step s = .next t → t.fc = s.fc ∧ t.fcmd = s.fcmd)
    ∧ (∀ s t : State, s.halted = true → s.resetNext = true → step s = .next t →
        t.fc = none ∧ t.fcmd = 0#32 ∧ ∀ b, validBit t b = false)

/-- 60_exceptions.md R165: between two resets FC is written at most once; a recorded fault stays through any number of
steps. -/
def Obligations.FirstFaultStays : Prop :=
  ∀ (n : Nat) (s t : State) (f : FaultCode), s.host.all (fun a => !a.resets) = true → s.fc = some f →
    Host.Core.run Sys2Proof.core n s = .next t → t.fc = some f ∧ t.fcmd = s.fcmd

/-- 10_state.md R24: FCMD is CSR 1; it is 0 while FC is 0 (`recordExplained`, kept by every step); it changes only together
with FC, from no fault to a fault, or by reset; and a command that faults leaves its own word there. -/
def Obligations.FcmdHoldsTheFaultingWord : Prop :=
  (∀ s : State, csrValue s 1 = s.fcmd)
    ∧ (∀ s t : State, Invariant s → step s = .next t → t.fc = none → t.fcmd = 0#32)
    ∧ (∀ s t : State, s.resetNext = false → step s = .next t → t.fcmd ≠ s.fcmd → s.fc = none ∧ t.fc ≠ none)
    ∧ (∀ (s t : State) (w : Word) (acts : List HostAct), s.ready = true →
        (s.host = .cmd w :: acts ∨ ∃ writes, s.host = .cmdRacing w writes :: acts) →
        step s = .next t → t.fc ≠ none → t.fcmd = w)
    ∧ (∀ s t : State, s.goesOn = true → step s = .next t → t.fc ≠ none → t.fcmd = encode .rld)

/-! ### Status, valid bits and frames (10_state.md) -/

/-- STATUS, bit by bit (10_state.md section 5), with the code of each fault (60_exceptions.md section 1). -/
def Obligations.StatusWordFields : Prop :=
  ∀ s : State, csrValue s 0 = statusWord s
    ∧ bitField (statusWord s) 4 4 =
        (match s.fc with
          | none => 0#4
          | some .illegal => 1#4
          | some .noSrc => 2#4
          | some .trunc => 3#4
          | some .overrun => 4#4
          | some .badSym => 5#4
          | some .io => 6#4)
    ∧ (statusWord s).getLsbD 0 = s.busy ∧ ((statusWord s).getLsbD 1 = true ↔ bitField (statusWord s) 4 4 ≠ 0#4)
    ∧ bitField (statusWord s) 2 2 = 0#2
    ∧ (statusWord s).getLsbD 8 = s.vS ∧ (statusWord s).getLsbD 9 = s.vL ∧ (statusWord s).getLsbD 10 = s.vC
    ∧ (statusWord s).getLsbD 11 = s.vQ ∧ (statusWord s).getLsbD 12 = s.vZ ∧ (statusWord s).getLsbD 13 = s.vR
    ∧ bitField (statusWord s) 14 18 = 0#18

/-- CSR numbers 2 and 3 are PW and PH with the high half 0, numbers from 4 on read as 0, a read changes nothing but the
host's record, and no interaction but a command or a reset writes FC, FCMD, PW or PH unless an RLD goes on
(10_state.md section 5). -/
def Obligations.CsrReadPort : Prop :=
  (∀ s : State, (csrValue s 2).toNat = s.pw.toNat ∧ (csrValue s 3).toNat = s.ph.toNat ∧ ∀ n, 4 ≤ n → csrValue s n = 0#32)
    ∧ (∀ (s : State) (n : Nat) (acts : List HostAct), s.goesOn = false → s.host = .csrrd n :: acts →
        step s = .next { s with host := acts, rsp := s.rsp ++ [csrValue s n] })
    ∧ (∀ (s t : State) (a : HostAct) (acts : List HostAct), s.host = a :: acts → a.issuesWord = false → a.resets = false →
        s.goesOn = false → step s = .next t → t.fc = s.fc ∧ t.fcmd = s.fcmd ∧ t.pw = s.pw ∧ t.ph = s.ph)

/-- Only `rst` and a faulting RLD clear a valid bit, the latter that of Z (10_state.md section 2). -/
def Obligations.ValidBitsAreClearedOnlyByResetAndRldFaults : Prop :=
  ∀ (s t : State) (b : BufId), Invariant s → step s = .next t → validBit s b = true → validBit t b = false →
    s.resetNext = true
      ∨ (b = .z ∧ s.fc = none ∧ t.fcmd = encode .rld ∧ ∃ f, t.fc = some f ∧ f ∈ [FaultCode.trunc, .overrun, .badSym, .io])

/-- The frame of every command (10_state.md sections 2 and 5, 20_memory.md sections 2 to 4): each piece of state is as it
was unless the instruction is one of those named for it; FC and FCMD change only when the command faults. -/
def Obligations.CommandFrame : Prop :=
  ∀ (i : Instr) (s t : State), exec i s = .next t →
    (targetOf i ≠ some .s → t.bufS = s.bufS ∧ t.vS = s.vS)
      ∧ (targetOf i ≠ some .l → t.bufL = s.bufL ∧ t.vL = s.vL)
      ∧ (targetOf i ≠ some .c → t.bufC = s.bufC ∧ t.vC = s.vC)
      ∧ (targetOf i ≠ some .q → t.bufQ = s.bufQ ∧ t.vQ = s.vQ)
      ∧ (targetOf i ≠ some .z → t.bufZ = s.bufZ ∧ t.vZ = s.vZ)
      ∧ (targetOf i ≠ some .r → t.bufR = s.bufR ∧ t.vR = s.vR)
      ∧ ((∀ imm, i ≠ .cfgw imm) → t.pw = s.pw) ∧ ((∀ imm, i ≠ .cfgh imm) → t.ph = s.ph)
      ∧ (i ≠ .rle → t.ostr = s.ostr) ∧ (i ≠ .rld → t.istr = s.istr ∧ t.hold = s.hold ∧ t.free = s.free)
      ∧ ((∀ p bx bY, i ≠ .bpx p bx bY) → i ≠ .rle → i ≠ .rld → t.ioAnswers = s.ioAnswers)
      ∧ t.eos = s.eos ∧ t.host = s.host ∧ t.rsp = s.rsp
      ∧ (∀ p a, readByte (planeOf t p) a = readByte (planeOf s p) a)
      ∧ ((t.fc = s.fc ∧ t.fcmd = s.fcmd) ∨ (s.fc = none ∧ t.fc ≠ none ∧ t.fcmd = encode i))

/-- What a block command writes depends on the buffer it reads and on nothing else (10_state.md section 2): two machines
that agree on that buffer write the same cells. -/
def Obligations.BlockCommandsReadOnlyTheirSource : Prop :=
  ∀ (i : Instr) (src dst : BufId) (s u s' u' : State), i ∈ blockCommands → sourceOf i = some src → targetOf i = some dst →
    s.ready = true → u.ready = true → validBit s src = true → validBit u src = true →
    (∀ k, k < 64 → windowCell s src k = windowCell u src k) →
    exec i s = .next s' → exec i u = .next u' → ∀ k, k < 64 → windowCell s' dst k = windowCell u' dst k

/-! ### The composed paths (44_pipeline_host.md) -/

/-- 44_pipeline_host.md R130: the two commands of `SETDIM w, h`, issued to a CORE that is ready, leave PW = w and PH = h. -/
def Obligations.SetdimSetsBothDimensions : Prop :=
  (∀ w h : BitVec 16, setDim w h = [.cfgw w, .cfgh h])
    ∧ ∀ (s : State) (w h : BitVec 16) (acts : List HostAct), s.ready = true → s.host = issue (setDim w h) ++ acts →
        Host.Core.run Sys2Proof.core 2 s = .next { s with host := acts, pw := w, ph := h }

/-- 44_pipeline_host.md R131: `ENCBLK` of a legal plane, under the default oracle, never faults, leaves the five stages of
the block valid in S, L, C, Q and Z, and appends the block's symbol stream to OSTR; commands issued after a fault are
discarded. -/
def Obligations.EncblkRunsTheSixStages : Prop :=
  (∀ (s : State) (p : BitVec 2) (plane : PlaneId) (bx bY : BitVec 13) (acts : List HostAct), s.ready = true →
      planeOfOperand p = some plane → s.ioAnswers = [] → s.host = issue (encBlk p bx bY) ++ acts →
      ∃ t, Host.Core.run Sys2Proof.core 6 s = .next t
        ∧ t.bufS = cutBlock (memRead s plane) bx bY s ∧ t.bufL = levelShift t.bufS ∧ t.bufC = forwardDct t.bufL
        ∧ t.bufQ = quantize t.bufC ∧ t.bufZ = zigzagScan t.bufQ ∧ t.ostr = s.ostr ++ symbolStream (cells t.bufZ)
        ∧ t = { s with bufS := t.bufS, bufL := t.bufL, bufC := t.bufC, bufQ := t.bufQ, bufZ := t.bufZ, ostr := t.ostr
                       vS := true, vL := true, vC := true, vQ := true, vZ := true, host := acts })
    ∧ (∀ (s : State) (is : List Instr) (acts : List HostAct), s.halted = true → s.host = issue is ++ acts →
        Host.Core.run Sys2Proof.core is.length s = .next { s with host := acts })

/-- 44_pipeline_host.md R132: `DECBLK`, given one well-formed symbol stream, under the default oracle, takes that stream out
of ISTR and leaves the stages of the block valid in Z, Q, C, R and S. -/
def Obligations.DecblkRunsTheFiveStages : Prop :=
  ∀ (s : State) (syms : List (Byte × Byte)) (rest : List Byte) (acts : List HostAct), s.ready = true →
    dataSymbols syms → s.ioAnswers = [] → s.istr = layOut syms ++ [0xFF#8, 0x00#8] ++ rest →
    s.host = issue decBlk ++ acts →
    ∃ t, Host.Core.run Sys2Proof.core 5 s = .next t
      ∧ t.bufZ = padded (expansion syms) ∧ t.bufQ = zigzagUnscan t.bufZ ∧ t.bufC = dequantize t.bufQ
      ∧ t.bufR = inverseDct t.bufC ∧ t.bufS = unlevelShift t.bufR
      ∧ t = { s with bufS := t.bufS, bufC := t.bufC, bufQ := t.bufQ, bufZ := t.bufZ, bufR := t.bufR, istr := rest
                     vS := true, vC := true, vQ := true, vZ := true, vR := true, host := acts }

/-- The container's order (44_pipeline_host.md section 2): in the host's compression run the six commands of `ENCBLK` for
plane `p` of block `(bx, by)` stand at the entries from `2 + 6*(3*(bx*blocksY + by) + p)` on, the BPX first and the RLE that
appends that stream last, for every plane size; after the two commands of `SETDIM` there is nothing else. The decompression
run issues one `DECBLK` and reads S for each stream. -/
def Obligations.ContainerOrder : Prop :=
  (∀ (w h : BitVec 16) (bx bY p : Nat), bx < (w.toNat + 7) / 8 → bY < (h.toNat + 7) / 8 → p < 3 →
      ((compressionRun w h).drop (2 + 6 * (3 * (bx * ((h.toNat + 7) / 8) + bY) + p))).take 6 =
        [.cmd (encode (.bpx (BitVec.ofNat 2 p) (BitVec.ofNat 13 bx) (BitVec.ofNat 13 bY))), .cmd (encode .lsh),
          .cmd (encode .fdct), .cmd (encode .qnt), .cmd (encode .zzs), .cmd (encode .rle)]
        ∧ (BitVec.ofNat 13 bx).toNat = bx ∧ (BitVec.ofNat 13 bY).toNat = bY)
    ∧ (∀ w h : BitVec 16, (compressionRun w h).take 2 = [.cmd (encode (.cfgw w)), .cmd (encode (.cfgh h))]
        ∧ (compressionRun w h).length = 2 + 6 * (3 * ((w.toNat + 7) / 8 * ((h.toNat + 7) / 8))))
    ∧ (∀ blocksX blocksY n : Nat, n < 3 * (blocksX * blocksY) →
        ((decompressionRun blocksX blocksY).drop (69 * n)).take 69 = issue decBlk ++ readSamples)

/-! ### Ports (20_memory.md, 70_reset_and_hazards.md) -/

/-- The buffer window (20_memory.md section 12). A write on a ready CORE takes the low bits of each word at the cell's width
and sets the valid bit, and changes nothing else of the machine. A read while BUSY is 0, halted or not, returns one word and changes
nothing of the CORE; for a valid buffer the word is the cell, zero-extended for S and sign-extended for the others. -/
def Obligations.BufferWindow : Prop :=
  (∀ (s : State) (b : BufId) (v : Vector Word 64) (acts : List HostAct), s.ready = true → s.host = .bufwr b v :: acts →
    ∃ t, step s = .next t
      ∧ t =
        (match b with
          | .s => { s with host := acts, bufS := t.bufS, vS := true }
          | .l => { s with host := acts, bufL := t.bufL, vL := true }
          | .c => { s with host := acts, bufC := t.bufC, vC := true }
          | .q => { s with host := acts, bufQ := t.bufQ, vQ := true }
          | .z => { s with host := acts, bufZ := t.bufZ, vZ := true }
          | .r => { s with host := acts, bufR := t.bufR, vR := true })
      ∧ ∀ k : Fin 64, windowCell t b k =
          match b with
          | .s => ((v[k]).setWidth 8).setWidth 32
          | .l => ((v[k]).setWidth 8).signExtend 32
          | .c => ((v[k]).setWidth 16).signExtend 32
          | .q => ((v[k]).setWidth 8).signExtend 32
          | .z => ((v[k]).setWidth 8).signExtend 32
          | .r => v[k])
    ∧ (∀ (s : State) (b : BufId) (k : Fin 64) (acts : List HostAct), s.busy = false → s.host = .bufrd b k :: acts →
      ∃ word n, step s = .next { s with host := acts, rsp := s.rsp ++ [word], free := n }
        ∧ (validBit s b = true → n = s.free ∧ word =
          match b with
          | .s => (s.bufS[k]).setWidth 32
          | .l => (s.bufL[k]).signExtend 32
          | .c => (s.bufC[k]).signExtend 32
          | .q => (s.bufQ[k]).signExtend 32
          | .z => (s.bufZ[k]).signExtend 32
          | .r => s.bufR[k]))

/-- While a command runs the port takes no word and the window is closed (70_reset_and_hazards.md section 3). A word waits at
the handshake, as the spec says; that a window access offered then waits too, at the head of the host's list, is the model's
choice (assumption log 11, DEDUCED). -/
def Obligations.BusyPortsWait : Prop :=
  ∀ (s : State) (a : HostAct) (acts : List HostAct), s.busy = true → s.host = a :: acts →
    ((∃ w, a = .cmd w) ∨ (∃ b k, a = .bufrd b k) ∨ (∃ b v, a = .bufwr b v)) →
    (∃ t, step s = .next t ∧ t.host = s.host ∧ t.rsp = s.rsp) ∧ (s.goesOn = false → step s = .next s)

/-- 70_reset_and_hazards.md R175: when plane bytes change while a BPX runs, each cell of S holds the old byte of its address
or one of the new ones; a host write between commands does not change S. -/
def Obligations.RacingPlaneWrites : Prop :=
  (∀ (s t : State) (p : BitVec 2) (plane : PlaneId) (bx bY : BitVec 13) (writes : List (PlaneId × Word × Byte))
      (acts : List HostAct), s.ready = true → planeOfOperand p = some plane → s.quiet (planeReads s bx bY) →
      s.host = .cmdRacing (encode (.bpx p bx bY)) writes :: acts → step s = .next t →
      ∀ k, k < 64 → inPlane s bx bY k = true →
        cell t.bufS k = memRead s plane (planeAddress s bx bY k)
          ∨ ∃ a b, (plane, a, b) ∈ writes ∧ a.toNat = planeAddress s bx bY k ∧ cell t.bufS k = b)
    ∧ (∀ (s : State) (plane : PlaneId) (a : Word) (b : Byte) (acts : List HostAct), s.hold = none →
        s.host = .planeWrite plane a b :: acts →
        ∃ t, step s = .next t ∧ t.bufS = s.bufS ∧ t.vS = s.vS ∧ memRead t plane a.toNat = b
          ∧ ∀ q c, (q ≠ plane ∨ c ≠ a.toNat) → memRead t q c = memRead s q c)
end

