-- ==== Sys2Proof/Laws/Cells.lean ====
section
/-!
SUPPORT. Reading a block back: the cells of `tabulate`, extensionality over the 64 cells, the tables, and `rhaDiv`.
-/

namespace Sys2Proof.Machine

@[simp] theorem cells_length {w : Nat} (b : Block w) : (cells b).length = 64 := by
  simp [cells]

@[simp] theorem cells_tabulate {w : Nat} (f : Nat → BitVec w) : cells (tabulate f) = (List.range 64).map f := rfl

theorem cell_tabulate {w : Nat} (f : Nat → BitVec w) {k : Nat} (hk : k < 64) : cell (tabulate f) k = f k := by
  simp [cell, List.getD_eq_getElem?_getD, hk]

theorem cell_eq_getElem {w : Nat} (b : Block w) {k : Nat} (hk : k < 64) : cell b k = b[k] := by
  simp [cell, cells, List.getD_eq_getElem?_getD, hk]

/-- Two blocks with the same 64 cells are the same block. -/
theorem block_ext {w : Nat} {a b : Block w} (h : ∀ k, k < 64 → cell a k = cell b k) : a = b := by
  apply Vector.ext
  intro k hk
  rw [← cell_eq_getElem a hk, ← cell_eq_getElem b hk]
  exact h k hk

/-- The cells of a block are its cell function over the 64 indices. -/
theorem cells_eq_map {w : Nat} (b : Block w) : cells b = (List.range 64).map (cell b) := by
  apply List.ext_getElem (by simp)
  intro k h1 h2
  have hk : k < 64 := by simpa using h2
  simp [cell, List.getD_eq_getElem?_getD, hk]

theorem tabulate_cell {w : Nat} (b : Block w) : tabulate (cell b) = b :=
  block_ext fun _ hk => cell_tabulate _ hk

theorem tabulate_congr {w : Nat} {f g : Nat → BitVec w} (h : ∀ k, k < 64 → f k = g k) : tabulate f = tabulate g :=
  block_ext fun k hk => by rw [cell_tabulate f hk, cell_tabulate g hk, h k hk]

theorem tabulate_inj {w : Nat} {f g : Nat → BitVec w} (h : tabulate f = tabulate g) {k : Nat} (hk : k < 64) : f k = g k := by
  rw [← cell_tabulate f hk, ← cell_tabulate g hk, h]

/-- ZZ has 64 positions. -/
theorem zz_lt : ∀ k, k < 64 → zz k < 64 := by decide

/-- ZZINV inverts ZZ. -/
theorem zzInv_zz : ∀ k, k < 64 → zzInv (zz k) = k := by decide

/-- ZZ inverts ZZINV. -/
theorem zz_zzInv : ∀ n, n < 64 → zz (zzInv n) = n := by decide

theorem zzInv_lt : ∀ n, n < 64 → zzInv n < 64 := by decide

/-- Every entry of QTABLE is between 10 and 121 (41_transform.md R83). -/
theorem qTable_bounds : ∀ k, k < 64 → 10 ≤ qTable k ∧ qTable k ≤ 121 := by decide

/-- `RHA` is symmetric (41_transform.md R95). -/
theorem rhaDiv_neg (a : Int) (t : Nat) : rhaDiv (-a) t = -rhaDiv a t := by
  simp [rhaDiv, Int.sign_neg, Int.natAbs_neg]

theorem rhaDiv_zero (t : Nat) : rhaDiv 0 t = 0 := by simp [rhaDiv]

end Sys2Proof.Machine
end

