-- ==== Sys2Proof/Laws/Rounding.lean ====
section
/-!
SUPPORT. What the exact arithmetic of Machine/CosField.lean means over the reals: the value of a cosine sum and of a number
over nested square roots, that `sgn` is the sign of that value, and that `rhaSixteenth` rounds it.
-/

namespace Sys2Proof.Machine

open Real

/-! ### Values -/

/-- `g_k = cos(k*pi/16)` (41_transform.md R91). -/
noncomputable def gCos (k : ℕ) : ℝ := cos (k * π / 16)

/-- The value of a cosine sum. -/
noncomputable def CosSum.val (s : CosSum) : ℝ :=
  s.c0 + s.c1 * gCos 1 + s.c2 * gCos 2 + s.c3 * gCos 3 + s.c4 * gCos 4 + s.c5 * gCos 5 + s.c6 * gCos 6 + s.c7 * gCos 7

/-- The value of `a + b*√2`. -/
noncomputable def Root2.val (x : Root2) : ℝ := x.a + x.b * √2

/-- The value of `p + q*√(2+√2)`. -/
noncomputable def Root4.val (x : Root4) : ℝ := x.p.val + x.q.val * √(2 + √2)

/-- The value of `p + q*√(2+√(2+√2))`. -/
noncomputable def Root8.val (x : Root8) : ℝ := x.p.val + x.q.val * √(2 + √(2 + √2))

theorem sqrt2_sq : √2 * √2 = 2 := mul_self_sqrt (by norm_num)

theorem sqrt4_sq : √(2 + √2) * √(2 + √2) = 2 + √2 := mul_self_sqrt (by positivity)

theorem sqrt8_sq : √(2 + √(2 + √2)) * √(2 + √(2 + √2)) = 2 + √(2 + √2) := mul_self_sqrt (by positivity)

@[simp] theorem Root2.val_add (x y : Root2) : (x.add y).val = x.val + y.val := by simp [Root2.val, Root2.add]; ring

@[simp] theorem Root2.val_sub (x y : Root2) : (x.sub y).val = x.val - y.val := by simp [Root2.val, Root2.sub]; ring

@[simp] theorem Root2.val_mul (x y : Root2) : (x.mul y).val = x.val * y.val := by
  simp only [Root2.val, Root2.mul]
  push_cast
  linear_combination (-(x.b : ℝ) * y.b) * sqrt2_sq

@[simp] theorem val_square4 : square4.val = 2 + √2 := by simp [square4, Root2.val]

@[simp] theorem Root4.val_sub (x y : Root4) : (x.sub y).val = x.val - y.val := by simp [Root4.val, Root4.sub]; ring

@[simp] theorem Root4.val_mul (x y : Root4) : (x.mul y).val = x.val * y.val := by
  simp only [Root4.val, Root4.mul, Root2.val_add, Root2.val_mul, val_square4]
  linear_combination (-x.q.val * y.q.val) * sqrt4_sq

@[simp] theorem val_square8 : square8.val = 2 + √(2 + √2) := by simp [square8, Root4.val, Root2.val]

@[simp] theorem Root8.val_subInt (x : Root8) (k : Int) : (x.subInt k).val = x.val - k := by
  simp [Root8.val, Root4.val, Root2.val, Root8.subInt]; ring

@[simp] theorem Root8.val_neg (x : Root8) : x.neg.val = -x.val := by
  simp [Root8.val, Root4.val, Root2.val, Root8.neg]; ring

/-! ### Signs -/

/-- `n` is the sign of the real number `v`. -/
def IsSign (n : Int) (v : ℝ) : Prop := n = (SignType.sign v : ℤ)

theorem isSign_int (k : Int) : IsSign k.sign (k : ℝ) := by
  unfold IsSign
  rcases lt_trichotomy k 0 with h | rfl | h
  · have h' : (k : ℝ) < 0 := by exact_mod_cast h
    simp [sign_neg h', Int.sign_eq_neg_one_of_neg h]
  · simp
  · have h' : (0 : ℝ) < k := by exact_mod_cast h
    simp [sign_pos h', Int.sign_eq_one_of_pos h]

theorem IsSign.cases {n : Int} {v : ℝ} (h : IsSign n v) : (n = -1 ∧ v < 0) ∨ (n = 0 ∧ v = 0) ∨ (n = 1 ∧ 0 < v) := by
  unfold IsSign at h
  rcases lt_trichotomy v 0 with hv | rfl | hv
  · exact .inl ⟨by simpa [sign_neg hv] using h, hv⟩
  · exact .inr (.inl ⟨by simpa using h, rfl⟩)
  · exact .inr (.inr ⟨by simpa [sign_pos hv] using h, hv⟩)

theorem isSign_of_neg {v : ℝ} (h : v < 0) : IsSign (-1) v := by simp [IsSign, sign_neg h]

theorem isSign_of_zero {v : ℝ} (h : v = 0) : IsSign 0 v := by simp [IsSign, h]

theorem isSign_of_pos {v : ℝ} (h : 0 < v) : IsSign 1 v := by simp [IsSign, sign_pos h]

/-- A sign is not negative exactly when the number is not. -/
theorem IsSign.nonneg_iff {n : Int} {v : ℝ} (h : IsSign n v) : 0 ≤ n ↔ 0 ≤ v := by
  rcases h.cases with ⟨rfl, hv⟩ | ⟨rfl, hv⟩ | ⟨rfl, hv⟩
  · simp [hv]
  · simp [hv]
  · simp [hv.le]

/-- The rule of `joinSign`: with `r > 0`, the sign of `x + y*r` follows from those of `x`, `y` and `x^2 - y^2*r^2`. -/
theorem joinSign_isSign {sx sy sd : Int} {x y r : ℝ} (hr : 0 < r) (hx : IsSign sx x) (hy : IsSign sy y)
    (hd : IsSign sd (x * x - y * y * (r * r))) : IsSign (joinSign sx sy sd) (x + y * r) := by
  have fac : x * x - y * y * (r * r) = (x - y * r) * (x + y * r) := by ring
  rw [fac] at hd
  rcases hy.cases with ⟨rfl, y0⟩ | ⟨rfl, y0⟩ | ⟨rfl, y0⟩
  · have hyr : y * r < 0 := mul_neg_of_neg_of_pos y0 hr
    rcases hx.cases with ⟨rfl, x0⟩ | ⟨rfl, x0⟩ | ⟨rfl, x0⟩
    · exact isSign_of_neg (by linarith)
    · exact isSign_of_neg (by linarith)
    · have hpos : 0 < x - y * r := by linarith
      rcases hd.cases with ⟨rfl, d0⟩ | ⟨rfl, d0⟩ | ⟨rfl, d0⟩
      · exact isSign_of_neg (neg_of_mul_neg_right d0 hpos.le)
      · exact isSign_of_zero ((mul_eq_zero.mp d0).resolve_left hpos.ne')
      · exact isSign_of_pos (pos_of_mul_pos_right d0 hpos.le)
  · subst y0; simpa [joinSign] using hx
  · have hyr : 0 < y * r := mul_pos y0 hr
    rcases hx.cases with ⟨rfl, x0⟩ | ⟨rfl, x0⟩ | ⟨rfl, x0⟩
    · have hneg : x - y * r < 0 := by linarith
      rcases hd.cases with ⟨rfl, d0⟩ | ⟨rfl, d0⟩ | ⟨rfl, d0⟩
      · exact isSign_of_pos (pos_of_mul_neg_right d0 hneg.le)
      · exact isSign_of_zero ((mul_eq_zero.mp d0).resolve_left hneg.ne)
      · exact isSign_of_neg (neg_of_mul_pos_right d0 hneg.le)
    · exact isSign_of_pos (by linarith)
    · exact isSign_of_pos (by linarith)

theorem Root2.sgn_isSign (x : Root2) : IsSign x.sgn x.val := by
  refine joinSign_isSign (by positivity) (isSign_int x.a) (isSign_int x.b) ?_
  have h := isSign_int (x.a * x.a - 2 * (x.b * x.b))
  push_cast at h
  rwa [sqrt2_sq, mul_comm ((x.b : ℝ) * x.b)]

theorem Root4.sgn_isSign (x : Root4) : IsSign x.sgn x.val := by
  refine joinSign_isSign (by positivity) x.p.sgn_isSign x.q.sgn_isSign ?_
  have h := ((x.p.mul x.p).sub (square4.mul (x.q.mul x.q))).sgn_isSign
  simp only [Root2.val_sub, Root2.val_mul, val_square4] at h
  rwa [sqrt4_sq, mul_comm (x.q.val * x.q.val)]

/-- The exact sign is the sign. -/
theorem Root8.sgn_isSign (x : Root8) : IsSign x.sgn x.val := by
  refine joinSign_isSign (by positivity) x.p.sgn_isSign x.q.sgn_isSign ?_
  have h := ((x.p.mul x.p).sub (square8.mul (x.q.mul x.q))).sgn_isSign
  simp only [Root4.val_sub, Root4.val_mul, val_square8] at h
  rwa [sqrt8_sq, mul_comm (x.q.val * x.q.val)]

/-! ### Rounding -/

/-- `reaches` compares exactly. -/
theorem reaches_iff (x : Root8) (m : Nat) : reaches x m = true ↔ (m : ℝ) ≤ x.val / 16 + 1 / 2 := by
  have h := (x.subInt (16 * (m : Int) - 8)).sgn_isSign.nonneg_iff
  rw [reaches, decide_eq_true_iff, h, Root8.val_subInt]
  push_cast
  constructor <;> intro h <;> linarith

/-- The search ends at the largest number reached, when one below `m + 2^bits` is not. -/
theorem searchRound_spec (x : Root8) : ∀ (bits m : Nat), reaches x m = true → reaches x (m + 2 ^ bits) = false →
    reaches x (searchRound x bits m) = true ∧ reaches x (searchRound x bits m + 1) = false
  | 0, m, h1, h2 => by simpa [searchRound] using And.intro h1 h2
  | bits + 1, m, h1, h2 => by
    unfold searchRound
    split
    · next h => exact searchRound_spec x bits _ h (by rw [pow_succ] at h2; rw [← h2]; congr 1; ring)
    · next h => exact searchRound_spec x bits m h1 (by simpa using h)

/-- `floorHalfUp` is `floor(x/16 + 1/2)` in the range it is used in. -/
theorem floorHalfUp_eq (x : Root8) (h0 : 0 ≤ x.val) (h1 : x.val / 16 + 1 / 2 < 2 ^ 20) :
    (floorHalfUp x : ℤ) = ⌊x.val / 16 + 1 / 2⌋ := by
  have key : reaches x (floorHalfUp x) = true ∧ reaches x (floorHalfUp x + 1) = false := by
    unfold floorHalfUp
    split
    · next h => simpa using h
    · refine searchRound_spec x 20 0 ?_ ?_
      · rw [reaches_iff]; push_cast; linarith
      · rw [← Bool.not_eq_true, reaches_iff]; push_cast; linarith
  have hlo := (reaches_iff x _).mp key.1
  have hhi : ¬ ((floorHalfUp x + 1 : ℕ) : ℝ) ≤ x.val / 16 + 1 / 2 := fun h => by
    rw [(reaches_iff x _).mpr h] at key; exact absurd key.2 (by simp)
  symm
  rw [Int.floor_eq_iff]
  push_cast at hhi ⊢
  exact ⟨hlo, not_le.mp hhi⟩

/-- `rhaSixteenth` is `RHA` of a sixteenth, in the range it is used in. -/
theorem rhaSixteenth_eq (x : Root8) (h : |x.val| / 16 + 1 / 2 < 2 ^ 20) : rhaSixteenth x = rha (x.val / 16) := by
  have hs := x.sgn_isSign
  unfold rhaSixteenth rha
  rw [abs_div, abs_of_pos (by norm_num : (0 : ℝ) < 16)]
  rcases lt_trichotomy x.val 0 with hv | hv | hv
  · rw [if_neg (by rw [hs.nonneg_iff]; linarith), sign_neg (by linarith)]
    rw [abs_of_neg hv] at h ⊢
    have := floorHalfUp_eq x.neg (by simp [hv.le]) (by simpa using h)
    rw [this]; simp
  · rw [if_pos (by rw [hs.nonneg_iff]; linarith)]
    have := floorHalfUp_eq x (by simp [hv]) (by simp [hv]; norm_num)
    rw [this, hv]; norm_num
  · rw [if_pos (by rw [hs.nonneg_iff]; linarith), sign_pos (by linarith)]
    rw [abs_of_pos hv] at h ⊢
    rw [floorHalfUp_eq x hv.le h]; simp

/-! ### Cosine sums -/

theorem gCos_zero : gCos 0 = 1 := by simp [gCos]

theorem gCos_eight : gCos 8 = 0 := by
  have : ((8 : ℕ) : ℝ) * π / 16 = π / 2 := by push_cast; ring
  rw [gCos, this, cos_pi_div_two]

theorem gCos_add_32 (k : ℕ) : gCos (k + 32) = gCos k := by
  have : ((k + 32 : ℕ) : ℝ) * π / 16 = k * π / 16 + 2 * π := by push_cast; ring
  rw [gCos, this, cos_add_two_pi, gCos]

theorem gCos_add_mul_32 (k n : ℕ) : gCos (k + 32 * n) = gCos k := by
  induction n with
  | zero => rfl
  | succ n ih => rw [Nat.mul_succ, ← Nat.add_assoc, gCos_add_32, ih]

theorem gCos_mod_32 (k : ℕ) : gCos (k % 32) = gCos k := by
  conv_rhs => rw [← Nat.mod_add_div k 32]
  rw [gCos_add_mul_32]

theorem gCos_32_sub {k : ℕ} (h : k ≤ 32) : gCos (32 - k) = gCos k := by
  have : ((32 - k : ℕ) : ℝ) * π / 16 = 2 * π - k * π / 16 := by rw [Nat.cast_sub h]; push_cast; ring
  rw [gCos, this, cos_two_pi_sub, gCos]

theorem gCos_16_sub {k : ℕ} (h : k ≤ 16) : gCos (16 - k) = -gCos k := by
  have : ((16 - k : ℕ) : ℝ) * π / 16 = π - k * π / 16 := by rw [Nat.cast_sub h]; push_cast; ring
  rw [gCos, this, cos_pi_sub, gCos]

theorem gCos_foldPhase (n : ℕ) : gCos (foldPhase n) = gCos n := by
  unfold foldPhase
  split
  · exact gCos_mod_32 n
  · rw [gCos_32_sub (by omega), gCos_mod_32]

theorem foldPhase_le (n : ℕ) : foldPhase n ≤ 16 := by unfold foldPhase; split <;> omega

theorem val_addCosine (s : CosSum) (v : Int) : ∀ m, m ≤ 8 → (addCosine s v m).val = s.val + v * gCos m
  | 0, _ => by simp [addCosine, CosSum.val, gCos_zero]; ring
  | 1, _ => by simp [addCosine, CosSum.val]; ring
  | 2, _ => by simp [addCosine, CosSum.val]; ring
  | 3, _ => by simp [addCosine, CosSum.val]; ring
  | 4, _ => by simp [addCosine, CosSum.val]; ring
  | 5, _ => by simp [addCosine, CosSum.val]; ring
  | 6, _ => by simp [addCosine, CosSum.val]; ring
  | 7, _ => by simp [addCosine, CosSum.val]; ring
  | 8, _ => by simp [addCosine, gCos_eight]
  | n + 9, h => by omega

/-- Adding `v * g_n` adds that value. -/
theorem val_addPhase (s : CosSum) (v : Int) (n : ℕ) : (addPhase s v n).val = s.val + v * gCos n := by
  have hle := foldPhase_le n
  unfold addPhase
  split
  · next h => rw [val_addCosine s v _ h, gCos_foldPhase]
  · next h =>
    rw [val_addCosine s (-v) _ (by omega), gCos_16_sub hle, gCos_foldPhase]
    push_cast; ring

/-- `g_{a+b} + g_{a-b} = 2 * g_a * g_b` (41_transform.md R91). -/
theorem val_addTerm (s : CosSum) (v : Int) (a b : ℕ) (hb : b ≤ 256) :
    (addTerm s v a b).val = s.val + v * (2 * gCos a * gCos b) := by
  have h1 : ((a + b : ℕ) : ℝ) * π / 16 = a * π / 16 + b * π / 16 := by push_cast; ring
  have h2 : gCos (a + (256 - b)) = cos (a * π / 16 - b * π / 16) := by
    have : ((a + (256 - b) : ℕ) : ℝ) * π / 16 = (a * π / 16 - b * π / 16) + (8 : ℕ) * (2 * π) := by
      rw [Nat.cast_add, Nat.cast_sub hb]; push_cast; ring
    rw [gCos, this, cos_add_nat_mul_two_pi]
  rw [addTerm, val_addPhase, val_addPhase, h2, gCos, h1, cos_add, cos_sub]
  simp only [gCos]
  ring

theorem two_gCos_four : 2 * gCos 4 = √2 := by
  have : ((4 : ℕ) : ℝ) * π / 16 = π / 4 := by push_cast; ring
  rw [gCos, this, cos_pi_div_four]; ring

theorem two_gCos_two : 2 * gCos 2 = √(2 + √2) := by
  have : ((2 : ℕ) : ℝ) * π / 16 = π / 8 := by push_cast; ring
  rw [gCos, this, cos_pi_div_eight]; ring

theorem two_gCos_one : 2 * gCos 1 = √(2 + √(2 + √2)) := by
  have : ((1 : ℕ) : ℝ) * π / 16 = π / 16 := by push_cast; ring
  rw [gCos, this, cos_pi_div_sixteen]; ring

/-- `g_a * g_b = (g_{a+b} + g_{a-b}) / 2` (41_transform.md R91), for `b ≤ a`. -/
theorem gCos_mul (a b : ℕ) (h : b ≤ a) : 2 * gCos a * gCos b = gCos (a + b) + gCos (a - b) := by
  have h1 : ((a + b : ℕ) : ℝ) * π / 16 = a * π / 16 + b * π / 16 := by push_cast; ring
  have h2 : ((a - b : ℕ) : ℝ) * π / 16 = a * π / 16 - b * π / 16 := by rw [Nat.cast_sub h]; ring
  simp only [gCos, h1, h2, cos_add, cos_sub]
  ring

/-- `twice` doubles the value. -/
theorem val_twice (s : CosSum) : (twice s).val = 2 * s.val := by
  have h3 := gCos_mul 2 1 (by norm_num)
  have h5 := gCos_mul 4 1 (by norm_num)
  have h6 := gCos_mul 4 2 (by norm_num)
  have h7 := gCos_mul 6 1 (by norm_num)
  norm_num at h3 h5 h6 h7
  simp only [twice, Root8.val, Root4.val, Root2.val, CosSum.val]
  rw [← two_gCos_one, ← two_gCos_two, ← two_gCos_four]
  push_cast
  have e3 : gCos 3 = 2 * gCos 2 * gCos 1 - gCos 1 := by linarith
  have e5 : gCos 5 = 2 * gCos 4 * gCos 1 - gCos 3 := by linarith
  have e6 : gCos 6 = 2 * gCos 4 * gCos 2 - gCos 2 := by linarith
  have e7 : gCos 7 = 2 * gCos 6 * gCos 1 - gCos 5 := by linarith
  rw [e7, e5, e6, e3]
  ring

end Sys2Proof.Machine
end

