-- ==== Sys2Proof/Laws/Dct.lean ====
section
/-!
SUPPORT. The sums of the two transforms, as built by the model, are sixteen times the real values of 41_transform.md R85 and
R88.
-/

namespace Sys2Proof.Machine

open Real

theorem sqrt_quarter : √(2 / 8 : ℝ) = 1 / 2 := by
  rw [show (2 / 8 : ℝ) = (1 / 2) ^ 2 by norm_num, sqrt_sq (by norm_num)]

theorem sqrt_eighth : √(1 / 8 : ℝ) = gCos 4 / 2 := by
  rw [show gCos 4 / 2 = √2 / 4 by rw [← two_gCos_four]; ring, show (1 / 8 : ℝ) = 2 / 4 ^ 2 by norm_num,
    sqrt_div (by norm_num), sqrt_sq (by norm_num)]

/-- `c(k) * cos((2t+1)*k*pi/16) = g_phase / 2` (41_transform.md R81, R91). -/
theorem scale_mul_basis (t k : ℕ) : dctScale k * dctBasis t k = gCos (phase t k) / 2 := by
  unfold dctScale dctBasis phase
  split
  · next h => subst h; rw [sqrt_eighth]; simp
  · rw [sqrt_quarter, gCos]; push_cast; ring

theorem phase_le {t k : ℕ} (ht : t < 8) (hk : k < 8) : phase t k ≤ 256 := by
  unfold phase
  split
  · omega
  · have : (2 * t + 1) * k ≤ 15 * 7 := Nat.mul_le_mul (by omega) (by omega)
    omega

theorem rowOf_lt {k : ℕ} (h : k < 64) : rowOf k < 8 := by unfold rowOf; omega

theorem colOf_lt (k : ℕ) : colOf k < 8 := by unfold colOf; omega

/-- The forward sum over a list of samples, term by term. -/
theorem val_forwardSum (i j : ℕ) (hj : j < 8) : ∀ (vs : List (BitVec 8)) (k : ℕ) (s : CosSum),
    (forwardSum i j vs k s).val = s.val + ∑ n ∈ Finset.range vs.length,
      ((vs.getD n 0#8).toInt : ℝ) * (2 * gCos (phase (rowOf (k + n)) i) * gCos (phase (colOf (k + n)) j))
  | [], k, s => by simp [forwardSum]
  | v :: vs, k, s => by
    rw [forwardSum, val_forwardSum i j hj vs, val_addTerm _ _ _ _ (phase_le (colOf_lt k) hj), List.length_cons,
      Finset.sum_range_succ']
    simp only [List.getD_cons_succ, List.getD_cons_zero, Nat.add_zero, Nat.add_assoc, Nat.add_comm 1]
    ring

/-- The inverse sum over a list of coefficients, term by term. -/
theorem val_inverseSum (y x : ℕ) (hx : x < 8) : ∀ (vs : List (BitVec 16)) (k : ℕ) (s : CosSum),
    (inverseSum y x vs k s).val = s.val + ∑ n ∈ Finset.range vs.length,
      ((vs.getD n 0#16).toInt : ℝ) * (2 * gCos (phase y (rowOf (k + n))) * gCos (phase x (colOf (k + n))))
  | [], k, s => by simp [inverseSum]
  | v :: vs, k, s => by
    rw [inverseSum, val_inverseSum y x hx vs, val_addTerm _ _ _ _ (phase_le hx (colOf_lt k)), List.length_cons,
      Finset.sum_range_succ']
    simp only [List.getD_cons_succ, List.getD_cons_zero, Nat.add_zero, Nat.add_assoc, Nat.add_comm 1]
    ring

/-- A sum over the 64 linear indices is the double sum over rows and columns. -/
theorem sum_cells (f : ℕ → ℝ) :
    ∑ k ∈ Finset.range 64, f k = ∑ r ∈ Finset.range 8, ∑ c ∈ Finset.range 8, f (8 * r + c) := by
  simp only [Finset.sum_range_succ, Finset.sum_range_zero]
  ring

@[simp] theorem val_cosZero : cosZero.val = 0 := by simp [cosZero, CosSum.val]

theorem rowOf_linear {r c : ℕ} (hc : c < 8) : rowOf (8 * r + c) = r := by unfold rowOf; omega

theorem colOf_linear {r c : ℕ} (hc : c < 8) : colOf (8 * r + c) = c := by unfold colOf; omega

/-- What FDCT rounds is sixteen times the real value of 41_transform.md R85. -/
theorem val_forward (l : Block 8) (i j : ℕ) (hj : j < 8) :
    (twice (forwardSum i j (cells l) 0 cosZero)).val = 16 * fdctReal l i j := by
  rw [val_twice, val_forwardSum i j hj, cells_length, sum_cells, val_cosZero, fdctReal, zero_add, Finset.mul_sum,
    Finset.mul_sum, Finset.mul_sum]
  refine Finset.sum_congr rfl fun y _ => ?_
  rw [Finset.mul_sum, Finset.mul_sum, Finset.mul_sum]
  refine Finset.sum_congr rfl fun x hx => ?_
  have hx := Finset.mem_range.mp hx
  rw [Nat.zero_add, rowOf_linear hx, colOf_linear hx]
  have e1 := scale_mul_basis y i
  have e2 := scale_mul_basis x j
  rw [show gCos (phase y i) = 2 * (dctScale i * dctBasis y i) by rw [e1]; ring,
    show gCos (phase x j) = 2 * (dctScale j * dctBasis x j) by rw [e2]; ring]
  simp only [cell]
  ring

/-- What IDCT rounds is sixteen times the real value of 41_transform.md R88. -/
theorem val_inverse (c : Block 16) (y x : ℕ) (hx : x < 8) :
    (twice (inverseSum y x (cells c) 0 cosZero)).val = 16 * idctReal c y x := by
  rw [val_twice, val_inverseSum y x hx, cells_length, sum_cells, val_cosZero, idctReal, zero_add, Finset.mul_sum,
    Finset.mul_sum]
  refine Finset.sum_congr rfl fun i _ => ?_
  rw [Finset.mul_sum, Finset.mul_sum]
  refine Finset.sum_congr rfl fun j hj => ?_
  have hj := Finset.mem_range.mp hj
  rw [Nat.zero_add, rowOf_linear hj, colOf_linear hj]
  have e1 := scale_mul_basis y i
  have e2 := scale_mul_basis x j
  rw [show gCos (phase y i) = 2 * (dctScale i * dctBasis y i) by rw [e1]; ring,
    show gCos (phase x j) = 2 * (dctScale j * dctBasis x j) by rw [e2]; ring]
  simp only [cell]
  ring

end Sys2Proof.Machine
end

