-- ==== Sys2Proof/Laws/State.lean ====
section
/-!
SUPPORT. One lemma per field per named update of the state, so that no later proof unfolds a record update.
-/

namespace Sys2Proof.Machine

/-! ### setPlane leaves every field but the planes -/

@[simp] theorem setPlane_bufS (s : State) (p : PlaneId) (m : Memory) : (setPlane s p m).bufS = s.bufS := by
  cases p <;> rfl

@[simp] theorem setPlane_bufL (s : State) (p : PlaneId) (m : Memory) : (setPlane s p m).bufL = s.bufL := by
  cases p <;> rfl

@[simp] theorem setPlane_bufC (s : State) (p : PlaneId) (m : Memory) : (setPlane s p m).bufC = s.bufC := by
  cases p <;> rfl

@[simp] theorem setPlane_bufQ (s : State) (p : PlaneId) (m : Memory) : (setPlane s p m).bufQ = s.bufQ := by
  cases p <;> rfl

@[simp] theorem setPlane_bufZ (s : State) (p : PlaneId) (m : Memory) : (setPlane s p m).bufZ = s.bufZ := by
  cases p <;> rfl

@[simp] theorem setPlane_bufR (s : State) (p : PlaneId) (m : Memory) : (setPlane s p m).bufR = s.bufR := by
  cases p <;> rfl

@[simp] theorem setPlane_vS (s : State) (p : PlaneId) (m : Memory) : (setPlane s p m).vS = s.vS := by
  cases p <;> rfl

@[simp] theorem setPlane_vL (s : State) (p : PlaneId) (m : Memory) : (setPlane s p m).vL = s.vL := by
  cases p <;> rfl

@[simp] theorem setPlane_vC (s : State) (p : PlaneId) (m : Memory) : (setPlane s p m).vC = s.vC := by
  cases p <;> rfl

@[simp] theorem setPlane_vQ (s : State) (p : PlaneId) (m : Memory) : (setPlane s p m).vQ = s.vQ := by
  cases p <;> rfl

@[simp] theorem setPlane_vZ (s : State) (p : PlaneId) (m : Memory) : (setPlane s p m).vZ = s.vZ := by
  cases p <;> rfl

@[simp] theorem setPlane_vR (s : State) (p : PlaneId) (m : Memory) : (setPlane s p m).vR = s.vR := by
  cases p <;> rfl

@[simp] theorem setPlane_fc (s : State) (p : PlaneId) (m : Memory) : (setPlane s p m).fc = s.fc := by
  cases p <;> rfl

@[simp] theorem setPlane_fcmd (s : State) (p : PlaneId) (m : Memory) : (setPlane s p m).fcmd = s.fcmd := by
  cases p <;> rfl

@[simp] theorem setPlane_pw (s : State) (p : PlaneId) (m : Memory) : (setPlane s p m).pw = s.pw := by
  cases p <;> rfl

@[simp] theorem setPlane_ph (s : State) (p : PlaneId) (m : Memory) : (setPlane s p m).ph = s.ph := by
  cases p <;> rfl

@[simp] theorem setPlane_hold (s : State) (p : PlaneId) (m : Memory) : (setPlane s p m).hold = s.hold := by
  cases p <;> rfl

@[simp] theorem setPlane_istr (s : State) (p : PlaneId) (m : Memory) : (setPlane s p m).istr = s.istr := by
  cases p <;> rfl

@[simp] theorem setPlane_eos (s : State) (p : PlaneId) (m : Memory) : (setPlane s p m).eos = s.eos := by
  cases p <;> rfl

@[simp] theorem setPlane_ostr (s : State) (p : PlaneId) (m : Memory) : (setPlane s p m).ostr = s.ostr := by
  cases p <;> rfl

@[simp] theorem setPlane_ioAnswers (s : State) (p : PlaneId) (m : Memory) : (setPlane s p m).ioAnswers = s.ioAnswers := by
  cases p <;> rfl

@[simp] theorem setPlane_host (s : State) (p : PlaneId) (m : Memory) : (setPlane s p m).host = s.host := by
  cases p <;> rfl

@[simp] theorem setPlane_rsp (s : State) (p : PlaneId) (m : Memory) : (setPlane s p m).rsp = s.rsp := by
  cases p <;> rfl

@[simp] theorem setPlane_free (s : State) (p : PlaneId) (m : Memory) : (setPlane s p m).free = s.free := by
  cases p <;> rfl

@[simp] theorem planeOf_setPlane_same (s : State) (p : PlaneId) (m : Memory) : planeOf (setPlane s p m) p = m := by
  cases p <;> rfl

@[simp] theorem planeOf_setPlane_other (s : State) (p q : PlaneId) (m : Memory) (h : q ≠ p) :
    planeOf (setPlane s p m) q = planeOf s q := by
  cases p <;> cases q <;> first | rfl | exact absurd rfl h

/-! ### writePlane leaves every field but the planes -/

@[simp] theorem writePlane_bufS (s : State) (p : PlaneId) (a : Word) (b : Byte) :
    (writePlane s p a b).bufS = s.bufS := setPlane_bufS s p _

@[simp] theorem writePlane_bufL (s : State) (p : PlaneId) (a : Word) (b : Byte) :
    (writePlane s p a b).bufL = s.bufL := setPlane_bufL s p _

@[simp] theorem writePlane_bufC (s : State) (p : PlaneId) (a : Word) (b : Byte) :
    (writePlane s p a b).bufC = s.bufC := setPlane_bufC s p _

@[simp] theorem writePlane_bufQ (s : State) (p : PlaneId) (a : Word) (b : Byte) :
    (writePlane s p a b).bufQ = s.bufQ := setPlane_bufQ s p _

@[simp] theorem writePlane_bufZ (s : State) (p : PlaneId) (a : Word) (b : Byte) :
    (writePlane s p a b).bufZ = s.bufZ := setPlane_bufZ s p _

@[simp] theorem writePlane_bufR (s : State) (p : PlaneId) (a : Word) (b : Byte) :
    (writePlane s p a b).bufR = s.bufR := setPlane_bufR s p _

@[simp] theorem writePlane_vS (s : State) (p : PlaneId) (a : Word) (b : Byte) :
    (writePlane s p a b).vS = s.vS := setPlane_vS s p _

@[simp] theorem writePlane_vL (s : State) (p : PlaneId) (a : Word) (b : Byte) :
    (writePlane s p a b).vL = s.vL := setPlane_vL s p _

@[simp] theorem writePlane_vC (s : State) (p : PlaneId) (a : Word) (b : Byte) :
    (writePlane s p a b).vC = s.vC := setPlane_vC s p _

@[simp] theorem writePlane_vQ (s : State) (p : PlaneId) (a : Word) (b : Byte) :
    (writePlane s p a b).vQ = s.vQ := setPlane_vQ s p _

@[simp] theorem writePlane_vZ (s : State) (p : PlaneId) (a : Word) (b : Byte) :
    (writePlane s p a b).vZ = s.vZ := setPlane_vZ s p _

@[simp] theorem writePlane_vR (s : State) (p : PlaneId) (a : Word) (b : Byte) :
    (writePlane s p a b).vR = s.vR := setPlane_vR s p _

@[simp] theorem writePlane_fc (s : State) (p : PlaneId) (a : Word) (b : Byte) :
    (writePlane s p a b).fc = s.fc := setPlane_fc s p _

@[simp] theorem writePlane_fcmd (s : State) (p : PlaneId) (a : Word) (b : Byte) :
    (writePlane s p a b).fcmd = s.fcmd := setPlane_fcmd s p _

@[simp] theorem writePlane_pw (s : State) (p : PlaneId) (a : Word) (b : Byte) :
    (writePlane s p a b).pw = s.pw := setPlane_pw s p _

@[simp] theorem writePlane_ph (s : State) (p : PlaneId) (a : Word) (b : Byte) :
    (writePlane s p a b).ph = s.ph := setPlane_ph s p _

@[simp] theorem writePlane_hold (s : State) (p : PlaneId) (a : Word) (b : Byte) :
    (writePlane s p a b).hold = s.hold := setPlane_hold s p _

@[simp] theorem writePlane_istr (s : State) (p : PlaneId) (a : Word) (b : Byte) :
    (writePlane s p a b).istr = s.istr := setPlane_istr s p _

@[simp] theorem writePlane_eos (s : State) (p : PlaneId) (a : Word) (b : Byte) :
    (writePlane s p a b).eos = s.eos := setPlane_eos s p _

@[simp] theorem writePlane_ostr (s : State) (p : PlaneId) (a : Word) (b : Byte) :
    (writePlane s p a b).ostr = s.ostr := setPlane_ostr s p _

@[simp] theorem writePlane_ioAnswers (s : State) (p : PlaneId) (a : Word) (b : Byte) :
    (writePlane s p a b).ioAnswers = s.ioAnswers := setPlane_ioAnswers s p _

@[simp] theorem writePlane_host (s : State) (p : PlaneId) (a : Word) (b : Byte) :
    (writePlane s p a b).host = s.host := setPlane_host s p _

@[simp] theorem writePlane_rsp (s : State) (p : PlaneId) (a : Word) (b : Byte) :
    (writePlane s p a b).rsp = s.rsp := setPlane_rsp s p _

@[simp] theorem writePlane_free (s : State) (p : PlaneId) (a : Word) (b : Byte) :
    (writePlane s p a b).free = s.free := setPlane_free s p _

/-! ### writePlanes leaves every field but the planes -/

@[simp] theorem writePlanes_bufS (ws : List (PlaneId × Word × Byte)) (s : State) :
    (writePlanes s ws).bufS = s.bufS := by
  induction ws generalizing s with
  | nil => rfl
  | cons w ws ih => exact (ih _).trans (writePlane_bufS s w.1 w.2.1 w.2.2)

@[simp] theorem writePlanes_bufL (ws : List (PlaneId × Word × Byte)) (s : State) :
    (writePlanes s ws).bufL = s.bufL := by
  induction ws generalizing s with
  | nil => rfl
  | cons w ws ih => exact (ih _).trans (writePlane_bufL s w.1 w.2.1 w.2.2)

@[simp] theorem writePlanes_bufC (ws : List (PlaneId × Word × Byte)) (s : State) :
    (writePlanes s ws).bufC = s.bufC := by
  induction ws generalizing s with
  | nil => rfl
  | cons w ws ih => exact (ih _).trans (writePlane_bufC s w.1 w.2.1 w.2.2)

@[simp] theorem writePlanes_bufQ (ws : List (PlaneId × Word × Byte)) (s : State) :
    (writePlanes s ws).bufQ = s.bufQ := by
  induction ws generalizing s with
  | nil => rfl
  | cons w ws ih => exact (ih _).trans (writePlane_bufQ s w.1 w.2.1 w.2.2)

@[simp] theorem writePlanes_bufZ (ws : List (PlaneId × Word × Byte)) (s : State) :
    (writePlanes s ws).bufZ = s.bufZ := by
  induction ws generalizing s with
  | nil => rfl
  | cons w ws ih => exact (ih _).trans (writePlane_bufZ s w.1 w.2.1 w.2.2)

@[simp] theorem writePlanes_bufR (ws : List (PlaneId × Word × Byte)) (s : State) :
    (writePlanes s ws).bufR = s.bufR := by
  induction ws generalizing s with
  | nil => rfl
  | cons w ws ih => exact (ih _).trans (writePlane_bufR s w.1 w.2.1 w.2.2)

@[simp] theorem writePlanes_vS (ws : List (PlaneId × Word × Byte)) (s : State) :
    (writePlanes s ws).vS = s.vS := by
  induction ws generalizing s with
  | nil => rfl
  | cons w ws ih => exact (ih _).trans (writePlane_vS s w.1 w.2.1 w.2.2)

@[simp] theorem writePlanes_vL (ws : List (PlaneId × Word × Byte)) (s : State) :
    (writePlanes s ws).vL = s.vL := by
  induction ws generalizing s with
  | nil => rfl
  | cons w ws ih => exact (ih _).trans (writePlane_vL s w.1 w.2.1 w.2.2)

@[simp] theorem writePlanes_vC (ws : List (PlaneId × Word × Byte)) (s : State) :
    (writePlanes s ws).vC = s.vC := by
  induction ws generalizing s with
  | nil => rfl
  | cons w ws ih => exact (ih _).trans (writePlane_vC s w.1 w.2.1 w.2.2)

@[simp] theorem writePlanes_vQ (ws : List (PlaneId × Word × Byte)) (s : State) :
    (writePlanes s ws).vQ = s.vQ := by
  induction ws generalizing s with
  | nil => rfl
  | cons w ws ih => exact (ih _).trans (writePlane_vQ s w.1 w.2.1 w.2.2)

@[simp] theorem writePlanes_vZ (ws : List (PlaneId × Word × Byte)) (s : State) :
    (writePlanes s ws).vZ = s.vZ := by
  induction ws generalizing s with
  | nil => rfl
  | cons w ws ih => exact (ih _).trans (writePlane_vZ s w.1 w.2.1 w.2.2)

@[simp] theorem writePlanes_vR (ws : List (PlaneId × Word × Byte)) (s : State) :
    (writePlanes s ws).vR = s.vR := by
  induction ws generalizing s with
  | nil => rfl
  | cons w ws ih => exact (ih _).trans (writePlane_vR s w.1 w.2.1 w.2.2)

@[simp] theorem writePlanes_fc (ws : List (PlaneId × Word × Byte)) (s : State) :
    (writePlanes s ws).fc = s.fc := by
  induction ws generalizing s with
  | nil => rfl
  | cons w ws ih => exact (ih _).trans (writePlane_fc s w.1 w.2.1 w.2.2)

@[simp] theorem writePlanes_fcmd (ws : List (PlaneId × Word × Byte)) (s : State) :
    (writePlanes s ws).fcmd = s.fcmd := by
  induction ws generalizing s with
  | nil => rfl
  | cons w ws ih => exact (ih _).trans (writePlane_fcmd s w.1 w.2.1 w.2.2)

@[simp] theorem writePlanes_pw (ws : List (PlaneId × Word × Byte)) (s : State) :
    (writePlanes s ws).pw = s.pw := by
  induction ws generalizing s with
  | nil => rfl
  | cons w ws ih => exact (ih _).trans (writePlane_pw s w.1 w.2.1 w.2.2)

@[simp] theorem writePlanes_ph (ws : List (PlaneId × Word × Byte)) (s : State) :
    (writePlanes s ws).ph = s.ph := by
  induction ws generalizing s with
  | nil => rfl
  | cons w ws ih => exact (ih _).trans (writePlane_ph s w.1 w.2.1 w.2.2)

@[simp] theorem writePlanes_hold (ws : List (PlaneId × Word × Byte)) (s : State) :
    (writePlanes s ws).hold = s.hold := by
  induction ws generalizing s with
  | nil => rfl
  | cons w ws ih => exact (ih _).trans (writePlane_hold s w.1 w.2.1 w.2.2)

@[simp] theorem writePlanes_istr (ws : List (PlaneId × Word × Byte)) (s : State) :
    (writePlanes s ws).istr = s.istr := by
  induction ws generalizing s with
  | nil => rfl
  | cons w ws ih => exact (ih _).trans (writePlane_istr s w.1 w.2.1 w.2.2)

@[simp] theorem writePlanes_eos (ws : List (PlaneId × Word × Byte)) (s : State) :
    (writePlanes s ws).eos = s.eos := by
  induction ws generalizing s with
  | nil => rfl
  | cons w ws ih => exact (ih _).trans (writePlane_eos s w.1 w.2.1 w.2.2)

@[simp] theorem writePlanes_ostr (ws : List (PlaneId × Word × Byte)) (s : State) :
    (writePlanes s ws).ostr = s.ostr := by
  induction ws generalizing s with
  | nil => rfl
  | cons w ws ih => exact (ih _).trans (writePlane_ostr s w.1 w.2.1 w.2.2)

@[simp] theorem writePlanes_ioAnswers (ws : List (PlaneId × Word × Byte)) (s : State) :
    (writePlanes s ws).ioAnswers = s.ioAnswers := by
  induction ws generalizing s with
  | nil => rfl
  | cons w ws ih => exact (ih _).trans (writePlane_ioAnswers s w.1 w.2.1 w.2.2)

@[simp] theorem writePlanes_host (ws : List (PlaneId × Word × Byte)) (s : State) :
    (writePlanes s ws).host = s.host := by
  induction ws generalizing s with
  | nil => rfl
  | cons w ws ih => exact (ih _).trans (writePlane_host s w.1 w.2.1 w.2.2)

@[simp] theorem writePlanes_rsp (ws : List (PlaneId × Word × Byte)) (s : State) :
    (writePlanes s ws).rsp = s.rsp := by
  induction ws generalizing s with
  | nil => rfl
  | cons w ws ih => exact (ih _).trans (writePlane_rsp s w.1 w.2.1 w.2.2)

@[simp] theorem writePlanes_free (ws : List (PlaneId × Word × Byte)) (s : State) :
    (writePlanes s ws).free = s.free := by
  induction ws generalizing s with
  | nil => rfl
  | cons w ws ih => exact (ih _).trans (writePlane_free s w.1 w.2.1 w.2.2)

/-! ### takeFault writes FC and FCMD and ends the command -/

@[simp] theorem takeFault_bufS (f : FaultCode) (w : Word) (s : State) : (takeFault f w s).bufS = s.bufS := by
  unfold takeFault; split <;> rfl

@[simp] theorem takeFault_bufL (f : FaultCode) (w : Word) (s : State) : (takeFault f w s).bufL = s.bufL := by
  unfold takeFault; split <;> rfl

@[simp] theorem takeFault_bufC (f : FaultCode) (w : Word) (s : State) : (takeFault f w s).bufC = s.bufC := by
  unfold takeFault; split <;> rfl

@[simp] theorem takeFault_bufQ (f : FaultCode) (w : Word) (s : State) : (takeFault f w s).bufQ = s.bufQ := by
  unfold takeFault; split <;> rfl

@[simp] theorem takeFault_bufZ (f : FaultCode) (w : Word) (s : State) : (takeFault f w s).bufZ = s.bufZ := by
  unfold takeFault; split <;> rfl

@[simp] theorem takeFault_bufR (f : FaultCode) (w : Word) (s : State) : (takeFault f w s).bufR = s.bufR := by
  unfold takeFault; split <;> rfl

@[simp] theorem takeFault_vS (f : FaultCode) (w : Word) (s : State) : (takeFault f w s).vS = s.vS := by
  unfold takeFault; split <;> rfl

@[simp] theorem takeFault_vL (f : FaultCode) (w : Word) (s : State) : (takeFault f w s).vL = s.vL := by
  unfold takeFault; split <;> rfl

@[simp] theorem takeFault_vC (f : FaultCode) (w : Word) (s : State) : (takeFault f w s).vC = s.vC := by
  unfold takeFault; split <;> rfl

@[simp] theorem takeFault_vQ (f : FaultCode) (w : Word) (s : State) : (takeFault f w s).vQ = s.vQ := by
  unfold takeFault; split <;> rfl

@[simp] theorem takeFault_vZ (f : FaultCode) (w : Word) (s : State) : (takeFault f w s).vZ = s.vZ := by
  unfold takeFault; split <;> rfl

@[simp] theorem takeFault_vR (f : FaultCode) (w : Word) (s : State) : (takeFault f w s).vR = s.vR := by
  unfold takeFault; split <;> rfl

@[simp] theorem takeFault_pw (f : FaultCode) (w : Word) (s : State) : (takeFault f w s).pw = s.pw := by
  unfold takeFault; split <;> rfl

@[simp] theorem takeFault_ph (f : FaultCode) (w : Word) (s : State) : (takeFault f w s).ph = s.ph := by
  unfold takeFault; split <;> rfl

@[simp] theorem takeFault_istr (f : FaultCode) (w : Word) (s : State) : (takeFault f w s).istr = s.istr := by
  unfold takeFault; split <;> rfl

@[simp] theorem takeFault_eos (f : FaultCode) (w : Word) (s : State) : (takeFault f w s).eos = s.eos := by
  unfold takeFault; split <;> rfl

@[simp] theorem takeFault_ostr (f : FaultCode) (w : Word) (s : State) : (takeFault f w s).ostr = s.ostr := by
  unfold takeFault; split <;> rfl

@[simp] theorem takeFault_planeY (f : FaultCode) (w : Word) (s : State) : (takeFault f w s).planeY = s.planeY := by
  unfold takeFault; split <;> rfl

@[simp] theorem takeFault_planeCr (f : FaultCode) (w : Word) (s : State) : (takeFault f w s).planeCr = s.planeCr := by
  unfold takeFault; split <;> rfl

@[simp] theorem takeFault_planeCb (f : FaultCode) (w : Word) (s : State) : (takeFault f w s).planeCb = s.planeCb := by
  unfold takeFault; split <;> rfl

@[simp] theorem takeFault_ioAnswers (f : FaultCode) (w : Word) (s : State) : (takeFault f w s).ioAnswers = s.ioAnswers := by
  unfold takeFault; split <;> rfl

@[simp] theorem takeFault_host (f : FaultCode) (w : Word) (s : State) : (takeFault f w s).host = s.host := by
  unfold takeFault; split <;> rfl

@[simp] theorem takeFault_rsp (f : FaultCode) (w : Word) (s : State) : (takeFault f w s).rsp = s.rsp := by
  unfold takeFault; split <;> rfl

@[simp] theorem takeFault_free (f : FaultCode) (w : Word) (s : State) : (takeFault f w s).free = s.free := by
  unfold takeFault; split <;> rfl

theorem takeFault_of_none {f : FaultCode} {w : Word} {s : State} (h : s.fc = none) :
    takeFault f w s = { s with fc := some f, fcmd := w, hold := none } := if_pos h

theorem takeFault_of_some {f g : FaultCode} {w : Word} {s : State} (h : s.fc = some g) : takeFault f w s = s :=
  if_neg (by simp [h])

@[simp] theorem takeFault_halted (f : FaultCode) (w : Word) (s : State) : (takeFault f w s).halted = true := by
  unfold takeFault State.halted; split
  · rfl
  · next h => exact Option.isSome_iff_ne_none.mpr h

/-! ### applyReset keeps the streams, the planes and the host's side -/

@[simp] theorem applyReset_bufS (s : State) : (applyReset s).bufS = State.reset.bufS := rfl

@[simp] theorem applyReset_bufL (s : State) : (applyReset s).bufL = State.reset.bufL := rfl

@[simp] theorem applyReset_bufC (s : State) : (applyReset s).bufC = State.reset.bufC := rfl

@[simp] theorem applyReset_bufQ (s : State) : (applyReset s).bufQ = State.reset.bufQ := rfl

@[simp] theorem applyReset_bufZ (s : State) : (applyReset s).bufZ = State.reset.bufZ := rfl

@[simp] theorem applyReset_bufR (s : State) : (applyReset s).bufR = State.reset.bufR := rfl

@[simp] theorem applyReset_vS (s : State) : (applyReset s).vS = State.reset.vS := rfl

@[simp] theorem applyReset_vL (s : State) : (applyReset s).vL = State.reset.vL := rfl

@[simp] theorem applyReset_vC (s : State) : (applyReset s).vC = State.reset.vC := rfl

@[simp] theorem applyReset_vQ (s : State) : (applyReset s).vQ = State.reset.vQ := rfl

@[simp] theorem applyReset_vZ (s : State) : (applyReset s).vZ = State.reset.vZ := rfl

@[simp] theorem applyReset_vR (s : State) : (applyReset s).vR = State.reset.vR := rfl

@[simp] theorem applyReset_fc (s : State) : (applyReset s).fc = State.reset.fc := rfl

@[simp] theorem applyReset_fcmd (s : State) : (applyReset s).fcmd = State.reset.fcmd := rfl

@[simp] theorem applyReset_pw (s : State) : (applyReset s).pw = State.reset.pw := rfl

@[simp] theorem applyReset_ph (s : State) : (applyReset s).ph = State.reset.ph := rfl

@[simp] theorem applyReset_hold (s : State) : (applyReset s).hold = State.reset.hold := rfl

@[simp] theorem applyReset_istr (s : State) : (applyReset s).istr = s.istr := rfl

@[simp] theorem applyReset_eos (s : State) : (applyReset s).eos = s.eos := rfl

@[simp] theorem applyReset_ostr (s : State) : (applyReset s).ostr = s.ostr := rfl

@[simp] theorem applyReset_planeY (s : State) : (applyReset s).planeY = s.planeY := rfl

@[simp] theorem applyReset_planeCr (s : State) : (applyReset s).planeCr = s.planeCr := rfl

@[simp] theorem applyReset_planeCb (s : State) : (applyReset s).planeCb = s.planeCb := rfl

@[simp] theorem applyReset_ioAnswers (s : State) : (applyReset s).ioAnswers = s.ioAnswers := rfl

@[simp] theorem applyReset_host (s : State) : (applyReset s).host = s.host := rfl

@[simp] theorem applyReset_rsp (s : State) : (applyReset s).rsp = s.rsp := rfl

@[simp] theorem applyReset_free (s : State) : (applyReset s).free = s.free := rfl

/-! ### windowRead changes only what the host is told -/

@[simp] theorem windowRead_bufS (b : BufId) (k : Nat) (s : State) : (windowRead b k s).bufS = s.bufS := by
  unfold windowRead; split <;> rfl

@[simp] theorem windowRead_bufL (b : BufId) (k : Nat) (s : State) : (windowRead b k s).bufL = s.bufL := by
  unfold windowRead; split <;> rfl

@[simp] theorem windowRead_bufC (b : BufId) (k : Nat) (s : State) : (windowRead b k s).bufC = s.bufC := by
  unfold windowRead; split <;> rfl

@[simp] theorem windowRead_bufQ (b : BufId) (k : Nat) (s : State) : (windowRead b k s).bufQ = s.bufQ := by
  unfold windowRead; split <;> rfl

@[simp] theorem windowRead_bufZ (b : BufId) (k : Nat) (s : State) : (windowRead b k s).bufZ = s.bufZ := by
  unfold windowRead; split <;> rfl

@[simp] theorem windowRead_bufR (b : BufId) (k : Nat) (s : State) : (windowRead b k s).bufR = s.bufR := by
  unfold windowRead; split <;> rfl

@[simp] theorem windowRead_vS (b : BufId) (k : Nat) (s : State) : (windowRead b k s).vS = s.vS := by
  unfold windowRead; split <;> rfl

@[simp] theorem windowRead_vL (b : BufId) (k : Nat) (s : State) : (windowRead b k s).vL = s.vL := by
  unfold windowRead; split <;> rfl

@[simp] theorem windowRead_vC (b : BufId) (k : Nat) (s : State) : (windowRead b k s).vC = s.vC := by
  unfold windowRead; split <;> rfl

@[simp] theorem windowRead_vQ (b : BufId) (k : Nat) (s : State) : (windowRead b k s).vQ = s.vQ := by
  unfold windowRead; split <;> rfl

@[simp] theorem windowRead_vZ (b : BufId) (k : Nat) (s : State) : (windowRead b k s).vZ = s.vZ := by
  unfold windowRead; split <;> rfl

@[simp] theorem windowRead_vR (b : BufId) (k : Nat) (s : State) : (windowRead b k s).vR = s.vR := by
  unfold windowRead; split <;> rfl

@[simp] theorem windowRead_fc (b : BufId) (k : Nat) (s : State) : (windowRead b k s).fc = s.fc := by
  unfold windowRead; split <;> rfl

@[simp] theorem windowRead_fcmd (b : BufId) (k : Nat) (s : State) : (windowRead b k s).fcmd = s.fcmd := by
  unfold windowRead; split <;> rfl

@[simp] theorem windowRead_pw (b : BufId) (k : Nat) (s : State) : (windowRead b k s).pw = s.pw := by
  unfold windowRead; split <;> rfl

@[simp] theorem windowRead_ph (b : BufId) (k : Nat) (s : State) : (windowRead b k s).ph = s.ph := by
  unfold windowRead; split <;> rfl

@[simp] theorem windowRead_hold (b : BufId) (k : Nat) (s : State) : (windowRead b k s).hold = s.hold := by
  unfold windowRead; split <;> rfl

@[simp] theorem windowRead_istr (b : BufId) (k : Nat) (s : State) : (windowRead b k s).istr = s.istr := by
  unfold windowRead; split <;> rfl

@[simp] theorem windowRead_eos (b : BufId) (k : Nat) (s : State) : (windowRead b k s).eos = s.eos := by
  unfold windowRead; split <;> rfl

@[simp] theorem windowRead_ostr (b : BufId) (k : Nat) (s : State) : (windowRead b k s).ostr = s.ostr := by
  unfold windowRead; split <;> rfl

@[simp] theorem windowRead_planeY (b : BufId) (k : Nat) (s : State) : (windowRead b k s).planeY = s.planeY := by
  unfold windowRead; split <;> rfl

@[simp] theorem windowRead_planeCr (b : BufId) (k : Nat) (s : State) : (windowRead b k s).planeCr = s.planeCr := by
  unfold windowRead; split <;> rfl

@[simp] theorem windowRead_planeCb (b : BufId) (k : Nat) (s : State) : (windowRead b k s).planeCb = s.planeCb := by
  unfold windowRead; split <;> rfl

@[simp] theorem windowRead_ioAnswers (b : BufId) (k : Nat) (s : State) : (windowRead b k s).ioAnswers = s.ioAnswers := by
  unfold windowRead; split <;> rfl

@[simp] theorem windowRead_host (b : BufId) (k : Nat) (s : State) : (windowRead b k s).host = s.host := by
  unfold windowRead; split <;> rfl

/-! ### windowWrite changes only a buffer and its valid bit -/

@[simp] theorem windowWrite_fc (b : BufId) (v : Vector Word 64) (s : State) :
    (windowWrite b v s).fc = s.fc := by
  cases b <;> rfl

@[simp] theorem windowWrite_fcmd (b : BufId) (v : Vector Word 64) (s : State) :
    (windowWrite b v s).fcmd = s.fcmd := by
  cases b <;> rfl

@[simp] theorem windowWrite_pw (b : BufId) (v : Vector Word 64) (s : State) :
    (windowWrite b v s).pw = s.pw := by
  cases b <;> rfl

@[simp] theorem windowWrite_ph (b : BufId) (v : Vector Word 64) (s : State) :
    (windowWrite b v s).ph = s.ph := by
  cases b <;> rfl

@[simp] theorem windowWrite_hold (b : BufId) (v : Vector Word 64) (s : State) :
    (windowWrite b v s).hold = s.hold := by
  cases b <;> rfl

@[simp] theorem windowWrite_istr (b : BufId) (v : Vector Word 64) (s : State) :
    (windowWrite b v s).istr = s.istr := by
  cases b <;> rfl

@[simp] theorem windowWrite_eos (b : BufId) (v : Vector Word 64) (s : State) :
    (windowWrite b v s).eos = s.eos := by
  cases b <;> rfl

@[simp] theorem windowWrite_ostr (b : BufId) (v : Vector Word 64) (s : State) :
    (windowWrite b v s).ostr = s.ostr := by
  cases b <;> rfl

@[simp] theorem windowWrite_planeY (b : BufId) (v : Vector Word 64) (s : State) :
    (windowWrite b v s).planeY = s.planeY := by
  cases b <;> rfl

@[simp] theorem windowWrite_planeCr (b : BufId) (v : Vector Word 64) (s : State) :
    (windowWrite b v s).planeCr = s.planeCr := by
  cases b <;> rfl

@[simp] theorem windowWrite_planeCb (b : BufId) (v : Vector Word 64) (s : State) :
    (windowWrite b v s).planeCb = s.planeCb := by
  cases b <;> rfl

@[simp] theorem windowWrite_ioAnswers (b : BufId) (v : Vector Word 64) (s : State) :
    (windowWrite b v s).ioAnswers = s.ioAnswers := by
  cases b <;> rfl

@[simp] theorem windowWrite_host (b : BufId) (v : Vector Word 64) (s : State) :
    (windowWrite b v s).host = s.host := by
  cases b <;> rfl

@[simp] theorem windowWrite_rsp (b : BufId) (v : Vector Word 64) (s : State) :
    (windowWrite b v s).rsp = s.rsp := by
  cases b <;> rfl

@[simp] theorem windowWrite_free (b : BufId) (v : Vector Word 64) (s : State) :
    (windowWrite b v s).free = s.free := by
  cases b <;> rfl

@[simp] theorem validBit_windowWrite (b : BufId) (v : Vector Word 64) (s : State) (d : BufId) :
    validBit (windowWrite b v s) d = (decide (d = b) || validBit s d) := by
  cases b <;> cases d <;> rfl

end Sys2Proof.Machine
end

