-- ==== Sys2Proof/Laws/Memory.lean ====
section
/-!
SUPPORT. The plane spaces: a read after a write, and that every memory operation keeps the canonical form.
-/

namespace Sys2Proof.Machine

/-- A read after a write to the same address gives the byte written. -/
@[simp] theorem readByte_writeByte_same (m : Memory) (a : Nat) (v : Byte) : readByte (writeByte m a v) a = some v := by
  induction m with
  | nil => simp [writeByte, readByte]
  | cons x m ih =>
    obtain ⟨b, u⟩ := x
    unfold writeByte
    split
    · simp [readByte]
    · split
      · simp [readByte]
      · next h => simp [readByte, h, ih]

/-- A write leaves every other address alone. -/
@[simp] theorem readByte_writeByte_other (m : Memory) {a c : Nat} (v : Byte) (h : c ≠ a) :
    readByte (writeByte m a v) c = readByte m c := by
  induction m with
  | nil => simp [writeByte, readByte, Ne.symm h]
  | cons x m ih =>
    obtain ⟨b, u⟩ := x
    unfold writeByte
    split
    · simp [readByte, Ne.symm h]
    · split
      · next hb => subst hb; simp [readByte, Ne.symm h]
      · simp [readByte, ih]

/-- The addresses a write can list are those listed before and the one written. -/
theorem mem_writeByte {m : Memory} {a : Nat} {v : Byte} {x : Host.Cell} (h : x ∈ writeByte m a v) :
    x = (a, v) ∨ x ∈ m := by
  induction m with
  | nil => simpa [writeByte] using h
  | cons y m ih =>
    obtain ⟨b, u⟩ := y
    unfold writeByte at h
    split at h
    · simpa using h
    · split at h
      · rcases List.mem_cons.mp h with h | h
        · exact .inl h
        · exact .inr (List.mem_cons_of_mem _ h)
      · rcases List.mem_cons.mp h with h | h
        · exact .inr (h ▸ List.mem_cons_self)
        · exact (ih h).imp id (List.mem_cons_of_mem _)

/-- A write keeps the addresses strictly rising. -/
theorem writeByte_pairwise {m : Memory} (a : Nat) (v : Byte) (h : m.Pairwise (fun x y => x.1 < y.1)) :
    (writeByte m a v).Pairwise (fun x y => x.1 < y.1) := by
  induction m with
  | nil => simp [writeByte]
  | cons y m ih =>
    obtain ⟨b, u⟩ := y
    obtain ⟨hb, hm⟩ := List.pairwise_cons.mp h
    unfold writeByte
    split
    · next hab =>
      refine List.pairwise_cons.mpr ⟨fun z hz => ?_, h⟩
      rcases List.mem_cons.mp hz with rfl | hz
      · exact hab
      · exact hab.trans (hb z hz)
    · split
      · next hba => exact List.pairwise_cons.mpr ⟨fun z hz => hba ▸ hb z hz, hm⟩
      · next hab hba =>
        refine List.pairwise_cons.mpr ⟨fun z hz => ?_, ih hm⟩
        rcases mem_writeByte hz with rfl | hz
        · exact lt_of_le_of_ne (not_lt.mp hab) hba
        · exact hb z hz

/-- A write at a 32-bit address keeps the canonical form. -/
theorem writeByte_wf {m : Memory} {a : Nat} (v : Byte) (h : MemoryWf m) (ha : a < 2 ^ 32) :
    MemoryWf (writeByte m a v) :=
  ⟨writeByte_pairwise a v h.1, fun x hx => (mem_writeByte hx).elim (fun e => e ▸ ha) (h.2 x)⟩

/-- Replacing a plane by a memory in canonical form keeps every plane in canonical form. -/
theorem setPlane_wf {s : State} {p : PlaneId} {m : Memory} (h : ∀ q, MemoryWf (planeOf s q)) (hm : MemoryWf m) (q : PlaneId) :
    MemoryWf (planeOf (setPlane s p m) q) := by
  by_cases e : q = p
  · subst e; simpa using hm
  · rw [planeOf_setPlane_other s p q m e]; exact h q

/-- A host write keeps every plane in canonical form. -/
theorem writePlane_wf {s : State} (p : PlaneId) (a : Word) (b : Byte) (h : ∀ q, MemoryWf (planeOf s q)) (q : PlaneId) :
    MemoryWf (planeOf (writePlane s p a b) q) :=
  setPlane_wf h (writeByte_wf b (h p) a.isLt) q

/-- The planes right after reset are in canonical form. -/
theorem reset_planes_wf (q : PlaneId) : MemoryWf (planeOf State.reset q) := by
  cases q <;> exact ⟨List.Pairwise.nil, by simp [planeOf, State.reset]⟩

/-- A plane read after a host write to the same place gives the byte written. -/
theorem memRead_writePlane_same (s : State) (p : PlaneId) (a : Word) (b : Byte) :
    memRead (writePlane s p a b) p a.toNat = b := by
  simp [memRead, writePlane]

/-- A host write leaves every other byte of every plane alone. -/
theorem memRead_writePlane_other (s : State) (p q : PlaneId) (a : Word) (b : Byte) (c : Nat) (h : q ≠ p ∨ c ≠ a.toNat) :
    memRead (writePlane s p a b) q c = memRead s q c := by
  by_cases e : q = p
  · subst e
    have hc : c ≠ a.toNat := h.resolve_left (fun hn => hn rfl)
    simp [memRead, writePlane, hc]
  · simp [memRead, writePlane, e]

end Sys2Proof.Machine
end

