-- ==== Sys2Proof/Laws/Ops.lean ====
section
/-!
SUPPORT. For each shared operation, one lemma that says what it can do; the proofs cite these and do not unfold it.
-/

namespace Sys2Proof.Machine

/-! ### Status -/

theorem ready_iff (s : State) : s.ready = true ↔ s.hold = none ∧ s.fc = none := by
  simp [State.ready, State.halted]

theorem not_ready_iff (s : State) : s.ready = false ↔ s.hold ≠ none ∨ s.fc ≠ none := by
  rw [← Bool.not_eq_true, ready_iff]; tauto

theorem busy_iff (s : State) : s.busy = true ↔ s.hold ≠ none ∧ s.fc = none := by
  simp [State.busy, State.halted, Option.isSome_iff_ne_none]

theorem halted_iff (s : State) : s.halted = true ↔ s.fc ≠ none := Option.isSome_iff_ne_none

theorem not_busy_of_ready {s : State} (h : s.ready = true) : s.busy = false := by
  have h1 := (ready_iff s).mp h
  simp [State.busy, h1.1]

theorem not_busy_of_halted {s : State} (h : s.halted = true) : s.busy = false := by simp [State.busy, h]

/-! ### The frame of a command -/

theorem whenReady_ready {s : State} (h : s.ready = true) (t : State) : whenReady s t = .next t := by simp [whenReady, h]

theorem whenReady_not_ready {s : State} (h : s.ready = false) (t : State) : whenReady s t = .next s := by
  simp [whenReady, h]

/-- A command that answers either ran on a ready CORE or changed nothing. -/
theorem whenReady_cases {s t u : State} (h : whenReady s t = .next u) :
    (s.ready = true ∧ u = t) ∨ (s.ready = false ∧ u = s) := by
  cases e : s.ready <;> simp [whenReady, e] at h <;> simp [h]

theorem fromSource_valid {i : Instr} {s : State} (h : s.ready = true) (t : State) :
    fromSource i true s t = .next t := by simp [fromSource, whenReady, h]

theorem fromSource_invalid {i : Instr} {s : State} (h : s.ready = true) (t : State) :
    fromSource i false s t = .next (takeFault .noSrc (encode i) s) := by simp [fromSource, whenReady, h]

/-- A command that reads a buffer either changed nothing, or faulted F_NOSRC, or ran. -/
theorem fromSource_cases {i : Instr} {v : Bool} {s t u : State} (h : fromSource i v s t = .next u) :
    (s.ready = false ∧ u = s) ∨ (s.ready = true ∧ v = false ∧ u = takeFault .noSrc (encode i) s)
      ∨ (s.ready = true ∧ v = true ∧ u = t) := by
  cases v <;> cases e : s.ready <;> simp [fromSource, whenReady, e] at h <;> simp [h]

/-- Every command answers with a next state. -/
theorem whenReady_next (s t : State) : ∃ u, whenReady s t = .next u := ⟨_, rfl⟩

/-! ### The oracle -/

/-- With no error among the answers asked for, nothing fails and just those answers are used up. -/
theorem askOracle_ok : ∀ (n : Nat) (io : List Bool), true ∉ io.take n → askOracle n io = (false, io.drop n)
  | 0, io, _ => by simp [askOracle]
  | n + 1, [], _ => by simp [askOracle]
  | n + 1, e :: io, h => by
    have he : e = false := by cases e <;> simp_all
    subst he
    simpa [askOracle] using askOracle_ok n io (by simpa using h)

/-- With an error among them, the access fails. -/
theorem askOracle_error : ∀ (n : Nat) (io : List Bool), true ∈ io.take n → (askOracle n io).1 = true
  | 0, io, h => by simp at h
  | n + 1, [], h => by simp at h
  | n + 1, e :: io, h => by
    cases e
    · simpa [askOracle] using askOracle_error n io (by simpa using h)
    · simp [askOracle]

/-! ### OSTR -/

/-- With no error among the answers asked for, every byte is appended. -/
theorem putBytes_ok : ∀ (bs : List Byte) (io : List Bool), true ∉ io.take bs.length →
    putBytes bs io = ⟨bs, false, io.drop bs.length⟩
  | [], io, _ => by simp [putBytes]
  | b :: bs, [], _ => by simp [putBytes, askOracle, putBytes_ok bs [] (by simp)]
  | b :: bs, e :: io, h => by
    have he : e = false := by cases e <;> simp_all
    subst he
    simp [putBytes, askOracle, putBytes_ok bs io (by simpa using h)]

/-- Whatever the answers, the bytes appended are the first ones, in order. -/
theorem putBytes_prefix : ∀ (bs : List Byte) (io : List Bool), (putBytes bs io).appended <+: bs
  | [], io => by simp [putBytes]
  | b :: bs, io => by
    simp only [putBytes]
    split
    · simp
    · simpa using putBytes_prefix bs _

/-! ### RLD -/

/-- What the loop can end in: complete, waiting or faulted by RLD's own faults, with at most 64 cells filled. -/
theorem decodeLoop_cases (eos keep : Bool) : ∀ (bs : List Byte) (io : List Bool) (h : RldHold), h.filled.length ≤ 64 →
    (∃ filled, (decodeLoop eos keep bs io h).stop = .done filled ∧ filled.length ≤ 64)
      ∨ (∃ h', (decodeLoop eos keep bs io h).stop = .wait h' ∧ h'.filled.length ≤ 64 ∧ eos = false)
      ∨ (∃ f, (decodeLoop eos keep bs io h).stop = .fault f ∧ f ∈ [FaultCode.trunc, .overrun, .badSym, .io])
  | [], io, h, hl => by
    cases eos
    · exact .inr (.inl ⟨h, rfl, hl, rfl⟩)
    · exact .inr (.inr ⟨.trunc, rfl, by simp⟩)
  | b :: bs, io, h, hl => by
    simp only [decodeLoop]
    split
    · exact .inr (.inr ⟨.io, rfl, by simp⟩)
    · split
      · exact decodeLoop_cases eos keep bs _ _ hl
      · next value _ =>
        unfold takeSymbol
        split_ifs with h1 h2 h3
        · exact .inl ⟨h.filled, rfl, hl⟩
        · exact .inr (.inr ⟨.badSym, rfl, by simp⟩)
        · exact .inr (.inr ⟨.overrun, rfl, by simp⟩)
        · exact decodeLoop_cases eos keep bs _ _ (by simp; omega)

/-- A loop that ends in a wait has consumed every byte it was offered (20_memory.md R35). -/
theorem decodeLoop_wait_istr (eos keep : Bool) : ∀ (bs : List Byte) (io : List Bool) (h h' : RldHold),
    (decodeLoop eos keep bs io h).stop = .wait h' → (decodeLoop eos keep bs io h).istr = []
  | [], _, _, _, _ => rfl
  | b :: bs, io, h, h', e => by
    simp only [decodeLoop] at e ⊢
    split at e
    · cases e
    · next hq =>
      rw [if_neg hq]
      cases hv : h.value with
      | none => rw [hv] at e; exact decodeLoop_wait_istr eos keep bs _ _ _ e
      | some v =>
        rw [hv] at e
        simp only at e ⊢
        cases ht : takeSymbol h.filled v b with
        | inl stop =>
          rw [ht] at e
          simp only at e
          subst e
          unfold takeSymbol at ht
          split_ifs at ht <;> cases ht
        | inr f => rw [ht] at e; exact decodeLoop_wait_istr eos keep bs _ _ _ e

/-- What an RLD, or the rest of one, leaves: complete, waiting or faulted. -/
theorem runRld_cases {h : RldHold} {s : State} (hl : h.filled.length ≤ 64) :
    (∃ filled istr io, runRld h s =
        { s with istr := istr, ioAnswers := io, bufZ := padded filled, vZ := true, hold := none } ∧ filled.length ≤ 64)
      ∨ (∃ h' istr io, runRld h s = { s with istr := istr, ioAnswers := io, hold := some h' } ∧ h'.filled.length ≤ 64
          ∧ s.eos = false)
      ∨ (∃ f istr io, runRld h s = takeFault f (encode .rld)
          { s with istr := istr, ioAnswers := io, bufZ := freeBlock s.free, vZ := false, free := s.free + 1 }
          ∧ f ∈ [FaultCode.trunc, .overrun, .badSym, .io]) := by
  have key := decodeLoop_cases s.eos (Config.failedGetKeepsByte s.free) s.istr s.ioAnswers h hl
  unfold runRld finishRld
  rcases key with ⟨filled, e, hf⟩ | ⟨h', e, hf, heos⟩ | ⟨f, e, hf⟩
  · exact .inl ⟨filled, _, _, by rw [e], hf⟩
  · exact .inr (.inl ⟨h', _, _, by rw [e], hf, heos⟩)
  · exact .inr (.inr ⟨f, _, _, by rw [e], hf⟩)

/-! ### The step -/

/-- When no RLD goes on, a step is the host's next interaction. -/
theorem coreStep_of_not_goesOn {s : State} (h : s.goesOn = false) : coreStep s = hostStep s := by
  simp only [coreStep, h]
  split <;> rfl

/-- A CORE that is not busy has no RLD to go on with. -/
theorem goesOn_of_not_busy {s : State} (h : s.busy = false) : s.goesOn = false := by simp [State.goesOn, h]

/-! ### BPX -/

/-- What a BPX leaves: an illegal plane, a failed read, or a block. -/
theorem partition_cases (rd : PlaneId → Nat → Byte) (p : BitVec 2) (bx bY : BitVec 13) (s : State) :
    (p = 3#2 ∧ partition rd p bx bY s = takeFault .illegal (encode (.bpx p bx bY)) s)
      ∨ (∃ plane io, planeOfOperand p = some plane ∧ p ≠ 3#2
          ∧ partition rd p bx bY s = takeFault .io (encode (.bpx p bx bY)) { s with ioAnswers := io })
      ∨ (∃ plane io, planeOfOperand p = some plane ∧ p ≠ 3#2
          ∧ partition rd p bx bY s = { s with bufS := cutBlock (rd plane) bx bY s, vS := true, ioAnswers := io }) := by
  unfold partition
  have hp : ∀ q : BitVec 2, (planeOfOperand q = none ↔ q = 3#2) := by decide
  cases e : planeOfOperand p with
  | none => exact .inl ⟨(hp p).mp e, rfl⟩
  | some plane =>
    have hne : p ≠ 3#2 := fun h => by simp [(hp p).mpr h] at e
    refine .inr ?_
    unfold partitionFrom
    by_cases h : (askOracle (planeReads s bx bY) s.ioAnswers).1
    · exact .inl ⟨plane, _, rfl, hne, if_pos h⟩
    · exact .inr ⟨plane, _, rfl, hne, if_neg h⟩

end Sys2Proof.Machine
end

