-- ==== Sys2Proof/Laws/PerInstr.lean ====
section
/-!
SUPPORT. Statements made per instruction: family Encode, decoding the encoded instruction gives it back.
-/

namespace Sys2Proof.Laws.Encode

/-- The decoder reads a well-formed instruction back from its word. -/
def Statement (i : Instr) : Prop := i.wf = true → decode (encode i) = .instr i

theorem nop : Statement .nop := by unfold Statement; decide

/-- A format I word decodes to its immediate. -/
theorem format_i_fields (op : BitVec 4) (imm16 : BitVec 16) :
    bitField (wordI op imm16) 28 4 = op ∧ bitField (wordI op imm16) 16 12 = 0#12
      ∧ bitField (wordI op imm16) 0 16 = imm16 := by
  refine ⟨?_, ?_, ?_⟩ <;> ext i hi <;> simp [bitField, wordI]
  all_goals grind

theorem cfgw (imm16 : BitVec 16) : Statement (.cfgw imm16) := by
  obtain ⟨h1, h2, h3⟩ := format_i_fields 0x1#4 imm16
  intro _; simp [decode, encode, decodeI, h1, h2, h3]

theorem cfgh (imm16 : BitVec 16) : Statement (.cfgh imm16) := by
  obtain ⟨h1, h2, h3⟩ := format_i_fields 0x2#4 imm16
  intro _; simp [decode, encode, decodeI, h1, h2, h3]

/-- A format B word decodes to its fields. -/
theorem format_b_fields (op : BitVec 4) (p : BitVec 2) (bx bY : BitVec 13) :
    bitField (wordB op p bx bY) 28 4 = op ∧ bitField (wordB op p bx bY) 26 2 = p
      ∧ bitField (wordB op p bx bY) 13 13 = bY ∧ bitField (wordB op p bx bY) 0 13 = bx := by
  refine ⟨?_, ?_, ?_, ?_⟩ <;> ext i hi <;> simp [bitField, wordB]
  all_goals grind

theorem bpx (p : BitVec 2) (bx bY : BitVec 13) : Statement (.bpx p bx bY) := by
  obtain ⟨h1, h2, h3, h4⟩ := format_b_fields 0x3#4 p bx bY
  intro hp
  have hp : p ≠ 3#2 := by simpa [Instr.wf] using hp
  simp [decode, encode, decodeB, h1, h2, h3, h4, hp]

theorem lsh : Statement .lsh := by unfold Statement; decide

theorem fdct : Statement .fdct := by unfold Statement; decide

theorem qnt : Statement .qnt := by unfold Statement; decide

theorem zzs : Statement .zzs := by unfold Statement; decide

theorem rle : Statement .rle := by unfold Statement; decide

theorem rld : Statement .rld := by unfold Statement; decide

theorem zzu : Statement .zzu := by unfold Statement; decide

theorem dqt : Statement .dqt := by unfold Statement; decide

theorem idct : Statement .idct := by unfold Statement; decide

theorem uls : Statement .uls := by unfold Statement; decide

end Sys2Proof.Laws.Encode
end

