-- ==== Sys2Proof/Tests/Slice0.lean ====
section
/-!
SUPPORT. Tests of single steps and single words, their expected results from spec/95_test_vectors.md or by hand from the rule
named, and the witnesses: for each statement with hypotheses, a state and operands that meet them together.
-/

namespace Sys2Proof.Tests

open Sys2Proof.Machine

/-! ### Small states -/

/-- A CORE with every buffer valid, a plane two samples wide and one high, and one symbol stream waiting. -/
def live : State :=
  { State.reset with
    vS := true, vL := true, vC := true, vQ := true, vZ := true, vR := true
    pw := 2#16, ph := 1#16, planeY := [(0, 5#8), (1, 7#8)]
    istr := [0x05#8, 0x03#8, 0xFF#8, 0x00#8, 0x09#8] }

/-- `live` with a fault recorded. -/
def faulted : State := { live with fc := some .noSrc, fcmd := encode .lsh }

/-- `live` with an RLD waiting for its first byte. -/
def waiting : State := { live with istr := [], hold := some rldStart }

/-- `s` with one interaction to come. -/
def offered (s : State) (a : HostAct) : State := { s with host := [a] }

/-- The state an instruction leaves; `s` itself where it leaves none. -/
def after (i : Instr) (s : State) : State :=
  match exec i s with
  | .next t => t
  | .fault _ => s
  | .refused _ => s

/-- The state a step leaves; `s` itself where it leaves none. -/
def stepped (s : State) : State :=
  match step s with
  | .next t => t
  | .fault _ => s
  | .refused _ => s

/-- A block with one cell. -/
def lone {w : Nat} (n : Nat) (v : BitVec w) : Block w := tabulate fun k => if k = n then v else 0#w

/-- `dataSymbols` as a check. -/
theorem dataSymbols_iff (syms : List (Byte × Byte)) :
    dataSymbols syms ↔ (syms.all fun x => x.2 != 0x00#8) = true ∧ (expansion syms).length ≤ 64 := by
  simp [dataSymbols]

/-! ### Well-formedness (30_encoding.md R54, R58) -/

theorem test_wf_refuses_plane_three : Instr.wf (.bpx 3#2 0#13 0#13) = false := by decide
theorem test_wf_accepts_last_block : Instr.wf (.bpx 2#2 8191#13 8191#13) = true := by decide

/-! ### Decoding: words of vector V45, and illegal words of R56, R57 and R58 -/

theorem test_decode_nop : decode 0x00000000#32 = .instr .nop := by decide
theorem test_decode_cfgw : decode 0x1000000A#32 = .instr (.cfgw 10#16) := by decide
theorem test_decode_cfgh : decode 0x20000009#32 = .instr (.cfgh 9#16) := by decide
theorem test_decode_bpx : decode 0x34006005#32 = .instr (.bpx 1#2 5#13 3#13) := by decide
theorem test_decode_bpx_column : decode 0x38000001#32 = .instr (.bpx 2#2 1#13 0#13) := by decide
theorem test_decode_lsh : decode 0x40000000#32 = .instr .lsh := by decide
theorem test_decode_fdct : decode 0x50000000#32 = .instr .fdct := by decide
theorem test_decode_qnt : decode 0x60000000#32 = .instr .qnt := by decide
theorem test_decode_zzs : decode 0x70000000#32 = .instr .zzs := by decide
theorem test_decode_rle : decode 0x80000000#32 = .instr .rle := by decide
theorem test_decode_rld : decode 0x90000000#32 = .instr .rld := by decide
theorem test_decode_zzu : decode 0xA0000000#32 = .instr .zzu := by decide
theorem test_decode_dqt : decode 0xB0000000#32 = .instr .dqt := by decide
theorem test_decode_idct : decode 0xC0000000#32 = .instr .idct := by decide
theorem test_decode_uls : decode 0xD0000000#32 = .instr .uls := by decide
theorem test_decode_reserved_opcodes :
    decode 0xE0000000#32 = .illegal .reservedOpcode ∧ decode 0xFFFFFFFF#32 = .illegal .reservedOpcode := by decide
theorem test_decode_reserved_bits :
    decode 0x00000001#32 = .illegal .reservedBits ∧ decode 0x48000000#32 = .illegal .reservedBits
      ∧ decode 0x10010000#32 = .illegal .reservedBits ∧ decode 0x28000000#32 = .illegal .reservedBits := by decide
theorem test_decode_plane_three : decode 0x3C000000#32 = .illegal .reservedPlane := by decide

/-! ### Single instructions -/

/-- R71, the largest width. -/
theorem test_cfgw : (after (.cfgw 0xFFFF#16) live).pw = 0xFFFF#16 ∧ (after (.cfgw 0xFFFF#16) live).ph = 1#16 := by decide
/-- R72, zero is legal. -/
theorem test_cfgh : (after (.cfgh 0#16) live).ph = 0#16 ∧ (after (.cfgh 0#16) live).pw = 2#16 := by decide
/-- R73 by hand: the two samples of the plane, then zero to the right and below. -/
theorem test_bpx_pads : let s := (after (.bpx 0#2 0#13 0#13) live).bufS
    cell s 0 = 5#8 ∧ cell s 1 = 7#8 ∧ cell s 2 = 0#8 ∧ cell s 8 = 0#8 := by decide
/-- R73: a block outside the plane is all zero and valid. -/
theorem test_bpx_outside : let t := after (.bpx 0#2 1#13 0#13) live
    cell t.bufS 0 = 0#8 ∧ t.vS = true ∧ t.fc = none := by decide
/-- V11e and V12. -/
theorem test_lsh : let l := (after .lsh { live with bufS := lone 9 255#8 }).bufL
    (cell l 0).toInt = -128 ∧ (cell l 9).toInt = 127 := by decide
/-- V13: the tie 1/2 at (0, 0) rounds to 1, and the cell (0, 5) is 0. -/
theorem test_fdct_tie : let c := (after .fdct { live with bufL := lone 0 4#8 }).bufC
    cell c 0 = 1#16 ∧ cell c 5 = 0#16 := by decide +kernel
/-- V14: the block varies along the columns, so the coefficient (0, 1) is -182 and (1, 0) is 0. -/
theorem test_fdct_index_pairing :
    let c := (after .fdct { live with bufL := tabulate fun k => BitVec.ofInt 8 (10 * (k % 8 : Nat) - 35) }).bufC
    (cell c 1).toInt = -182 ∧ cell c 8 = 0#16 := by decide +kernel
/-- V11c: the tie -8/16 gives -1. -/
theorem test_qnt_tie : (cell (after .qnt { live with bufC := lone 0 (-8#16) }).bufQ 0).toInt = -1 := by decide
/-- R86 by hand: 2048/16 = 128 wraps to -128. -/
theorem test_qnt_wraps : (cell (after .qnt { live with bufC := lone 0 2048#16 }).bufQ 0).toInt = -128 := by decide
/-- R101: ZZ[2] = 8. -/
theorem test_zzs : cell (after .zzs { live with bufQ := lone 8 77#8 }).bufZ 2 = 77#8 := by decide
/-- R101: ZZ[35] = 56, the first cell of the last row. -/
theorem test_zzu : cell (after .zzu { live with bufZ := lone 35 77#8 }).bufQ 56 = 77#8 := by decide
/-- R114 corner case (d): 64 times -1. -/
theorem test_rle_minus_one : (after .rle { live with bufZ := Vector.replicate 64 0xFF#8 }).ostr
    = [0xFF#8, 0x40#8, 0xFF#8, 0x00#8] := by decide
/-- R114, the second example. -/
theorem test_rle_two_runs : (after .rle { live with bufZ := lone 0 1#8 }).ostr
    = [0x01#8, 0x01#8, 0x00#8, 0x3F#8, 0xFF#8, 0x00#8] := by decide
/-- R115 corner cases (c) and (d): a short stream is padded, the byte after the sentinel stays. -/
theorem test_rld_pads : let t := after .rld live
    cell t.bufZ 2 = 5#8 ∧ cell t.bufZ 3 = 0#8 ∧ t.istr = [0x09#8] ∧ t.vZ = true := by decide
/-- R162: `00 40 00 00` raises F_BADSYM, not F_OVERRUN. -/
theorem test_rld_bad_symbol : let t := after .rld { live with istr := [0x00#8, 0x40#8, 0x00#8, 0x00#8] }
    t.fc = some .badSym ∧ t.vZ = false ∧ t.istr = [] ∧ t.fcmd = 0x90000000#32 := by decide
/-- R87 by hand: -128 * 121 at the linear index 53. -/
theorem test_dqt : (cell (after .dqt { live with bufQ := lone 53 0x80#8 }).bufC 53).toInt = -15488 := by decide
/-- V12: the coefficient 1024 alone gives 128 everywhere. -/
theorem test_idct : (cell (after .idct { live with bufC := lone 0 1024#16 }).bufR 63).toInt = 128 := by decide +kernel
/-- V12: 128 + 128 wraps to 0, and V11e: -128 + 128 = 0. -/
theorem test_uls_wraps : let s := (after .uls { live with bufR := lone 0 128#32 }).bufS
    cell s 0 = 0#8 ∧ cell s 1 = 128#8 := by decide
/-- R152: RLE of a Z that is not valid appends nothing and faults. -/
theorem test_no_source : let t := after .rle { live with vZ := false }
    t.fc = some .noSrc ∧ t.fcmd = 0x80000000#32 ∧ t.ostr = [] := by decide
/-- STATUS of 10_state.md R23 by hand: HALT, FC 2, all six valid bits. -/
theorem test_status : statusWord faulted = 0x00003F22#32 ∧ statusWord waiting = 0x00003F01#32 := by decide
/-- The table ZZ is the sweep of 42_zigzag.md R102. -/
theorem test_zigzag_table : zzTable = zzGenerated := by decide

/-! ### Witnesses: the hypotheses of each statement can be met -/

theorem witness_DecodeOfEncode : Instr.wf (.bpx 1#2 8191#13 0#13) = true := by decide
theorem witness_EncodeOfDecode : decode 0x3BFFFFFF#32 = .instr (.bpx 2#2 8191#13 8191#13) := by decide
theorem witness_OpcodeMap :
    14 ≤ (bitField 0xE0000000#32 28 4).toNat ∧ 14 ≤ (bitField 0xFFFFFFFF#32 28 4).toNat := by decide
theorem witness_IllegalWords : (offered live (.cmd 0x40000001#32)).takes 0x40000001#32 []
    ∧ decode 0x40000001#32 = .illegal .reservedBits := ⟨⟨by decide, rfl⟩, by decide⟩
theorem witness_StepRuns_taken : (offered live (.cmd 0x40000000#32)).takes 0x40000000#32 []
    ∧ decode 0x40000000#32 = .instr .lsh := ⟨⟨by decide, rfl⟩, by decide⟩
theorem witness_StepRuns_placed : decodeTableWord 32 0x40000000 = some .lsh := by decide
theorem witness_StepRuns_resumed : let s := offered { waiting with istr := [0x05#8] } (.csrrd 0)
    s.hold = some rldStart ∧ s.fc = none ∧ s.istr ≠ [] ∧ s.rstNext = false := by decide
theorem witness_ResetAtAnyTime : (offered faulted .rst).host = .rst :: []
    ∧ (offered live (.cmdCut 0x80000000#32 3)).busy = false
    ∧ (offered live (.cmdCut 0x80000000#32 3)).host = .cmdCut 0x80000000#32 3 :: [] := by decide
/-- R171: a host that refills after a reset, here while an RLD waits with a byte there: the reset comes first. -/
theorem witness_ResetLeavesTheStreams_refill :
    let t := stepped (offered { waiting with istr := [0x05#8], eos := true } (.rstRefill [0xFF#8, 0x00#8]))
    t.istr = [0xFF#8, 0x00#8] ∧ t.eos = false ∧ t.ready = true ∧ t.vS = false ∧ t.host = [] := by decide
theorem witness_ResetLeavesTheStreams_rst : ∃ t, step (offered waiting .rst) = .next t := ⟨_, rfl⟩
theorem witness_ResetLeavesTheStreams_rle : let s := offered live (.cmdCut (encode .rle) 3)
    s.ready = true ∧ s.vZ = true ∧ s.quiet 3 := by simp only [State.quiet]; decide
theorem witness_ResetLeavesTheStreams_rld : let s := offered live (.cmdCut (encode .rld) 3)
    s.ready = true ∧ ∃ u, exec .rld { s with istr := s.istr.take 3, eos := false } = .next u ∧ u.busy = true :=
  ⟨by decide, _, rfl, by decide⟩
/-- The reset falls after the RLD has ended: the byte after the sentinel stays. -/
theorem witness_ResetLeavesTheStreams_rld_ended : let s := offered live (.cmdCut (encode .rld) 5)
    s.ready = true ∧ ∃ u, exec .rld { s with istr := s.istr.take 5, eos := false } = .next u ∧ u.istr = [0x09#8] :=
  ⟨by decide, _, rfl, by decide⟩
theorem witness_StepKeepsInvariant : Invariant State.reset ∧ ∃ t, step State.reset = .next t :=
  ⟨⟨rfl, fun _ h => (by cases h), reset_planes_wf .luma, reset_planes_wf .chromaRed, reset_planes_wf .chromaBlue⟩, _, rfl⟩
theorem witness_NopChangesNothing : faulted.halted = true ∧ (offered faulted (.cmd 0#32)).host = .cmd 0#32 :: []
    ∧ bitField 0x08000000#32 28 4 = 0x0#4 ∧ bitField 0x08000000#32 0 28 ≠ 0#28 := by decide
theorem witness_ready : live.ready = true := by decide
theorem witness_BpxCutsTheBlock : live.ready = true ∧ planeOfOperand 0#2 = some .luma
    ∧ planeOfOperand 2#2 = some .chromaBlue ∧ live.quiet (planeReads live 0#13 0#13) := by
  simp only [State.quiet]; decide
theorem witness_BpxReadsOnlyInsideThePlane_address : inPlane live 0#13 0#13 1 = true := by decide
theorem witness_BpxReadsOnlyInsideThePlane_block :
    let u := { live with planeY := [(0, 5#8), (1, 7#8), (2, 9#8)], planeCr := [(0, 1#8)] }
    planeOfOperand 0#2 = some .luma ∧ live.ready = true ∧ u.ready = true ∧ live.quiet 64 ∧ u.quiet 64
      ∧ live.pw = u.pw ∧ live.ph = u.ph
      ∧ (∀ a, a < live.pw.toNat * live.ph.toNat → readByte (planeOf live .luma) a = readByte (planeOf u .luma) a)
      ∧ (∃ t, exec (.bpx 0#2 0#13 0#13) live = .next t) ∧ ∃ t, exec (.bpx 0#2 0#13 0#13) u = .next t := by
  refine ⟨by decide, by decide, by decide, ?_, ?_, by decide, by decide, by decide, ⟨_, rfl⟩, ⟨_, rfl⟩⟩ <;>
    (simp only [State.quiet]; decide)
theorem witness_sources_valid : live.ready = true ∧ ∀ b, validBit live b = true :=
  ⟨by decide, fun b => by cases b <;> rfl⟩
theorem witness_IntegerRoundingIsRha : 0 < 121 := by decide
theorem witness_FdctStaysWithin1024 : live.ready = true ∧ live.vL = true ∧ ∃ t, exec .fdct live = .next t :=
  ⟨by decide, by decide, _, rfl⟩
theorem witness_UniformBlockHasOneCoefficient : let s := { live with bufL := Vector.replicate 64 0x80#8 }
    s.ready = true ∧ s.vL = true ∧ ∀ k, k < 64 → cell s.bufL k = 0x80#8 := by decide
theorem witness_LoneDcGivesAUniformBlock : let s := { live with bufC := lone 0 (-1024#16) }
    s.ready = true ∧ s.vC = true ∧ ∀ k, 0 < k → k < 64 → cell s.bufC k = 0#16 := by
  refine ⟨by decide, by decide, fun k hk h => ?_⟩
  rw [lone, cell_tabulate _ h, if_neg (Nat.ne_of_gt hk)]
theorem witness_EvenUniformBlockComesBack : (254#8).toNat % 2 = 0 ∧ ∀ k, k < 64 → cell (Vector.replicate 64 254#8) k = 254#8 := by
  decide
theorem witness_RleWritesMaximalRuns : live.ready = true ∧ live.vZ = true ∧ live.quiet 130 := by
  simp only [State.quiet]; decide
theorem witness_SymbolStreamLengths : ∃ t, exec .rld live = .next t ∧ t.fc = none ∧ t.hold = none :=
  ⟨_, rfl, by decide, by decide⟩
theorem witness_RldStopsAtTheSentinel : dataSymbols [(0x05#8, 0x03#8)] ∧ dataSymbols [(0xFF#8, 0x40#8)]
    ∧ live.istr = layOut [(0x05#8, 0x03#8)] ++ [0xFF#8, 0x00#8] ++ [0x09#8]
    ∧ live.quiet (layOut [(0x05#8, 0x03#8)] ++ [0xFF#8, 0x00#8]).length := by
  simp only [State.quiet, dataSymbols_iff]; decide
theorem witness_RldStopsAtTheSentinel_other : ∃ t, exec .zzs live = .next t := ⟨_, rfl⟩
/-- Truncated before a value byte. -/
theorem witness_RldFaults_trunc : let s := { live with istr := [0x05#8, 0x03#8], eos := true }
    s.ready = true ∧ dataSymbols [(0x05#8, 0x03#8)] ∧ s.istr = layOut [(0x05#8, 0x03#8)] ++ [] ++ [] ∧ s.eos = true
      ∧ s.quiet 2 := by
  simp only [State.quiet, dataSymbols_iff]; decide
/-- Truncated before a count byte. -/
theorem witness_RldFaults_trunc_odd : let s := { live with istr := [0x05#8], eos := true }
    s.ready = true ∧ dataSymbols [] ∧ s.istr = layOut [] ++ [0x05#8] ++ [] ∧ s.eos = true ∧ s.quiet 1 := by
  simp only [State.quiet, dataSymbols_iff]; decide
/-- A zero count after a full block. -/
theorem witness_RldFaults_zero_count :
    let s := { live with istr := layOut [(0x00#8, 0x40#8)] ++ [0x00#8, 0x00#8] ++ [0x09#8] }
    s.ready = true ∧ dataSymbols [(0x00#8, 0x40#8)] ∧ (0x00#8 : Byte) ≠ 0xFF#8
      ∧ s.quiet (layOut [(0x00#8, 0x40#8)] ++ [0x00#8, 0x00#8]).length := by
  simp only [State.quiet, dataSymbols_iff]; decide
/-- 65 cells: 64 and then 1. -/
theorem witness_RldFaults_overrun :
    let s := { live with istr := layOut [(0x00#8, 0x40#8)] ++ [0x01#8, 0x01#8] ++ [] }
    s.ready = true ∧ dataSymbols [(0x00#8, 0x40#8)] ∧ (0x01#8 : Byte) ≠ 0x00#8
      ∧ 64 < (expansion [(0x00#8, 0x40#8)]).length + (0x01#8 : Byte).toNat
      ∧ s.quiet (layOut [(0x00#8, 0x40#8)] ++ [0x01#8, 0x01#8]).length := by
  simp only [State.quiet, dataSymbols_iff]; decide
theorem witness_RldWaits_start : let s := { live with istr := [] }
    s.ready = true ∧ dataSymbols [] ∧ s.istr = layOut [] ++ (none : Option Byte).toList ∧ s.eos = false ∧ s.quiet 0 := by
  simp only [State.quiet, dataSymbols_iff]; decide
theorem witness_RldWaits_count : let s := { live with istr := [0x05#8, 0x03#8, 0xFF#8] }
    s.ready = true ∧ dataSymbols [(0x05#8, 0x03#8)]
      ∧ s.istr = layOut [(0x05#8, 0x03#8)] ++ (some 0xFF#8 : Option Byte).toList ∧ s.eos = false ∧ s.quiet 3 := by
  simp only [State.quiet, dataSymbols_iff]; decide
theorem witness_RldWaits_stays : let s := offered waiting (.csrrd 0)
    s.busy = true ∧ s.istr = [] ∧ s.eos = false ∧ s.resetNext = false ∧ ∃ t, step s = .next t := by
  refine ⟨by decide, by decide, by decide, by decide, _, rfl⟩
theorem witness_RldWaits_goes_on : let s := { waiting with istr := [0x05#8] }
    s.hold = some rldStart ∧ s.fc = none ∧ s.istr ≠ [] ∧ s.host = [] := by decide
theorem witness_RldWaits_eos : let s := { live with istr := [], eos := true }
    s.ready = true ∧ s.eos = true ∧ ∃ t, exec .rld s = .next t := ⟨by decide, by decide, _, rfl⟩
theorem witness_ResumedRldIsTheWholeRld :
    ∃ t, exec .rld { live with istr := [0x05#8], eos := false } = .next t ∧ t.busy = true := ⟨_, rfl, by decide⟩
theorem witness_RunLengthRoundTrip :
    let u := { live with istr := [0x00#8, 0x40#8, 0xFF#8, 0x00#8] ++ [0x09#8] }
    live.ready = true ∧ live.vZ = true ∧ live.quiet 130 ∧ u.ready = true ∧ u.quiet 130
      ∧ ∃ t, exec .rle live = .next t ∧ t.ostr = live.ostr ++ [0x00#8, 0x40#8, 0xFF#8, 0x00#8] := by
  refine ⟨by decide, by decide, ?_, by decide, ?_, _, rfl, by decide⟩ <;> (simp only [State.quiet]; decide)
theorem witness_OnlyRleAppendsToOstr : ∃ t, exec .rle live = .next t := ⟨_, rfl⟩
theorem witness_MissingSourceFaults : sourceOf .idct = some .c ∧ State.reset.ready = true ∧ validBit State.reset .c = false := by
  decide
theorem witness_WhichCommandRaisesWhich :
    State.reset.ready = true ∧ ∃ t, exec .lsh State.reset = .next t ∧ t.fc = some .noSrc := ⟨by decide, _, rfl, by decide⟩
theorem witness_IoErrors_bpx : let s := { live with ioAnswers := [false, true] }
    s.ready = true ∧ (0#2 : BitVec 2) ≠ 3#2 ∧ true ∈ s.ioAnswers.take (planeReads s 0#13 0#13) := by decide
theorem witness_IoErrors_rle : let s := { live with ioAnswers := [false, false, false, true, false] }
    s.ready = true ∧ s.vZ = true ∧ s.ioAnswers = List.replicate 3 false ++ true :: [false]
      ∧ 3 < (symbolStream (cells s.bufZ)).length := by decide
theorem witness_IoErrors_rld : let s := { live with ioAnswers := [false, true] }
    s.ready = true ∧ 1 < s.istr.length ∧ s.ioAnswers = List.replicate 1 false ++ true :: []
      ∧ ∃ u, exec .rld { s with istr := s.istr.take 1, eos := false, ioAnswers := [] } = .next u ∧ u.busy = true :=
  ⟨by decide, by decide, by decide, _, rfl, by decide⟩
theorem witness_IoErrors_default : live.ioAnswers = [] ∧ live.fc ≠ some .io ∧ ∃ t, exec .rld live = .next t :=
  ⟨by decide, by decide, _, rfl⟩
theorem witness_HaltedCoreDiscards : faulted.halted = true ∧ validBit faulted .r = true
    ∧ (offered faulted (.cmd 0x80000000#32)).resetNext = false ∧ (offered faulted .rst).resetNext = true
    ∧ (∃ t, step (offered faulted (.cmd 0x80000000#32)) = .next t) ∧ ∃ t, step (offered faulted .rst) = .next t :=
  ⟨by decide, by decide, by decide, by decide, ⟨_, rfl⟩, ⟨_, rfl⟩⟩
theorem witness_FirstFaultStays : (offered faulted (.cmd 0x80000000#32)).host.all (fun a => !a.resets) = true
    ∧ faulted.fc = some .noSrc ∧ ∃ t, Host.Core.run Sys2Proof.core 1 (offered faulted (.cmd 0x80000000#32)) = .next t :=
  ⟨by decide, by decide, _, rfl⟩
theorem witness_FcmdHolds_taken : let s := offered State.reset (.cmd 0x40000000#32)
    s.ready = true ∧ s.resetNext = false ∧ ∃ t, step s = .next t ∧ t.fc ≠ none ∧ t.fcmd ≠ s.fcmd :=
  ⟨by decide, by decide, _, rfl, by decide, by decide⟩
theorem witness_FcmdHolds_resumed : let s := { waiting with eos := true }
    s.goesOn = true ∧ ∃ t, step s = .next t ∧ t.fc ≠ none := ⟨by decide, _, rfl, by decide⟩
theorem witness_CsrReadPort : live.goesOn = false ∧ HostAct.issuesWord (.drain 1) = false ∧ HostAct.resets (.drain 1) = false
    ∧ ∃ t, step (offered live (.drain 1)) = .next t := ⟨by decide, by decide, by decide, _, rfl⟩
theorem witness_ValidBits_rld : let s := { offered live (.cmd 0x90000000#32) with istr := [0x00#8, 0x00#8] }
    Invariant s ∧ ∃ t, step s = .next t ∧ validBit s .z = true ∧ validBit t .z = false := by
  refine ⟨⟨rfl, fun _ h => (by cases h), ?_⟩, _, rfl, by decide, by decide⟩
  simp only [planesWf, MemoryWf]; decide
theorem witness_CommandFrame : targetOf .zzs ≠ some .q ∧ ∃ t, exec .zzs live = .next t := ⟨by decide, _, rfl⟩
theorem witness_BlockCommandsReadOnlyTheirSource :
    let u := { live with bufS := lone 3 9#8, pw := 7#16 }
    Instr.idct ∈ blockCommands ∧ sourceOf .idct = some .c ∧ targetOf .idct = some .r ∧ live.ready = true ∧ u.ready = true
      ∧ validBit live .c = true ∧ validBit u .c = true ∧ (∀ k, k < 64 → windowCell live .c k = windowCell u .c k)
      ∧ (∃ t, exec .idct live = .next t) ∧ ∃ t, exec .idct u = .next t :=
  ⟨by decide, by decide, by decide, by decide, by decide, by decide, by decide, fun _ _ => rfl, ⟨_, rfl⟩, ⟨_, rfl⟩⟩
theorem witness_SetdimSetsBothDimensions : let s := { live with host := issue (setDim 16#16 8#16) ++ [HostAct.csrrd 0] }
    s.ready = true ∧ s.host = issue (setDim 16#16 8#16) ++ [HostAct.csrrd 0] := by decide
theorem witness_EncblkRunsTheSixStages : let s := { live with host := issue (encBlk 0#2 0#13 0#13) ++ [HostAct.csrrd 0] }
    s.ready = true ∧ planeOfOperand 0#2 = some .luma ∧ s.ioAnswers = [] := by decide
theorem witness_EncblkRunsTheSixStages_faulted : let s := { faulted with host := issue [.lsh, .rle] ++ [HostAct.csrrd 0] }
    s.halted = true := by decide
theorem witness_DecblkRunsTheFiveStages : let s := { live with host := issue decBlk ++ [HostAct.bufrd .s 0] }
    s.ready = true ∧ s.ioAnswers = [] ∧ dataSymbols [(0x05#8, 0x03#8)]
      ∧ s.istr = layOut [(0x05#8, 0x03#8)] ++ [0xFF#8, 0x00#8] ++ [0x09#8] := by
  simp only [dataSymbols_iff]; decide
/-- X8: 16 by 8 samples, two blocks; the last stream is the third plane of block (1, 0). -/
theorem witness_ContainerOrder : 1 < ((16#16).toNat + 7) / 8 ∧ 0 < ((8#16).toNat + 7) / 8 ∧ 2 < 3 ∧ 5 < 3 * (2 * 1)
    ∧ (compressionRun 16#16 8#16)[2 + 6 * 5]? = some (.cmd 0x38000001#32) := by decide
theorem witness_BufferWindow : (offered live (.bufwr .c (Vector.replicate 64 0xFFFF8000#32))).ready = true
    ∧ windowCell (stepped (offered live (.bufwr .c (Vector.replicate 64 0xFFFF8000#32)))) .c 63 = 0xFFFF8000#32 := by
  decide +kernel
theorem witness_BufferWindow_read : (offered faulted (.bufrd .q 63)).busy = false ∧ (offered live (.bufrd .q 63)).busy = false
    ∧ validBit live .q = true
    ∧ (stepped (offered { live with bufQ := lone 63 0x80#8 } (.bufrd .q 63))).rsp = [0xFFFFFF80#32] := by decide
theorem witness_BusyPortsWait : (offered waiting (.cmd 0x00000000#32)).busy = true
    ∧ (offered waiting (.bufrd .s 0)).goesOn = false := by decide
theorem witness_RacingPlaneWrites_race :
    let s := offered live (.cmdRacing (encode (.bpx 0#2 0#13 0#13)) [(.luma, 0#32, 9#8)])
    s.ready = true ∧ planeOfOperand 0#2 = some .luma ∧ s.quiet (planeReads s 0#13 0#13) ∧ inPlane s 0#13 0#13 0 = true
      ∧ ∃ t, step s = .next t := by
  refine ⟨by decide, by decide, ?_, by decide, _, rfl⟩
  simp only [State.quiet]; decide
theorem witness_RacingPlaneWrites_between : (offered live (.planeWrite .luma 0#32 9#8)).hold = none
    ∧ memRead (stepped (offered live (.planeWrite .luma 0#32 9#8))) .luma 0 = 9#8 := by decide

end Sys2Proof.Tests
end

section
/-!
PROOFS. What a step does to the fault record, the pair FC and FCMD (10_state.md R23 and R24, 60_exceptions.md R153): it keeps
both, or a reset clears both, or FC goes from no fault to a fault and FCMD takes the word of the command that raised it.
-/

namespace Sys2Proof.Machine

/-! ### A word that decodes is the word of its command -/

/-- A word is its upper field followed by its lower one. -/
theorem bitField_append (w : Word) {mid : Nat} (lo n m : Nat) (h : mid = lo + m) :
    bitField w mid n ++ bitField w lo m = bitField w lo (n + m) :=
  BitVec.extractLsb'_append_extractLsb'_eq_extractLsb' h

@[simp] theorem bitField_whole (w : Word) : bitField w 0 32 = w := BitVec.extractLsb'_eq_self

theorem encode_of_decodeN {w : Word} {op : BitVec 4} {i j : Instr} (hop : (bitField w 28 4).toNat = op.toNat)
    (hi : encode i = wordN op) (h : decodeN w i = .instr j) : encode j = w := by
  unfold decodeN at h
  split at h
  · next hlow =>
    cases h
    rw [hi, wordN, ← BitVec.eq_of_toNat_eq hop, ← hlow, bitField_append w 0 4 28 rfl, bitField_whole]
  · cases h

theorem encode_of_decodeI {w : Word} {op : BitVec 4} {f : BitVec 16 → Instr} {j : Instr}
    (hop : (bitField w 28 4).toNat = op.toNat) (hf : ∀ imm16, encode (f imm16) = wordI op imm16)
    (h : decodeI w f = .instr j) : encode j = w := by
  unfold decodeI at h
  split at h
  · next hmid =>
    cases h
    rw [hf, wordI, ← BitVec.eq_of_toNat_eq hop, ← hmid, bitField_append w 16 4 12 rfl, bitField_append w 0 16 16 rfl,
      bitField_whole]
  · cases h

theorem encode_of_decodeB {w : Word} {j : Instr} (hop : (bitField w 28 4).toNat = 3) (h : decodeB w = .instr j) :
    encode j = w := by
  unfold decodeB at h
  split at h
  · cases h
  · cases h
    have hop : bitField w 28 4 = 0x3#4 := BitVec.eq_of_toNat_eq hop
    rw [encode, wordB, ← hop, bitField_append w 26 4 2 rfl, bitField_append w 13 6 13 rfl, bitField_append w 0 19 13 rfl,
      bitField_whole]

/-- The decoder drops no bit: a word that decodes is the word of the command it decodes to (30_encoding.md R51 to R58). -/
theorem encode_of_decode {w : Word} {i : Instr} (h : decode w = .instr i) : encode i = w := by
  unfold decode at h
  split at h
  case h_1 hop => exact encode_of_decodeN (op := 0x0#4) hop rfl h
  case h_2 hop => exact encode_of_decodeI (op := 0x1#4) hop (fun _ => rfl) h
  case h_3 hop => exact encode_of_decodeI (op := 0x2#4) hop (fun _ => rfl) h
  case h_4 hop => exact encode_of_decodeB hop h
  case h_5 hop => exact encode_of_decodeN (op := 0x4#4) hop rfl h
  case h_6 hop => exact encode_of_decodeN (op := 0x5#4) hop rfl h
  case h_7 hop => exact encode_of_decodeN (op := 0x6#4) hop rfl h
  case h_8 hop => exact encode_of_decodeN (op := 0x7#4) hop rfl h
  case h_9 hop => exact encode_of_decodeN (op := 0x8#4) hop rfl h
  case h_10 hop => exact encode_of_decodeN (op := 0x9#4) hop rfl h
  case h_11 hop => exact encode_of_decodeN (op := 0xA#4) hop rfl h
  case h_12 hop => exact encode_of_decodeN (op := 0xB#4) hop rfl h
  case h_13 hop => exact encode_of_decodeN (op := 0xC#4) hop rfl h
  case h_14 hop => exact encode_of_decodeN (op := 0xD#4) hop rfl h
  case h_15 => cases h

/-! ### The fault record -/

/-- FC and FCMD are the same in both states. -/
def keepsRecord (s t : State) : Prop := t.fc = s.fc ∧ t.fcmd = s.fcmd

/-- The first fault is recorded, together with the word `w` of its command (60_exceptions.md R153). -/
def recordsFault (w : Word) (s t : State) : Prop := s.fc = none ∧ t.fc ≠ none ∧ t.fcmd = w

/-- What a command with word `w` may do to the fault record. -/
def commandRecord (w : Word) (s t : State) : Prop := keepsRecord s t ∨ recordsFault w s t

theorem keepsRecord_refl (s : State) : keepsRecord s s := ⟨rfl, rfl⟩

theorem commandRecord_refl (w : Word) (s : State) : commandRecord w s s := .inl (keepsRecord_refl s)

theorem takeFault_commandRecord (f : FaultCode) (w : Word) (s : State) : commandRecord w s (takeFault f w s) := by
  cases h : s.fc with
  | none => exact .inr ⟨h, by simp [takeFault_of_none h], by rw [takeFault_of_none h]⟩
  | some g => rw [takeFault_of_some h]; exact commandRecord_refl w s

/-! ### The commands -/

theorem whenReady_commandRecord {w : Word} {s run t : State} (h : whenReady s run = .next t)
    (hrun : commandRecord w s run) : commandRecord w s t := by
  obtain ⟨-, rfl⟩ | ⟨-, rfl⟩ := whenReady_cases h
  · exact hrun
  · exact commandRecord_refl w t

theorem fromSource_commandRecord {i : Instr} {valid : Bool} {s run t : State} (h : fromSource i valid s run = .next t)
    (hrun : commandRecord (encode i) s run) : commandRecord (encode i) s t := by
  obtain ⟨-, rfl⟩ | ⟨-, -, rfl⟩ | ⟨-, -, rfl⟩ := fromSource_cases h
  · exact commandRecord_refl _ t
  · exact takeFault_commandRecord .noSrc _ s
  · exact hrun

theorem partition_commandRecord (rd : PlaneId → Nat → Byte) (p : BitVec 2) (bx bY : BitVec 13) (s : State) :
    commandRecord (encode (.bpx p bx bY)) s (partition rd p bx bY s) := by
  obtain ⟨-, h⟩ | ⟨_, io, -, -, h⟩ | ⟨_, _, -, -, h⟩ := partition_cases rd p bx bY s <;> rw [h]
  · exact takeFault_commandRecord .illegal _ s
  · exact takeFault_commandRecord .io _ { s with ioAnswers := io }
  · exact .inl ⟨rfl, rfl⟩

theorem encodeRuns_commandRecord (s : State) : commandRecord (encode .rle) s (encodeRuns s) := by
  unfold encodeRuns
  dsimp only
  split
  · exact takeFault_commandRecord .io _ { s with ostr := _, ioAnswers := _ }
  · exact .inl ⟨rfl, rfl⟩

theorem runRld_commandRecord (h : RldHold) (s : State) : commandRecord (encode .rld) s (runRld h s) := by
  unfold runRld finishRld
  dsimp only
  split
  · exact .inl ⟨rfl, rfl⟩
  · exact .inl ⟨rfl, rfl⟩
  · exact takeFault_commandRecord _ _ { s with istr := _, ioAnswers := _, bufZ := _, vZ := _, free := _ }

/-- A command records no word but its own. -/
theorem exec_commandRecord {i : Instr} {s t : State} (h : exec i s = .next t) : commandRecord (encode i) s t := by
  cases i with
  | nop => exact whenReady_commandRecord h (.inl ⟨rfl, rfl⟩)
  | cfgw => exact whenReady_commandRecord h (.inl ⟨rfl, rfl⟩)
  | cfgh => exact whenReady_commandRecord h (.inl ⟨rfl, rfl⟩)
  | bpx p bx bY => exact whenReady_commandRecord h (partition_commandRecord (memRead s) p bx bY s)
  | rle => exact fromSource_commandRecord h (encodeRuns_commandRecord s)
  | rld => exact whenReady_commandRecord h (runRld_commandRecord rldStart s)
  | lsh => exact fromSource_commandRecord h (.inl ⟨rfl, rfl⟩)
  | fdct => exact fromSource_commandRecord h (.inl ⟨rfl, rfl⟩)
  | qnt => exact fromSource_commandRecord h (.inl ⟨rfl, rfl⟩)
  | zzs => exact fromSource_commandRecord h (.inl ⟨rfl, rfl⟩)
  | zzu => exact fromSource_commandRecord h (.inl ⟨rfl, rfl⟩)
  | dqt => exact fromSource_commandRecord h (.inl ⟨rfl, rfl⟩)
  | idct => exact fromSource_commandRecord h (.inl ⟨rfl, rfl⟩)
  | uls => exact fromSource_commandRecord h (.inl ⟨rfl, rfl⟩)

/-! ### The words of the port `CMD` -/

theorem takeWord_commandRecord {w : Word} {s t : State} (h : takeWord w s = .next t) : commandRecord w s t := by
  unfold takeWord at h
  split at h
  · next i hi => exact encode_of_decode hi ▸ exec_commandRecord h
  · exact whenReady_commandRecord h (takeFault_commandRecord .illegal w s)

theorem racingWord_commandRecord {w : Word} {writes : List (PlaneId × Word × Byte)} {s t : State}
    (h : racingWord w writes s = .next t) : commandRecord w s t := by
  unfold racingWord at h
  split at h
  · next p bx bY hi => exact encode_of_decode hi ▸ whenReady_commandRecord h (partition_commandRecord _ p bx bY s)
  · next i _ hi => exact encode_of_decode hi ▸ exec_commandRecord h
  · exact whenReady_commandRecord h (takeFault_commandRecord .illegal w s)

/-- The writes that land after a racing command leave FC and FCMD as the command left them. -/
theorem landWrites_next {writes : List (PlaneId × Word × Byte)} {run : Host.Outcome State Fault Refusal} {t : State}
    (h : landWrites writes run = .next t) : ∃ u, run = .next u ∧ keepsRecord u t := by
  cases run with
  | next u => exact ⟨u, rfl, by cases h; simp [keepsRecord]⟩
  | fault => cases h
  | refused => cases h

/-! ### The step -/

theorem whenIdle_cases {s t : State} {run : Host.Outcome State Fault Refusal} (h : whenIdle s run = .next t) :
    t = s ∨ run = .next t := by
  unfold whenIdle at h
  split at h
  · cases h; exact .inl rfl
  · exact .inr h

/-- A command whose reset falls inside it leaves no record. -/
theorem cutWord_record (w : Word) (k : Nat) (s : State) : (cutWord w k s).fc = none ∧ (cutWord w k s).fcmd = 0#32 := by
  unfold cutWord
  split <;> exact ⟨rfl, rfl⟩

/-- The host's next interaction writes the word to `CMD`, on its own or while it also writes plane bytes. -/
def State.offersWord (s : State) (w : Word) : Prop :=
  ∃ acts, s.host = .cmd w :: acts ∨ ∃ writes, s.host = .cmdRacing w writes :: acts

theorem State.offersWord.unique {s : State} {v w : Word} (hv : s.offersWord v) (hw : s.offersWord w) : v = w := by
  obtain ⟨_, hv | ⟨_, hv⟩⟩ := hv <;> obtain ⟨_, hw | ⟨_, hw⟩⟩ := hw <;> cases hv.symm.trans hw <;> rfl

/-- The next interaction of the host resets the record, or is a word that records its own fault, or keeps the record. -/
theorem hostStep_record {s t : State} (h : hostStep s = .next t) :
    (s.resetNext = true ∧ t.fc = none ∧ t.fcmd = 0#32) ∨ keepsRecord s t ∨ ∃ w, s.offersWord w ∧ recordsFault w s t := by
  have offered {w : Word} (hw : s.offersWord w) (ht : commandRecord w s t) :
      keepsRecord s t ∨ ∃ w, s.offersWord w ∧ recordsFault w s t := ht.imp id fun hr => ⟨w, hw, hr⟩
  have reset {a : HostAct} {acts : List HostAct} (hs : s.host = a :: acts) (ha : a.resets = true) :
      s.resetNext = true := by simp [State.resetNext, hs, ha]
  unfold hostStep at h
  cases hs : s.host with
  | nil => rw [hs] at h; cases h; exact .inr (.inl (keepsRecord_refl _))
  | cons a acts =>
    rw [hs] at h
    cases a with
    | cmd w =>
      obtain rfl | h := whenIdle_cases h
      · exact .inr (.inl (keepsRecord_refl _))
      · have hrec := takeWord_commandRecord h
        exact .inr (offered ⟨acts, .inl hs⟩ hrec)
    | csrrd n => cases h; exact .inr (.inl ⟨rfl, rfl⟩)
    | bufrd b k =>
      obtain rfl | h := whenIdle_cases h
      · exact .inr (.inl (keepsRecord_refl _))
      · cases h; exact .inr (.inl (by simp [keepsRecord]))
    | bufwr b v =>
      obtain rfl | h := whenIdle_cases h
      · exact .inr (.inl (keepsRecord_refl _))
      · cases h; right; left; split <;> simp [keepsRecord]
    | feed bytes =>
      dsimp only at h
      split at h <;> cases h
      exact .inr (.inl ⟨rfl, rfl⟩)
    | raiseEos =>
      dsimp only at h
      split at h <;> cases h
      exact .inr (.inl ⟨rfl, rfl⟩)
    | drain n => cases h; exact .inr (.inl ⟨rfl, rfl⟩)
    | planeWrite p addr b => cases h; exact .inr (.inl (by simp [keepsRecord]))
    | rst => cases h; exact .inl ⟨reset hs rfl, rfl, rfl⟩
    | rstRefill bytes => cases h; exact .inl ⟨reset hs rfl, rfl, rfl⟩
    | cmdCut w k =>
      obtain rfl | h := whenIdle_cases h
      · exact .inr (.inl (keepsRecord_refl _))
      · cases h; exact .inl ⟨reset hs rfl, cutWord_record w k _⟩
    | cmdRacing w writes =>
      obtain rfl | h := whenIdle_cases h
      · exact .inr (.inl (keepsRecord_refl _))
      · obtain ⟨u, hu, hfc, hfcmd⟩ := landWrites_next h
        have hrec := racingWord_commandRecord hu
        rw [commandRecord, keepsRecord, recordsFault, ← hfc, ← hfcmd] at hrec
        exact .inr (offered ⟨acts, .inr ⟨writes, hs⟩⟩ hrec)

/-- The next step runs the command with this word: an RLD that goes on, or the word the host offers. -/
def State.runsWord (s : State) (w : Word) : Prop :=
  (s.goesOn = true ∧ w = encode .rld) ∨ (s.goesOn = false ∧ s.offersWord w)

theorem busy_of_goesOn {s : State} (h : s.goesOn = true) : s.busy = true := by
  cases hb : s.busy with
  | true => rfl
  | false => exact absurd h (by simp [goesOn_of_not_busy hb])

/-- When an RLD goes on, a step is the rest of it. -/
theorem step_of_goesOn {s : State} (h : s.goesOn = true) : ∃ held, s.hold = some held ∧ step s = .next (runRld held s) := by
  cases hh : s.hold with
  | none => simp [State.goesOn, State.busy, hh] at h
  | some held => exact ⟨held, rfl, by simp [step, coreStep, hh, h]⟩

/-- What a step can do to FC and FCMD: a reset clears both, or both stay, or FC goes from no fault to a fault and FCMD takes
the word of the command the step runs (10_state.md R24). -/
theorem step_record {s t : State} (h : step s = .next t) :
    (s.resetNext = true ∧ t.fc = none ∧ t.fcmd = 0#32) ∨ keepsRecord s t ∨ ∃ w, s.runsWord w ∧ recordsFault w s t := by
  cases hg : s.goesOn with
  | true =>
    obtain ⟨held, -, hs⟩ := step_of_goesOn hg
    cases hs.symm.trans h
    exact .inr ((runRld_commandRecord held s).imp id fun hr => ⟨_, .inl ⟨hg, rfl⟩, hr⟩)
  | false =>
    obtain hreset | hkeep | ⟨w, hw, hr⟩ := hostStep_record ((coreStep_of_not_goesOn hg).symm.trans h)
    · exact .inl hreset
    · exact .inr (.inl hkeep)
    · exact .inr (.inr ⟨w, .inr ⟨hg, hw⟩, hr⟩)

/-- A step from a state without a fault to one with a fault leaves in FCMD the word of the command it runs. -/
theorem step_faults_runsWord {s t : State} (hs : s.fc = none) (h : step s = .next t) (ht : t.fc ≠ none) :
    s.runsWord t.fcmd := by
  obtain ⟨-, hfc, -⟩ | ⟨hfc, -⟩ | ⟨w, hw, -, -, rfl⟩ := step_record h
  · exact absurd hfc ht
  · exact absurd (hfc.trans hs) ht
  · exact hw

/-! ### The clauses of R24 -/

theorem recordExplained_fcmd {s : State} (h : recordExplained s) (hfc : s.fc = none) : s.fcmd = 0#32 := by
  simpa [recordExplained, hfc] using h

theorem step_fcmd_zero {s t : State} (hs : recordExplained s) (h : step s = .next t) (ht : t.fc = none) :
    t.fcmd = 0#32 := by
  obtain ⟨-, -, hfcmd⟩ | ⟨hfc, hfcmd⟩ | ⟨w, -, -, hfc, -⟩ := step_record h
  · exact hfcmd
  · exact hfcmd.trans (recordExplained_fcmd hs (hfc.symm.trans ht))
  · exact absurd ht hfc

theorem step_fcmd_changes {s t : State} (hr : s.resetNext = false) (h : step s = .next t) (hne : t.fcmd ≠ s.fcmd) :
    s.fc = none ∧ t.fc ≠ none := by
  obtain ⟨hreset, -, -⟩ | ⟨-, hfcmd⟩ | ⟨w, -, hs, ht, -⟩ := step_record h
  · simp [hr] at hreset
  · exact absurd hfcmd hne
  · exact ⟨hs, ht⟩

theorem step_fcmd_offered {s t : State} {w : Word} (hready : s.ready = true) (hw : s.offersWord w)
    (h : step s = .next t) (ht : t.fc ≠ none) : t.fcmd = w := by
  obtain ⟨hg, -⟩ | ⟨-, hw'⟩ := step_faults_runsWord ((ready_iff s).mp hready).2 h ht
  · simp [goesOn_of_not_busy (not_busy_of_ready hready)] at hg
  · exact hw'.unique hw

theorem step_fcmd_resumed {s t : State} (hg : s.goesOn = true) (h : step s = .next t) (ht : t.fc ≠ none) :
    t.fcmd = encode .rld := by
  obtain ⟨-, hw⟩ | ⟨hg', -⟩ := step_faults_runsWord ((busy_iff s).mp (busy_of_goesOn hg)).2 h ht
  · exact hw
  · simp [hg] at hg'

/-- Settles O44: every clause reads off `step_record`, which says what a step can do to FC and FCMD. -/
theorem fcmdHoldsTheFaultingWord : Obligations.FcmdHoldsTheFaultingWord := by
  unfold Obligations.FcmdHoldsTheFaultingWord
  refine ⟨fun _ => rfl, ?_, ?_, ?_, ?_⟩
  · exact fun s t ⟨hrecord, _⟩ h ht => step_fcmd_zero hrecord h ht
  · exact fun s t hr h hne => step_fcmd_changes hr h hne
  · exact fun s t w acts hready hhost h ht => step_fcmd_offered hready ⟨acts, hhost⟩ h ht
  · exact fun s t hg h ht => step_fcmd_resumed hg h ht

end Sys2Proof.Machine
end

section
/-!
PROOFS. The two byte streams (20_memory.md R34 to R39): what an RLD takes from ISTR and how it waits for the host, and that
RLE is the only command that appends to OSTR.
-/

namespace Sys2Proof.Machine

/-! ### Symbols -/

@[simp] theorem layOut_nil : layOut [] = [] := rfl

@[simp] theorem layOut_cons (v n : Byte) (syms : List (Byte × Byte)) : layOut ((v, n) :: syms) = v :: n :: layOut syms := rfl

@[simp] theorem expansion_nil : expansion [] = [] := rfl

@[simp] theorem expansion_cons (v n : Byte) (syms : List (Byte × Byte)) :
    expansion ((v, n) :: syms) = List.replicate n.toNat v ++ expansion syms := rfl

/-- A count that is not 0 and does not overrun adds its cells (43_rle.md R115). -/
theorem takeSymbol_data {filled : List Byte} {n : Byte} (v : Byte) (hn : n ≠ 0x00#8) (hlen : filled.length + n.toNat ≤ 64) :
    takeSymbol filled v n = .inr (filled ++ List.replicate n.toNat v) := by
  simp [takeSymbol, hn, hlen]

@[simp] theorem takeSymbol_sentinel (filled : List Byte) : takeSymbol filled 0xFF#8 0x00#8 = .inl (.done filled) := rfl

/-! ### The loop of RLD while the oracle reports no error -/

/-- An oracle quiet for `m + n` accesses is quiet for the first `m` and, after them, for the next `n`. -/
theorem quiet_split {io : List Bool} {m n : Nat} (h : true ∉ io.take (m + n)) :
    true ∉ io.take m ∧ true ∉ (io.drop m).take n := by
  simpa [List.take_add] using h

section
variable {eos keep : Bool} {io : List Bool} {filled : List Byte}

/-- A byte read at the start of a symbol is its value byte. -/
theorem decodeLoop_value (b : Byte) (rest : List Byte) (hq : true ∉ io.take 1) :
    decodeLoop eos keep (b :: rest) io ⟨filled, none⟩ = decodeLoop eos keep rest (io.drop 1) ⟨filled, some b⟩ := by
  simp [decodeLoop, askOracle_ok 1 io hq]

/-- A count byte that ends the RLD leaves what follows it in ISTR. -/
theorem decodeLoop_count_stops {v n : Byte} {stop : RldStop} (rest : List Byte) (hq : true ∉ io.take 1)
    (htake : takeSymbol filled v n = .inl stop) :
    decodeLoop eos keep (n :: rest) io ⟨filled, some v⟩ = ⟨stop, rest, io.drop 1⟩ := by
  simp [decodeLoop, askOracle_ok 1 io hq, htake]

/-- A count byte that does not end the RLD completes a symbol. -/
theorem decodeLoop_count_goes_on {v n : Byte} {more : List Byte} (rest : List Byte) (hq : true ∉ io.take 1)
    (htake : takeSymbol filled v n = .inr more) :
    decodeLoop eos keep (n :: rest) io ⟨filled, some v⟩ = decodeLoop eos keep rest (io.drop 1) ⟨more, none⟩ := by
  simp [decodeLoop, askOracle_ok 1 io hq, htake]

/-- The loop reads a symbol that is not the sentinel and goes on after it. -/
theorem decodeLoop_symbol {v n : Byte} (rest : List Byte) (hq : true ∉ io.take 2) (hn : n ≠ 0x00#8)
    (hlen : filled.length + n.toNat ≤ 64) :
    decodeLoop eos keep (v :: n :: rest) io ⟨filled, none⟩ =
      decodeLoop eos keep rest (io.drop 2) ⟨filled ++ List.replicate n.toNat v, none⟩ := by
  obtain ⟨hv, hc⟩ := quiet_split (m := 1) (n := 1) hq
  rw [decodeLoop_value v _ hv, decodeLoop_count_goes_on rest hc (takeSymbol_data v hn hlen), List.drop_drop]

/-- The sentinel ends the loop; no byte after it is read. -/
theorem decodeLoop_sentinel (rest : List Byte) (hq : true ∉ io.take 2) :
    decodeLoop eos keep (0xFF#8 :: 0x00#8 :: rest) io ⟨filled, none⟩ = ⟨.done filled, rest, io.drop 2⟩ := by
  obtain ⟨hv, hc⟩ := quiet_split (m := 1) (n := 1) hq
  rw [decodeLoop_value _ _ hv, decodeLoop_count_stops rest hc (takeSymbol_sentinel filled), List.drop_drop]

/-- Without `eos` the loop waits at the end of ISTR, with the value byte it may have read. -/
theorem decodeLoop_waits (value : Option Byte) (hq : true ∉ io.take value.toList.length) :
    decodeLoop false keep value.toList io ⟨filled, none⟩ = ⟨.wait ⟨filled, value⟩, [], io.drop value.toList.length⟩ := by
  cases value with
  | none => simp [decodeLoop]
  | some v => exact decodeLoop_value v [] hq

end

/-- The loop reads data symbols one after the other and comes to what follows them with their expansion filled. -/
theorem decodeLoop_layOut {eos keep : Bool} (tail : List Byte) {syms : List (Byte × Byte)} {io : List Bool}
    {filled : List Byte} (hne : ∀ x ∈ syms, x.2 ≠ 0x00#8) (hlen : filled.length + (expansion syms).length ≤ 64)
    (hq : true ∉ io.take (layOut syms).length) :
    decodeLoop eos keep (layOut syms ++ tail) io ⟨filled, none⟩ =
      decodeLoop eos keep tail (io.drop (layOut syms).length) ⟨filled ++ expansion syms, none⟩ := by
  induction syms generalizing io filled with
  | nil => simp
  | cons x syms ih =>
    obtain ⟨v, n⟩ := x
    obtain ⟨hn, hne⟩ : n ≠ 0x00#8 ∧ ∀ x ∈ syms, x.2 ≠ 0x00#8 := List.forall_mem_cons.mp hne
    have hlen' : (filled ++ List.replicate n.toNat v).length + (expansion syms).length ≤ 64 := by
      simpa [Nat.add_assoc] using hlen
    have hfits : filled.length + n.toNat ≤ 64 := by
      rw [List.length_append, List.length_replicate] at hlen'; omega
    have hcount : (layOut ((v, n) :: syms)).length = 2 + (layOut syms).length := Nat.add_comm _ 2
    obtain ⟨hsym, hrest⟩ := quiet_split (hcount ▸ hq)
    calc decodeLoop eos keep (layOut ((v, n) :: syms) ++ tail) io ⟨filled, none⟩
      _ = decodeLoop eos keep (layOut syms ++ tail) (io.drop 2) ⟨filled ++ List.replicate n.toNat v, none⟩ :=
        decodeLoop_symbol _ hsym hn hfits
      _ = decodeLoop eos keep tail ((io.drop 2).drop (layOut syms).length)
            ⟨filled ++ List.replicate n.toNat v ++ expansion syms, none⟩ := ih hne hlen' hrest
      _ = _ := by rw [List.drop_drop, ← hcount, List.append_assoc, expansion_cons]

/-- From its start, an RLD reads data symbols and comes to what follows them with just their expansion filled. -/
theorem decodeLoop_start {eos keep : Bool} (tail : List Byte) {syms : List (Byte × Byte)} {io : List Bool}
    (hsyms : dataSymbols syms) (hq : true ∉ io.take (layOut syms).length) :
    decodeLoop eos keep (layOut syms ++ tail) io rldStart =
      decodeLoop eos keep tail (io.drop (layOut syms).length) ⟨expansion syms, none⟩ :=
  decodeLoop_layOut (filled := []) tail hsyms.1 (by simpa using hsyms.2) hq

/-! ### RLD -/

theorem exec_rld_of_ready {s : State} (h : s.ready = true) : exec .rld s = .next (runRld rldStart s) :=
  whenReady_ready h _

theorem runRld_of_done {h : RldHold} {s : State} {filled rest : List Byte} {io : List Bool}
    (hloop : decodeLoop s.eos (Config.failedGetKeepsByte s.free) s.istr s.ioAnswers h = ⟨.done filled, rest, io⟩) :
    runRld h s = { s with istr := rest, ioAnswers := io, bufZ := padded filled, vZ := true, hold := none } := by
  rw [runRld, hloop, finishRld]

theorem runRld_of_wait {h h' : RldHold} {s : State} {rest : List Byte} {io : List Bool}
    (hloop : decodeLoop s.eos (Config.failedGetKeepsByte s.free) s.istr s.ioAnswers h = ⟨.wait h', rest, io⟩) :
    runRld h s = { s with istr := rest, ioAnswers := io, hold := some h' } := by
  rw [runRld, hloop, finishRld]

/-- RLD takes data symbols and the sentinel and leaves whatever follows. -/
theorem exec_rld_layOut_sentinel {s : State} {syms : List (Byte × Byte)} {rest : List Byte} (hready : s.ready = true)
    (hsyms : dataSymbols syms) (histr : s.istr = layOut syms ++ [0xFF#8, 0x00#8] ++ rest)
    (hq : s.quiet (layOut syms ++ [0xFF#8, 0x00#8]).length) :
    exec .rld s = .next { s with istr := rest, bufZ := padded (expansion syms), vZ := true
                                 ioAnswers := s.ioAnswers.drop (layOut syms ++ [0xFF#8, 0x00#8]).length } := by
  rw [State.quiet, List.length_append] at hq
  obtain ⟨hsym, hsent⟩ := quiet_split hq
  have hloop := (decodeLoop_start (eos := s.eos) (keep := Config.failedGetKeepsByte s.free)
    ([0xFF#8, 0x00#8] ++ rest) hsyms hsym).trans (decodeLoop_sentinel rest hsent)
  rw [← List.append_assoc, ← histr, List.drop_drop] at hloop
  rw [exec_rld_of_ready hready, runRld_of_done hloop, ← ((ready_iff s).mp hready).1, List.length_append]
  rfl

/-- RLD takes data symbols, and perhaps one value byte after them, and waits for the next byte. -/
theorem exec_rld_layOut_waits {s : State} {syms : List (Byte × Byte)} {value : Option Byte} (hready : s.ready = true)
    (hsyms : dataSymbols syms) (histr : s.istr = layOut syms ++ value.toList) (heos : s.eos = false)
    (hq : s.quiet s.istr.length) :
    exec .rld s = .next { s with istr := [], hold := some ⟨expansion syms, value⟩
                                 ioAnswers := s.ioAnswers.drop s.istr.length } := by
  rw [State.quiet, histr, List.length_append] at hq
  obtain ⟨hsym, hvalue⟩ := quiet_split hq
  have hloop := (decodeLoop_start (eos := false) (keep := Config.failedGetKeepsByte s.free)
    value.toList hsyms hsym).trans (decodeLoop_waits value hvalue)
  rw [List.drop_drop, ← List.length_append, ← histr, ← heos] at hloop
  rw [exec_rld_of_ready hready, runRld_of_wait hloop]

/-- An RLD that starts with `eos` raised ends: it completes or faults. -/
theorem exec_rld_not_busy_of_eos {s t : State} (hready : s.ready = true) (heos : s.eos = true)
    (h : exec .rld s = .next t) : t.busy = false := by
  cases (exec_rld_of_ready hready).symm.trans h
  obtain ⟨_, _, _, hrun, -⟩ | ⟨_, _, _, -, -, heos'⟩ | ⟨_, _, _, hrun, -⟩ :=
    runRld_cases (h := rldStart) (s := s) (Nat.zero_le 64)
  · rw [hrun]; rfl
  · simp [heos] at heos'
  · rw [hrun]; exact not_busy_of_halted (takeFault_halted _ _ _)

/-! ### While an RLD waits -/

/-- The CORE's own state (10_state.md) is the same in both states; the streams, the planes, the oracle and the host's side may
differ. -/
def keepsCore (s t : State) : Prop :=
  t = { s with istr := t.istr, eos := t.eos, ostr := t.ostr, planeY := t.planeY, planeCr := t.planeCr
               planeCb := t.planeCb, ioAnswers := t.ioAnswers, host := t.host, rsp := t.rsp, free := t.free }

theorem writePlane_keepsCore (s : State) (p : PlaneId) (addr : Word) (b : Byte) : keepsCore s (writePlane s p addr b) := by
  cases p <;> rfl

theorem whenIdle_of_busy {s : State} (h : s.busy = true) (run : Host.Outcome State Fault Refusal) :
    whenIdle s run = .next s := if_pos h

/-- While the CORE is busy, no interaction of the host but `rst` reaches the CORE's own state. -/
theorem hostStep_keepsCore_of_busy {s t : State} (hbusy : s.busy = true) (hr : s.resetNext = false)
    (h : hostStep s = .next t) : keepsCore s t := by
  unfold hostStep at h
  cases hs : s.host with
  | nil => rw [hs] at h; cases h; rfl
  | cons a acts =>
    rw [hs] at h
    have ha : a.resets = false := by simpa [State.resetNext, hs] using hr
    cases a with
    | cmd w => cases (whenIdle_of_busy hbusy _).symm.trans h; rfl
    | csrrd n => cases h; rfl
    | bufrd b k => cases (whenIdle_of_busy hbusy _).symm.trans h; rfl
    | bufwr b v => cases (whenIdle_of_busy hbusy _).symm.trans h; rfl
    | feed bytes => dsimp only at h; split at h <;> cases h; rfl
    | raiseEos => dsimp only at h; split at h <;> cases h; rfl
    | drain n => cases h; rfl
    | planeWrite p addr b => cases h; exact writePlane_keepsCore { s with host := acts } p addr b
    | rst => cases ha
    | rstRefill bytes => cases ha
    | cmdCut w k => cases ha
    | cmdRacing w writes => cases (whenIdle_of_busy hbusy _).symm.trans h; rfl

theorem goesOn_of_starved {s : State} (histr : s.istr = []) (heos : s.eos = false) : s.goesOn = false := by
  simp [State.goesOn, histr, heos]

/-- A waiting RLD with neither a byte nor `eos` stays as it is through every step but a reset (20_memory.md R35). -/
theorem step_keepsCore_of_starved {s t : State} (hbusy : s.busy = true) (histr : s.istr = []) (heos : s.eos = false)
    (hr : s.resetNext = false) (h : step s = .next t) : keepsCore s t :=
  hostStep_keepsCore_of_busy hbusy hr ((coreStep_of_not_goesOn (goesOn_of_starved histr heos)).symm.trans h)

/-- A byte or `eos` lets a waiting RLD go on when the host does nothing more. -/
theorem goesOn_of_input {s : State} (hbusy : s.busy = true) (hin : s.istr ≠ [] ∨ s.eos = true) (hhost : s.host = []) :
    s.goesOn = true := by
  simp [State.goesOn, State.rstNext, hbusy, hhost, hin]

/-! ### The commands and the streams -/

/-- ISTR and OSTR are the same in both states. -/
def keepsStreams (s t : State) : Prop := t.istr = s.istr ∧ t.ostr = s.ostr

theorem keepsStreams_refl (s : State) : keepsStreams s s := ⟨rfl, rfl⟩

theorem takeFault_keepsStreams (f : FaultCode) (w : Word) (s : State) : keepsStreams s (takeFault f w s) :=
  ⟨takeFault_istr f w s, takeFault_ostr f w s⟩

theorem whenReady_keepsStreams {s run t : State} (h : whenReady s run = .next t) (hrun : keepsStreams s run) :
    keepsStreams s t := by
  obtain ⟨-, rfl⟩ | ⟨-, rfl⟩ := whenReady_cases h
  · exact hrun
  · exact keepsStreams_refl t

theorem fromSource_keepsStreams {i : Instr} {valid : Bool} {s run t : State} (h : fromSource i valid s run = .next t)
    (hrun : keepsStreams s run) : keepsStreams s t := by
  obtain ⟨-, rfl⟩ | ⟨-, -, rfl⟩ | ⟨-, -, rfl⟩ := fromSource_cases h
  · exact keepsStreams_refl t
  · exact takeFault_keepsStreams .noSrc _ s
  · exact hrun

theorem partition_keepsStreams (rd : PlaneId → Nat → Byte) (p : BitVec 2) (bx bY : BitVec 13) (s : State) :
    keepsStreams s (partition rd p bx bY s) := by
  obtain ⟨-, h⟩ | ⟨_, io, -, -, h⟩ | ⟨_, _, -, -, h⟩ := partition_cases rd p bx bY s <;> rw [h]
  · exact takeFault_keepsStreams .illegal _ s
  · exact takeFault_keepsStreams .io _ { s with ioAnswers := io }
  · exact ⟨rfl, rfl⟩

/-- Only RLE and RLD touch the streams. -/
theorem exec_keepsStreams {i : Instr} {s t : State} (hrle : i ≠ .rle) (hrld : i ≠ .rld) (h : exec i s = .next t) :
    keepsStreams s t := by
  cases i with
  | nop => exact whenReady_keepsStreams h ⟨rfl, rfl⟩
  | cfgw => exact whenReady_keepsStreams h ⟨rfl, rfl⟩
  | cfgh => exact whenReady_keepsStreams h ⟨rfl, rfl⟩
  | bpx p bx bY => exact whenReady_keepsStreams h (partition_keepsStreams (memRead s) p bx bY s)
  | rle => exact absurd rfl hrle
  | rld => exact absurd rfl hrld
  | lsh => exact fromSource_keepsStreams h ⟨rfl, rfl⟩
  | fdct => exact fromSource_keepsStreams h ⟨rfl, rfl⟩
  | qnt => exact fromSource_keepsStreams h ⟨rfl, rfl⟩
  | zzs => exact fromSource_keepsStreams h ⟨rfl, rfl⟩
  | zzu => exact fromSource_keepsStreams h ⟨rfl, rfl⟩
  | dqt => exact fromSource_keepsStreams h ⟨rfl, rfl⟩
  | idct => exact fromSource_keepsStreams h ⟨rfl, rfl⟩
  | uls => exact fromSource_keepsStreams h ⟨rfl, rfl⟩

@[simp] theorem encodeRuns_istr (s : State) : (encodeRuns s).istr = s.istr := by
  unfold encodeRuns
  dsimp only
  split
  · exact takeFault_istr _ _ _
  · rfl

/-- RLE appends what its `StrPut` calls appended before an error, if there is one. -/
@[simp] theorem encodeRuns_ostr (s : State) :
    (encodeRuns s).ostr = s.ostr ++ (putBytes (symbolStream (cells s.bufZ)) s.ioAnswers).appended := by
  unfold encodeRuns
  dsimp only
  split
  · exact takeFault_ostr _ _ _
  · rfl

/-- RLE leaves ISTR and appends to OSTR the first bytes of Z's symbol stream. -/
theorem exec_rle_streams {s t : State} (h : exec .rle s = .next t) :
    t.istr = s.istr ∧ ∃ bytes, t.ostr = s.ostr ++ bytes ∧ bytes <+: symbolStream (cells s.bufZ) := by
  obtain ⟨-, rfl⟩ | ⟨-, -, rfl⟩ | ⟨-, -, rfl⟩ := fromSource_cases h
  · exact ⟨rfl, [], by simp⟩
  · exact ⟨takeFault_istr _ _ _, [], by simp⟩
  · exact ⟨encodeRuns_istr s, _, encodeRuns_ostr s, putBytes_prefix _ _⟩

theorem exec_rld_ostr {s t : State} (h : exec .rld s = .next t) : t.ostr = s.ostr := by
  obtain ⟨-, rfl⟩ | ⟨-, rfl⟩ := whenReady_cases h
  · obtain ⟨_, _, _, hrun, -⟩ | ⟨_, _, _, hrun, -⟩ | ⟨_, _, _, hrun, -⟩ :=
      runRld_cases (h := rldStart) (s := s) (Nat.zero_le 64)
    · rw [hrun]
    · rw [hrun]
    · rw [hrun]; exact takeFault_ostr _ _ _
  · rfl

/-- No command but RLD moves the position in ISTR (20_memory.md R37). -/
theorem exec_istr {i : Instr} {s t : State} (hrld : i ≠ .rld) (h : exec i s = .next t) : t.istr = s.istr := by
  by_cases hrle : i = .rle
  · subst hrle; exact (exec_rle_streams h).1
  · exact (exec_keepsStreams hrle hrld h).1

/-- No command but RLE changes OSTR (20_memory.md R39). -/
theorem exec_ostr {i : Instr} {s t : State} (hrle : i ≠ .rle) (h : exec i s = .next t) : t.ostr = s.ostr := by
  by_cases hrld : i = .rld
  · subst hrld; exact exec_rld_ostr h
  · exact (exec_keepsStreams hrle hrld h).2

/-! ### The statements on the streams -/

/-- Settles O33: the loop reads the symbols by `decodeLoop_layOut` and ends at the sentinel; the other commands leave ISTR by
`exec_istr`. -/
theorem rldStopsAtTheSentinel : Obligations.RldStopsAtTheSentinel := by
  unfold Obligations.RldStopsAtTheSentinel
  refine ⟨?_, fun i s t hi h => exec_istr hi h⟩
  intro s syms rest hready hsyms histr hq
  exact ⟨_, exec_rld_layOut_sentinel hready hsyms histr hq, rfl, fun k hk => cell_tabulate _ hk⟩

/-- Settles O35: the wait is where the loop runs out of bytes; until a byte or `eos` is there a step is the host's next
interaction, which leaves the CORE's own state unless it resets. -/
theorem rldWaitsForTheHost : Obligations.RldWaitsForTheHost := by
  unfold Obligations.RldWaitsForTheHost
  refine ⟨?_, ?_, ?_, fun s t hready heos h => exec_rld_not_busy_of_eos hready heos h⟩
  · intro s syms value hready hsyms histr heos hq
    have hfc : s.fc = none := ((ready_iff s).mp hready).2
    exact ⟨_, exec_rld_layOut_waits hready hsyms histr heos hq, (busy_iff _).mpr ⟨by simp, hfc⟩, rfl⟩
  · intro s t hbusy histr heos hr h
    have hkeep := step_keepsCore_of_starved hbusy histr heos hr h
    rw [hkeep]
    exact ⟨rfl, hbusy, rfl, rfl, rfl, rfl, rfl, rfl, fun b => by cases b <;> rfl, rfl, rfl, rfl, rfl⟩
  · intro h s hhold hfc hin hhost
    have hbusy : s.busy = true := (busy_iff s).mpr ⟨by simp [hhold], hfc⟩
    obtain ⟨held, hheld, hstep⟩ := step_of_goesOn (goesOn_of_input hbusy hin hhost)
    cases hheld.symm.trans hhold
    exact hstep

/-- Settles O38: an RLE appends the bytes of its `StrPut` calls, every other command leaves OSTR. -/
theorem onlyRleAppendsToOstr : Obligations.OnlyRleAppendsToOstr := by
  unfold Obligations.OnlyRleAppendsToOstr
  intro i s t h
  by_cases hrle : i = .rle
  · subst hrle
    obtain ⟨-, bytes, hostr, hprefix⟩ := exec_rle_streams h
    exact ⟨bytes, hostr, fun hne => absurd rfl hne, hprefix⟩
  · exact ⟨[], by simp [exec_ostr hrle h], fun _ => rfl, List.nil_prefix⟩

end Sys2Proof.Machine
end

section
/-!
PROOFS. Which words are commands (30_encoding.md R55 to R58): the decoder decides by `op` and by the reserved field of the
format, the rows of the opcode map ask for the same two things, and a word that fails is recorded as F_ILLEGAL.
-/

namespace Sys2Proof.Machine

/-- The opcodes of format N (30_encoding.md R51, R55). -/
def opsN : List Nat := [0, 4, 5, 6, 7, 8, 9, 10, 11, 12, 13]

/-! ### What each format asks of a word -/

@[simp] theorem decodeN_illegal_iff (w : Word) (i : Instr) :
    (∃ why, decodeN w i = .illegal why) ↔ bitField w 0 28 ≠ 0#28 := by
  unfold decodeN
  split <;> simp [*]

@[simp] theorem decodeI_illegal_iff (w : Word) (f : BitVec 16 → Instr) :
    (∃ why, decodeI w f = .illegal why) ↔ bitField w 16 12 ≠ 0#12 := by
  unfold decodeI
  split <;> simp [*]

@[simp] theorem decodeB_illegal_iff (w : Word) : (∃ why, decodeB w = .illegal why) ↔ bitField w 26 2 = 3#2 := by
  unfold decodeB
  split <;> simp [*]

theorem exists_instr_iff (d : Decoded) : (∃ i, d = .instr i) ↔ ¬ ∃ why, d = .illegal why := by
  cases d <;> simp

/-- The opcodes 0xE and 0xF are reserved (30_encoding.md R56). -/
theorem decode_of_reserved_opcode {w : Word} (h : 14 ≤ (bitField w 28 4).toNat) : decode w = .illegal .reservedOpcode := by
  unfold decode
  split
  case h_15 => rfl
  all_goals omega

/-- Which words are illegal: a reserved opcode, or the reserved field of the opcode's format (30_encoding.md R56 to R58). -/
theorem decode_illegal_iff (w : Word) : (∃ why, decode w = .illegal why) ↔
    ((bitField w 28 4).toNat ∈ [14, 15])
      ∨ ((bitField w 28 4).toNat ∈ opsN ∧ bitField w 0 28 ≠ 0#28)
      ∨ ((bitField w 28 4).toNat ∈ [1, 2] ∧ bitField w 16 12 ≠ 0#12)
      ∨ ((bitField w 28 4).toNat = 3 ∧ bitField w 26 2 = 3#2) := by
  by_cases hop : 14 ≤ (bitField w 28 4).toNat
  · have hlt : (bitField w 28 4).toNat < 16 := (bitField w 28 4).isLt
    have hmem : (bitField w 28 4).toNat ∈ [14, 15] := by
      simp only [List.mem_cons, List.not_mem_nil, or_false]; omega
    exact iff_of_true ⟨_, decode_of_reserved_opcode hop⟩ (.inl hmem)
  · interval_cases hw : (bitField w 28 4).toNat
    all_goals simp [decode, opsN, hw]

section
variable {w : Word}

theorem decodes_iff_formatN (hop : (bitField w 28 4).toNat ∈ opsN) :
    (∃ i, decode w = .instr i) ↔ bitField w 0 28 = 0#28 := by
  have hother : (bitField w 28 4).toNat ∉ [14, 15] ∧ (bitField w 28 4).toNat ∉ [1, 2] ∧ (bitField w 28 4).toNat ≠ 3 := by
    simp only [opsN, List.mem_cons, List.not_mem_nil, or_false] at hop ⊢; omega
  rw [exists_instr_iff, decode_illegal_iff]
  simp only [hop, hother, true_and, false_and, false_or, or_false, not_not, ne_eq]

theorem decodes_iff_formatI (hop : (bitField w 28 4).toNat ∈ [1, 2]) :
    (∃ i, decode w = .instr i) ↔ bitField w 16 12 = 0#12 := by
  have hother : (bitField w 28 4).toNat ∉ [14, 15] ∧ (bitField w 28 4).toNat ∉ opsN ∧ (bitField w 28 4).toNat ≠ 3 := by
    simp only [opsN, List.mem_cons, List.not_mem_nil, or_false] at hop ⊢; omega
  rw [exists_instr_iff, decode_illegal_iff]
  simp only [hop, hother, true_and, false_and, false_or, or_false, not_not, ne_eq]

theorem decodes_iff_formatB (hop : (bitField w 28 4).toNat = 3) : (∃ i, decode w = .instr i) ↔ bitField w 26 2 ≠ 3#2 := by
  rw [exists_instr_iff, decode_illegal_iff]
  simp [opsN, hop]

end

/-! ### A masked word and its fields -/

theorem append_inj {n m : Nat} {x x' : BitVec n} {y y' : BitVec m} : x ++ y = x' ++ y' ↔ x = x' ∧ y = y' := by
  refine ⟨fun h => ⟨?_, ?_⟩, fun ⟨hx, hy⟩ => hx ▸ hy ▸ rfl⟩
  · rw [← BitVec.extractLsb'_append_eq_left (a := x) (b := y), h, BitVec.extractLsb'_append_eq_left]
  · rw [← BitVec.setWidth_append_eq_right (a := x) (b := y), h, BitVec.setWidth_append_eq_right]

/-- A mask of the upper bits compares the upper field alone. -/
theorem append_and_upper_iff {n m : Nat} (x p : BitVec n) (y : BitVec m) :
    (x ++ y) &&& (BitVec.allOnes n ++ 0#m) = p ++ 0#m ↔ x = p := by
  rw [BitVec.and_append, BitVec.and_allOnes, BitVec.and_zero, BitVec.append_left_inj]

theorem op_append_rest (w : Word) : bitField w 28 4 ++ bitField w 0 28 = w :=
  (bitField_append w 0 4 28 rfl).trans (bitField_whole w)

/-- The mask of format N compares `op` and the reserved bits 27:0 (30_encoding.md R51, R55). -/
theorem mask_formatN (w : Word) (op : BitVec 4) :
    w &&& 0xFFFFFFFF#32 = wordN op ↔ bitField w 28 4 = op ∧ bitField w 0 28 = 0#28 := by
  have hmask : w &&& 0xFFFFFFFF#32 = w := BitVec.and_allOnes
  rw [hmask, wordN, ← append_inj, op_append_rest]

/-- The mask of format I compares `op` and the reserved bits 27:16 (30_encoding.md R52, R55). -/
theorem mask_formatI (w : Word) (op : BitVec 4) :
    w &&& 0xFFFF0000#32 = wordI op 0#16 ↔ bitField w 28 4 = op ∧ bitField w 16 12 = 0#12 := by
  have hw : bitField w 16 16 ++ bitField w 0 16 = w := (bitField_append w 0 16 16 rfl).trans (bitField_whole w)
  have hmask := append_and_upper_iff (bitField w 16 16) (op ++ 0#12) (bitField w 0 16)
  rw [hw] at hmask
  rw [← append_inj, bitField_append w 16 4 12 rfl]
  exact hmask

/-- The mask of format B compares `op` alone (30_encoding.md R53, R55). -/
theorem mask_formatB (w : Word) (op : BitVec 4) : w &&& 0xF0000000#32 = wordN op ↔ bitField w 28 4 = op := by
  have hmask := append_and_upper_iff (bitField w 28 4) op (bitField w 0 28)
  rw [op_append_rest] at hmask
  exact hmask

/-! ### The rows of the opcode map -/

/-- The opcode of a command, as its word carries it (30_encoding.md R50). -/
def opcodeOf (i : Instr) : Nat := (bitField (encode i) 28 4).toNat

theorem opcodeOf_of_decode {w : Word} {i : Instr} (h : decode w = .instr i) : opcodeOf i = (bitField w 28 4).toNat := by
  rw [opcodeOf, encode_of_decode h]

/-- The opcode map lists the commands by opcode. -/
theorem opcodeMap_opcodeOf (i : Instr) : (opcodeMap.map OpcodeRow.mnemonic)[opcodeOf i]? = some i.mnemonic := by
  cases i with
  | cfgw imm16 => rw [opcodeOf, encode, (Laws.Encode.format_i_fields _ imm16).1]; rfl
  | cfgh imm16 => rw [opcodeOf, encode, (Laws.Encode.format_i_fields _ imm16).1]; rfl
  | bpx p bx bY => rw [opcodeOf, encode, (Laws.Encode.format_b_fields _ p bx bY).1]; rfl
  | _ => rfl

theorem mnemonics_nodup : (opcodeMap.map OpcodeRow.mnemonic).Nodup := by decide

/-- A command has a row's mnemonic when it has the row's opcode: no two rows share a mnemonic. -/
theorem mnemonic_eq_iff {k : Nat} {row : OpcodeRow} (hrow : opcodeMap[k]? = some row) (i : Instr) :
    i.mnemonic = row.mnemonic ↔ opcodeOf i = k := by
  have hk : (opcodeMap.map OpcodeRow.mnemonic)[k]? = some row.mnemonic := by simp [hrow]
  constructor
  · intro h
    obtain ⟨hlt, -⟩ := List.getElem?_eq_some_iff.mp (opcodeMap_opcodeOf i)
    exact (List.getElem?_inj hlt mnemonics_nodup).mp (by rw [opcodeMap_opcodeOf, hk, h])
  · rintro rfl
    exact Option.some.inj ((opcodeMap_opcodeOf i).symm.trans hk)

theorem decodes_to_row_iff {k : Nat} {row : OpcodeRow} (hrow : opcodeMap[k]? = some row) (w : Word) :
    (∃ i, decode w = .instr i ∧ i.mnemonic = row.mnemonic) ↔ (bitField w 28 4).toNat = k ∧ ∃ i, decode w = .instr i := by
  constructor
  · rintro ⟨i, hi, hm⟩
    exact ⟨opcodeOf_of_decode hi ▸ (mnemonic_eq_iff hrow i).mp hm, i, hi⟩
  · rintro ⟨hop, i, hi⟩
    exact ⟨i, hi, (mnemonic_eq_iff hrow i).mpr (opcodeOf_of_decode hi ▸ hop)⟩

theorem op_eq_iff {k : Nat} (hk : k < 16) (w : Word) :
    bitField w 28 4 = BitVec.ofNat 4 k ↔ (bitField w 28 4).toNat = k := by
  rw [← BitVec.toNat_inj, BitVec.toNat_ofNat, Nat.mod_eq_of_lt hk]

section
variable {k : Nat} {row : OpcodeRow}

theorem fits_formatN (hk : k ∈ opsN) (hname : (row.mnemonic != "BPX") = true)
    (hmask : row.mask = 0xFFFFFFFF#32) (hpattern : row.pattern = wordN (BitVec.ofNat 4 k)) (w : Word) :
    row.fits w = true ↔ (bitField w 28 4).toNat = k ∧ ∃ i, decode w = .instr i := by
  have hlt : k < 16 := by simp only [opsN, List.mem_cons, List.not_mem_nil, or_false] at hk; omega
  have hfits : row.fits w = true ↔ (bitField w 28 4).toNat = k ∧ bitField w 0 28 = 0#28 := by
    simp [OpcodeRow.fits, hname, hmask, hpattern, mask_formatN, op_eq_iff hlt]
  rw [hfits]
  exact and_congr_right fun hop => (decodes_iff_formatN (hop ▸ hk)).symm

theorem fits_formatI (hk : k ∈ [1, 2]) (hname : (row.mnemonic != "BPX") = true)
    (hmask : row.mask = 0xFFFF0000#32) (hpattern : row.pattern = wordI (BitVec.ofNat 4 k) 0#16) (w : Word) :
    row.fits w = true ↔ (bitField w 28 4).toNat = k ∧ ∃ i, decode w = .instr i := by
  have hlt : k < 16 := by simp only [List.mem_cons, List.not_mem_nil, or_false] at hk; omega
  have hfits : row.fits w = true ↔ (bitField w 28 4).toNat = k ∧ bitField w 16 12 = 0#12 := by
    simp [OpcodeRow.fits, hname, hmask, hpattern, mask_formatI, op_eq_iff hlt]
  rw [hfits]
  exact and_congr_right fun hop => (decodes_iff_formatI (hop ▸ hk)).symm

theorem fits_formatB (hname : row.mnemonic = "BPX") (hmask : row.mask = 0xF0000000#32)
    (hpattern : row.pattern = wordN 0x3#4) (w : Word) :
    row.fits w = true ↔ (bitField w 28 4).toNat = 3 ∧ ∃ i, decode w = .instr i := by
  have hfits : row.fits w = true ↔ (bitField w 28 4).toNat = 3 ∧ bitField w 26 2 ≠ 3#2 := by
    simp [OpcodeRow.fits, hname, hmask, hpattern, mask_formatB, op_eq_iff (k := 3)]
  rw [hfits]
  exact and_congr_right fun hop => (decodes_iff_formatB hop).symm

end

/-- A row asks for its opcode, and for what the decoder asks of a word with that opcode (30_encoding.md R55). -/
theorem row_fits_iff {k : Nat} {row : OpcodeRow} (hrow : opcodeMap[k]? = some row) (w : Word) :
    row.fits w = true ↔ (bitField w 28 4).toNat = k ∧ ∃ i, decode w = .instr i := by
  obtain ⟨hk, rfl⟩ := List.getElem?_eq_some_iff.mp hrow
  match k, hk with
  | 1, _ | 2, _ => exact fits_formatI (by decide) rfl rfl rfl w
  | 3, _ => exact fits_formatB rfl rfl rfl w
  | 0, _ | 4, _ | 5, _ | 6, _ | 7, _ | 8, _ | 9, _ | 10, _ | 11, _ | 12, _ | 13, _ =>
    exact fits_formatN (by decide) rfl rfl rfl w

/-! ### An illegal word at the port `CMD` -/

/-- A ready CORE runs the word the host offers, the word gone from the host's list (30_encoding.md R50). -/
theorem step_of_takes {s : State} {w : Word} {acts : List HostAct} (h : s.takes w acts) :
    step s = takeWord w { s with host := acts } := by
  obtain ⟨hready, hhost⟩ := h
  have hbusy : s.busy = false := not_busy_of_ready hready
  rw [step, coreStep_of_not_goesOn (goesOn_of_not_busy hbusy)]
  simp [hostStep, hhost, whenIdle, hbusy]

/-- An illegal word is recorded, and nothing else changes (60_exceptions.md R151). -/
theorem takeWord_illegal {s : State} {w : Word} {why : DecodeError} (hready : s.ready = true)
    (hw : decode w = .illegal why) : takeWord w s = .next { s with fc := some .illegal, fcmd := w } := by
  obtain ⟨hhold, hfc⟩ := (ready_iff s).mp hready
  rw [takeWord, hw, whenReady_ready hready, takeFault_of_none hfc, ← hhold]

/-! ### The obligations -/

/-- Settles O3: a row's mask and match ask for its opcode and its clear reserved field, as the decoder does. -/
theorem opcodeMapDecidesTheWord : Obligations.OpcodeMapDecidesTheWord := by
  unfold Obligations.OpcodeMapDecidesTheWord
  refine ⟨fun w row hmem => ?_, fun w => decode_of_reserved_opcode⟩
  obtain ⟨k, hrow⟩ := List.mem_iff_getElem?.mp hmem
  rw [row_fits_iff hrow, decodes_to_row_iff hrow]

/-- Settles O4: `decode_illegal_iff` says which words, `step_of_takes` and `takeWord_illegal` what becomes of them. -/
theorem illegalWordsFault : Obligations.IllegalWordsFault := by
  unfold Obligations.IllegalWordsFault
  refine ⟨decode_illegal_iff, fun s w acts why htakes hw => ?_, by decide, by decide⟩
  have hready : State.ready { s with host := acts } = true := htakes.1
  rw [step_of_takes htakes, takeWord_illegal hready hw]

end Sys2Proof.Machine
end

section
/-!
PROOFS. NOP (40_config_partitioner.md R70): what its opcode asks of a word, what the command does, and what becomes of its word
at the port `CMD`.
-/

namespace Sys2Proof.Machine

/-- Opcode 0 is the row of NOP, a format N command (30_encoding.md R55). -/
theorem decode_of_op_zero {w : Word} (hop : bitField w 28 4 = 0x0#4) : decode w = decodeN w .nop := by
  rw [decode, hop]; rfl

theorem decodeN_of_reserved_bits {w : Word} (i : Instr) (hlow : bitField w 0 28 ≠ 0#28) :
    decodeN w i = .illegal .reservedBits := if_neg hlow

/-- A command whose effect is the state it found changes nothing, whether the CORE is ready or not. -/
@[simp] theorem whenReady_self (s : State) : whenReady s s = .next s := by
  cases h : s.ready with
  | true => exact whenReady_ready h s
  | false => exact whenReady_not_ready h s

theorem exec_nop (s : State) : exec .nop s = .next s := whenReady_self s

/-- Every CORE that is not busy, ready or halted, takes the word the host offers (30_encoding.md R50, 60_exceptions.md R164). -/
theorem step_of_offered_word {s : State} {w : Word} {acts : List HostAct} (hbusy : s.busy = false)
    (hhost : s.host = .cmd w :: acts) : step s = takeWord w { s with host := acts } := by
  rw [step, coreStep_of_not_goesOn (goesOn_of_not_busy hbusy)]
  simp [hostStep, hhost, whenIdle, hbusy]

/-- NOP's word leaves every state as it is. -/
theorem takeWord_nop {w : Word} (hw : decode w = .instr .nop) (s : State) : takeWord w s = .next s := by
  rw [takeWord, hw]; exact exec_nop s

/-- Settles O11: NOP's effect is the state it found, so a halted CORE loses only the word; with opcode 0 the decoder asks for
clear bits 27:0. -/
theorem nopChangesNothing : Obligations.NopChangesNothing := by
  unfold Obligations.NopChangesNothing
  have hdecode : decode 0x00000000#32 = .instr .nop := Laws.Encode.nop rfl
  refine ⟨rfl, hdecode, exec_nop, ?_, ?_⟩
  · intro s acts hhalted hhost
    rw [step_of_offered_word (not_busy_of_halted hhalted) hhost, takeWord_nop hdecode]
  · intro w hop hlow
    rw [decode_of_op_zero hop, decodeN_of_reserved_bits .nop hlow]

end Sys2Proof.Machine
end

section
/-!
PROOFS. The zigzag scanner (42_zigzag.md): scan and unscan move the 64 cells along ZZ and back (R100, R106), and ZZS and ZZU
compute them.
-/

namespace Sys2Proof.Machine

/-! ### The table -/

/-- The table is `ZZ` listed over its 64 positions. -/
theorem zzTable_eq_map : zzTable = (List.range 64).map zz := by decide

/-- Every cell index stands in the table exactly once (42_zigzag.md R101). -/
theorem zzTable_perm : zzTable.Perm (List.range 64) := by decide

/-- The listed table is the anti-diagonal sweep (42_zigzag.md R102). -/
theorem zzTable_eq_zzGenerated : zzTable = zzGenerated := by decide

/-! ### Scan and unscan of a block -/

theorem cell_zigzagScan (q : Block 8) {k : Nat} (hk : k < 64) : cell (zigzagScan q) k = cell q (zz k) :=
  cell_tabulate _ hk

theorem cell_zigzagUnscan (z : Block 8) {n : Nat} (hn : n < 64) : cell (zigzagUnscan z) n = cell z (zzInv n) :=
  cell_tabulate _ hn

@[simp] theorem zigzagUnscan_zigzagScan (b : Block 8) : zigzagUnscan (zigzagScan b) = b :=
  block_ext fun n hn => by rw [cell_zigzagUnscan _ hn, cell_zigzagScan _ (zzInv_lt n hn), zz_zzInv n hn]

@[simp] theorem zigzagScan_zigzagUnscan (b : Block 8) : zigzagScan (zigzagUnscan b) = b :=
  block_ext fun k hk => by rw [cell_zigzagScan _ hk, cell_zigzagUnscan _ (zz_lt k hk), zzInv_zz k hk]

/-- Scan lists the cells of the block in the order of the table. -/
theorem cells_zigzagScan (b : Block 8) : cells (zigzagScan b) = zzTable.map (cell b) := by
  rw [zzTable_eq_map, List.map_map]; rfl

theorem cells_zigzagScan_perm (b : Block 8) : (cells (zigzagScan b)).Perm (cells b) := by
  rw [cells_zigzagScan, cells_eq_map b]
  exact zzTable_perm.map (cell b)

/-- Unscan keeps the multiset because scanning its result gives the block back. -/
theorem cells_zigzagUnscan_perm (b : Block 8) : (cells (zigzagUnscan b)).Perm (cells b) := by
  have h := cells_zigzagScan_perm (zigzagUnscan b)
  rw [zigzagScan_zigzagUnscan] at h
  exact h.symm

/-! ### The two commands on a ready CORE -/

section
variable {s : State} (hready : s.ready = true)
include hready

theorem exec_zzs (hvalid : s.vQ = true) :
    exec .zzs s = .next { s with bufZ := zigzagScan s.bufQ, vZ := true } := by
  rw [exec, execZzs, hvalid, fromSource_valid hready]

theorem exec_zzu (hvalid : s.vZ = true) :
    exec .zzu s = .next { s with bufQ := zigzagUnscan s.bufZ, vQ := true } := by
  rw [exec, execZzu, hvalid, fromSource_valid hready]

end

/-! ### The obligations -/

/-- Settles O30: scan maps the table over the cells and the table is a permutation of the cell indices; unscan inverts scan. -/
theorem zigzagOnlyMovesValues : Obligations.ZigzagOnlyMovesValues := by
  unfold Obligations.ZigzagOnlyMovesValues
  refine ⟨fun b => ?_, zzTable_perm, zzTable_eq_zzGenerated⟩
  exact ⟨cells_zigzagScan_perm b, cells_zigzagUnscan_perm b, zigzagUnscan_zigzagScan b, zigzagScan_zigzagUnscan b⟩

/-- Settles O29: the first command leaves the CORE ready with the buffer it wrote valid, so the second one runs on it and
inverts it. -/
theorem zigzagRoundTrip : Obligations.ZigzagRoundTrip := by
  unfold Obligations.ZigzagRoundTrip
  constructor
  · intro s hready hvalid
    obtain ⟨-, hfc⟩ := (ready_iff s).mp hready
    exact ⟨_, _, exec_zzs hready hvalid, exec_zzu hready rfl, zigzagUnscan_zigzagScan s.bufQ, hfc, hfc⟩
  · intro s hready hvalid
    obtain ⟨-, hfc⟩ := (ready_iff s).mp hready
    exact ⟨_, _, exec_zzu hready hvalid, exec_zzs hready rfl, zigzagScan_zigzagUnscan s.bufZ, hfc, hfc⟩

end Sys2Proof.Machine
end

section
/-!
PROOFS. The run-length codec (43_rle.md): the runs of Z as symbols, whose counts fit in a byte, so that the stream of an RLE is
data symbols and one sentinel (R113), and an RLD that reads it writes Z back (R117); a completed RLD has read such a stream,
which bounds what it consumes (R118).
-/

namespace Sys2Proof.Machine

/-! ### Maximal runs -/

/-- The cells that runs stand for (43_rle.md R110). -/
def runCells (runs : List (Byte × Nat)) : List Byte := runs.flatMap fun run => List.replicate run.2 run.1

@[simp] theorem runCells_cons (v : Byte) (n : Nat) (runs : List (Byte × Nat)) :
    runCells ((v, n) :: runs) = List.replicate n v ++ runCells runs := rfl

/-- One more cell in front lengthens the first run, if that has its value, or starts a run of its own. -/
theorem runsOf_cons_cases (v : Byte) (vs : List Byte) :
    (∃ n rest, runsOf vs = (v, n) :: rest ∧ runsOf (v :: vs) = (v, n + 1) :: rest)
      ∨ (runsOf (v :: vs) = (v, 1) :: runsOf vs ∧ ∀ run ∈ (runsOf vs).head?, v ≠ run.1) := by
  rw [runsOf]
  cases runsOf vs with
  | nil => exact .inr ⟨rfl, by simp⟩
  | cons run rest =>
    obtain ⟨u, n⟩ := run
    by_cases hvu : v = u
    · subst hvu; exact .inl ⟨n, rest, rfl, if_pos rfl⟩
    · exact .inr ⟨if_neg hvu, by simpa using hvu⟩

/-- The runs of a sequence stand for the sequence. -/
@[simp] theorem runCells_runsOf (z : List Byte) : runCells (runsOf z) = z := by
  induction z with
  | nil => rfl
  | cons v vs ih =>
    obtain ⟨n, rest, hvs, h⟩ | ⟨h, -⟩ := runsOf_cons_cases v vs
    · rw [hvs, runCells_cons] at ih
      rw [h, runCells_cons, List.replicate_succ, List.cons_append, ih]
    · rw [h, runCells_cons, ih]; rfl

/-- No run is empty. -/
theorem runsOf_count_pos {z : List Byte} : ∀ run ∈ runsOf z, 0 < run.2 := by
  induction z with
  | nil => simp [runsOf]
  | cons v vs ih =>
    obtain ⟨n, rest, hvs, h⟩ | ⟨h, -⟩ := runsOf_cons_cases v vs <;> rw [h, List.forall_mem_cons]
    · rw [hvs, List.forall_mem_cons] at ih
      exact ⟨Nat.succ_pos n, ih.2⟩
    · exact ⟨Nat.one_pos, ih⟩

/-- The runs are maximal: neighbours differ in value (43_rle.md R113). -/
theorem runsOf_isChain (z : List Byte) : (runsOf z).IsChain fun x y => x.1 ≠ y.1 := by
  induction z with
  | nil => exact .nil
  | cons v vs ih =>
    obtain ⟨n, rest, hvs, h⟩ | ⟨h, hne⟩ := runsOf_cons_cases v vs <;> rw [h, List.isChain_cons]
    · rwa [hvs, List.isChain_cons] at ih
    · exact ⟨hne, ih⟩

/-- A run is no longer than the sequence. -/
theorem runsOf_count_le_length {z : List Byte} {run : Byte × Nat} (h : run ∈ runsOf z) : run.2 ≤ z.length := by
  have hsum : ((runsOf z).map Prod.snd).sum = z.length := by
    simpa [runCells, List.length_flatMap] using congrArg List.length (runCells_runsOf z)
  exact hsum ▸ List.le_sum_of_mem (List.mem_map_of_mem h)

/-! ### Symbols -/

@[simp] theorem layOut_length (syms : List (Byte × Byte)) : (layOut syms).length = 2 * syms.length := by
  simp [layOut, List.length_flatMap, Nat.mul_comm]

theorem expansion_length (syms : List (Byte × Byte)) : (expansion syms).length = (syms.map fun x => x.2.toNat).sum := by
  simp [expansion, List.length_flatMap]

theorem one_le_toNat_of_ne_zero {n : Byte} (h : n ≠ 0x00#8) : 1 ≤ n.toNat :=
  Nat.one_le_iff_ne_zero.mpr fun h0 => h (BitVec.eq_of_toNat_eq h0)

theorem count_le_expansion_length {syms : List (Byte × Byte)} {x : Byte × Byte} (h : x ∈ syms) :
    x.2.toNat ≤ (expansion syms).length := by
  rw [expansion_length]
  exact List.le_sum_of_mem (List.mem_map_of_mem (f := fun x => x.2.toNat) h)

/-- There are at most 64 data symbols: each one fills a cell (43_rle.md R118). -/
theorem length_le_of_dataSymbols {syms : List (Byte × Byte)} (h : dataSymbols syms) : syms.length ≤ 64 := by
  obtain ⟨hne, hlen⟩ := h
  have hcount : syms.length ≤ (expansion syms).length := by
    rw [expansion_length, ← List.length_map (fun x : Byte × Byte => x.2.toNat)]
    refine List.length_le_sum_of_one_le _ fun n hn => ?_
    obtain ⟨x, hx, rfl⟩ := List.mem_map.mp hn
    exact one_le_toNat_of_ne_zero (hne x hx)
  exact hcount.trans hlen

/-! ### The symbols an RLE writes -/

/-- The runs of a sequence as symbols, each count in its byte (43_rle.md R112). -/
def runSymbols (z : List Byte) : List (Byte × Byte) := (runsOf z).map fun run => (run.1, BitVec.ofNat 8 run.2)

@[simp] theorem runSymbols_length (z : List Byte) : (runSymbols z).length = (runsOf z).length := List.length_map _

/-- The symbol stream of a sequence is its symbols and one sentinel. -/
theorem symbolStream_eq_layOut (z : List Byte) : symbolStream z = layOut (runSymbols z) ++ [0xFF#8, 0x00#8] := by
  rw [layOut, runSymbols, List.flatMap_map]; rfl

theorem symbolStream_length (z : List Byte) : (symbolStream z).length = 2 * (runsOf z).length + 2 := by
  simp [symbolStream_eq_layOut]

theorem runSymbols_isChain (z : List Byte) : (runSymbols z).IsChain fun x y => x.1 ≠ y.1 :=
  (List.isChain_map _).mpr (runsOf_isChain z)

section
variable {z : List Byte} (hz : z.length ≤ 64)
include hz

/-- A run of at most 64 cells has its count in one byte. -/
theorem toNat_run_count {run : Byte × Nat} (h : run ∈ runsOf z) : (BitVec.ofNat 8 run.2).toNat = run.2 :=
  Nat.mod_eq_of_lt (Nat.lt_of_le_of_lt ((runsOf_count_le_length h).trans hz) (by decide))

theorem expansion_runSymbols : expansion (runSymbols z) = z := by
  calc expansion (runSymbols z)
    _ = (runsOf z).flatMap fun run => List.replicate (BitVec.ofNat 8 run.2).toNat run.1 := List.flatMap_map ..
    _ = runCells (runsOf z) := List.flatMap_congr fun run h => by rw [toNat_run_count hz h]
    _ = z := runCells_runsOf z

/-- An RLD takes the symbols of at most 64 cells as data. -/
theorem dataSymbols_runSymbols : dataSymbols (runSymbols z) := by
  refine ⟨fun x hx h0 => ?_, by rwa [expansion_runSymbols hz]⟩
  obtain ⟨run, hrun, rfl⟩ := List.mem_map.mp hx
  have hzero : run.2 = 0 := (toNat_run_count hz hrun).symm.trans (congrArg BitVec.toNat h0)
  exact (runsOf_count_pos run hrun).ne' hzero

end

section
variable (b : Block 8)

theorem expansion_runSymbols_cells : expansion (runSymbols (cells b)) = cells b := expansion_runSymbols (cells_length b).le

theorem dataSymbols_runSymbols_cells : dataSymbols (runSymbols (cells b)) := dataSymbols_runSymbols (cells_length b).le

theorem runsOf_cells_ne_nil : runsOf (cells b) ≠ [] := fun h => by
  have hcells := congrArg List.length (runCells_runsOf (cells b))
  rw [h, cells_length] at hcells
  cases hcells

theorem four_le_symbolStream_length : 4 ≤ (symbolStream (cells b)).length := by
  have hpos := List.length_pos_iff.mpr (runsOf_cells_ne_nil b)
  rw [symbolStream_length]; omega

theorem symbolStream_length_le : (symbolStream (cells b)).length ≤ 130 := by
  have hle := length_le_of_dataSymbols (dataSymbols_runSymbols_cells b)
  rw [runSymbols_length] at hle
  rw [symbolStream_length]; omega

end

/-! ### RLE on a ready CORE -/

/-- An oracle quiet for `n` accesses is quiet for fewer. -/
theorem quiet_of_le {s : State} {m n : Nat} (hmn : m ≤ n) (h : s.quiet n) : s.quiet m :=
  fun hm => h ((List.take_prefix_take_left hmn).subset hm)

/-- The longest symbol stream of a block has 130 bytes. -/
theorem quiet_symbolStream {s : State} (b : Block 8) (h : s.quiet 130) : s.quiet (symbolStream (cells b)).length :=
  quiet_of_le (symbolStream_length_le b) h

theorem exec_rle_of_valid {s : State} (hready : s.ready = true) (hvalid : s.vZ = true) :
    exec .rle s = .next (encodeRuns s) := by
  rw [exec, execRle, hvalid, fromSource_valid hready]

/-- Without an access error RLE appends Z's whole stream (43_rle.md R114). -/
theorem exec_rle {s : State} (hready : s.ready = true) (hvalid : s.vZ = true) (hq : s.quiet 130) :
    exec .rle s = .next { s with ostr := s.ostr ++ symbolStream (cells s.bufZ)
                                 ioAnswers := s.ioAnswers.drop (symbolStream (cells s.bufZ)).length } := by
  rw [exec_rle_of_valid hready hvalid, encodeRuns, putBytes_ok _ _ (quiet_symbolStream s.bufZ hq)]
  rfl

/-! ### RLD -/

/-- A symbol ends the RLD complete only when it is the sentinel (43_rle.md R115). -/
theorem takeSymbol_eq_done {filled all : List Byte} {v n : Byte} (h : takeSymbol filled v n = .inl (.done all)) :
    v = 0xFF#8 ∧ n = 0x00#8 ∧ all = filled := by
  unfold takeSymbol at h
  split_ifs at h with hsent hzero hover <;> cases h
  exact ⟨hsent.1, hsent.2, rfl⟩

/-- The RLD goes on after a symbol only when its count is not 0 and its cells fit (43_rle.md R115). -/
theorem takeSymbol_eq_more {filled more : List Byte} {v n : Byte} (h : takeSymbol filled v n = .inr more) :
    n ≠ 0x00#8 ∧ filled.length + n.toNat ≤ 64 ∧ more = filled ++ List.replicate n.toNat v := by
  unfold takeSymbol at h
  split_ifs at h with hsent hzero hover
  cases h
  exact ⟨hzero, Nat.le_of_not_lt hover, rfl⟩

/-- A loop that ends complete has read data symbols and the sentinel; a value byte held at its start is the first byte of
these. -/
theorem decodeLoop_done {eos keep : Bool} {bs : List Byte} {io : List Bool} {h : RldHold} {all : List Byte}
    (hlen : h.filled.length ≤ 64) (hdone : (decodeLoop eos keep bs io h).stop = .done all) :
    ∃ syms, h.value.toList ++ bs = layOut syms ++ [0xFF#8, 0x00#8] ++ (decodeLoop eos keep bs io h).istr
      ∧ (∀ x ∈ syms, x.2 ≠ 0x00#8) ∧ h.filled.length + (expansion syms).length ≤ 64 := by
  induction bs generalizing io h with
  | nil => cases eos <;> cases hdone
  | cons b bs ih =>
    obtain ⟨filled, value⟩ := h
    simp only [decodeLoop] at hdone ⊢
    split at hdone
    · cases hdone
    · next hok =>
      rw [if_neg hok]
      cases value with
      | none => exact ih (h := ⟨filled, some b⟩) hlen hdone
      | some v =>
        dsimp only at hdone ⊢
        cases htake : takeSymbol filled v b with
        | inl stop =>
          rw [htake] at hdone
          cases hdone
          obtain ⟨rfl, rfl, -⟩ := takeSymbol_eq_done htake
          exact ⟨[], rfl, by simp, hlen⟩
        | inr more =>
          rw [htake] at hdone
          obtain ⟨hb, hfits, rfl⟩ := takeSymbol_eq_more htake
          obtain ⟨syms, hbs, hne, hall⟩ := ih (by simpa using hfits) hdone
          refine ⟨(v, b) :: syms, ?_, List.forall_mem_cons.mpr ⟨hb, hne⟩, by simpa [Nat.add_assoc] using hall⟩
          exact congrArg (v :: b :: ·) hbs

theorem runRld_istr (h : RldHold) (s : State) : (runRld h s).istr =
    (decodeLoop s.eos (Config.failedGetKeepsByte s.free) s.istr s.ioAnswers h).istr := by
  unfold runRld finishRld
  dsimp only
  split
  · rfl
  · rfl
  · exact takeFault_istr _ _ _

/-- An RLD that neither waits nor faults ended its loop at the sentinel. -/
theorem decodeLoop_done_of_runRld {h : RldHold} {s : State} (hfc : s.fc = none) (hfc' : (runRld h s).fc = none)
    (hhold : (runRld h s).hold = none) :
    ∃ all, (decodeLoop s.eos (Config.failedGetKeepsByte s.free) s.istr s.ioAnswers h).stop = .done all := by
  unfold runRld finishRld at hfc' hhold
  dsimp only at hfc' hhold
  split at hhold
  case h_1 all hdone => exact ⟨all, hdone⟩
  case h_2 held hwait => cases hhold
  case h_3 f hfault => rw [hfault] at hfc'; simp [takeFault_of_none, hfc] at hfc'

/-- What a completed RLD takes from ISTR is data symbols and one sentinel (43_rle.md R113, R115). -/
theorem exec_rld_consumes {s t : State} (hready : s.ready = true) (h : exec .rld s = .next t) (hfc : t.fc = none)
    (hhold : t.hold = none) : ∃ syms, s.istr = layOut syms ++ [0xFF#8, 0x00#8] ++ t.istr ∧ dataSymbols syms := by
  cases (exec_rld_of_ready hready).symm.trans h
  obtain ⟨-, hfc0⟩ := (ready_iff s).mp hready
  obtain ⟨all, hdone⟩ := decodeLoop_done_of_runRld hfc0 hfc hhold
  obtain ⟨syms, hbs, hne, hlen⟩ := decodeLoop_done (h := rldStart) (Nat.zero_le 64) hdone
  exact ⟨syms, by rw [runRld_istr]; exact hbs, hne, by simpa [rldStart] using hlen⟩

/-- Nothing has to be padded when the cells of a whole block were filled. -/
@[simp] theorem padded_cells (b : Block 8) : padded (cells b) = b := tabulate_cell b

/-- RLD takes the symbol stream of a block off ISTR and writes the block to Z. -/
theorem exec_rld_symbolStream {s : State} {b : Block 8} {rest : List Byte} (hready : s.ready = true)
    (histr : s.istr = symbolStream (cells b) ++ rest) (hq : s.quiet 130) :
    exec .rld s = .next { s with istr := rest, bufZ := b, vZ := true
                                 ioAnswers := s.ioAnswers.drop (symbolStream (cells b)).length } := by
  have hquiet := quiet_symbolStream b hq
  rw [symbolStream_eq_layOut] at histr hquiet ⊢
  rw [exec_rld_layOut_sentinel hready (dataSymbols_runSymbols_cells b) histr hquiet, expansion_runSymbols_cells, padded_cells]

/-- RLD takes a sentinel with no symbol before it, a stream that RLE never writes, and Z is 0 throughout. -/
theorem exec_rld_lone_sentinel : exec .rld { State.reset with istr := sentinel } =
    .next { State.reset with bufZ := padded [], vZ := true } :=
  exec_rld_layOut_sentinel (syms := []) (rest := []) rfl ⟨by simp, by decide⟩ rfl (by simp [State.quiet, State.reset])

/-! ### The obligations -/

/-- Settles O31: the symbols are Z's maximal runs, and 64 cells give no count that a byte cannot hold. -/
theorem rleWritesMaximalRuns : Obligations.RleWritesMaximalRuns := by
  unfold Obligations.RleWritesMaximalRuns
  intro s hready hvalid hq
  have hcells := expansion_runSymbols_cells s.bufZ
  have hlength : (expansion (runSymbols (cells s.bufZ))).length = 64 := by rw [hcells, cells_length]
  obtain ⟨hne, -⟩ := dataSymbols_runSymbols_cells s.bufZ
  refine ⟨_, runSymbols (cells s.bufZ), exec_rle hready hvalid hq, by rw [symbolStream_eq_layOut], hcells, ?_, fun x hx => ?_,
    runSymbols_isChain _⟩
  · rw [← expansion_length, hlength]
  · exact ⟨one_le_toNat_of_ne_zero (hne x hx), hlength ▸ count_le_expansion_length hx⟩

/-- Settles O32: both the stream an RLE writes and what a completed RLD consumes are at most 64 data symbols and a sentinel. -/
theorem symbolStreamLengths : Obligations.SymbolStreamLengths := by
  unfold Obligations.SymbolStreamLengths
  refine ⟨fun b => ⟨symbolStream_length _, four_le_symbolStream_length b, symbolStream_length_le b⟩, ?_⟩
  intro s t hready h hfc hhold
  obtain ⟨syms, histr, hsyms⟩ := exec_rld_consumes hready h hfc hhold
  have hle := length_le_of_dataSymbols hsyms
  refine ⟨(layOut syms ++ [0xFF#8, 0x00#8]).length, by rw [histr, List.drop_left], ?_⟩
  simp only [histr, List.length_append, layOut_length, List.length_cons, List.length_nil]
  omega

/-- Settles O37: RLE's stream expands to Z, which is what RLD writes; the converse fails on the sentinel alone, which is shorter
than any stream RLE writes. -/
theorem runLengthRoundTrip : Obligations.RunLengthRoundTrip := by
  unfold Obligations.RunLengthRoundTrip
  constructor
  · intro s t u hready hvalid hq h huready bytes rest hostr histr huq
    cases (exec_rle hready hvalid hq).symm.trans h
    obtain rfl := List.append_cancel_left hostr
    obtain ⟨hhold, hfc⟩ := (ready_iff u).mp huready
    exact ⟨_, exec_rld_symbolStream huready histr huq, rfl, rfl, rfl, hfc, hhold⟩
  · refine ⟨_, _, rfl, exec_rld_lone_sentinel, rfl, rfl, rfl, rfl, fun h => ?_⟩
    have hlong := four_le_symbolStream_length (padded [])
    rw [h] at hlong
    exact absurd hlong (by decide)

end Sys2Proof.Machine
end

section
/-!
PROOFS. The pseudo-commands (44_pipeline_host.md R130 to R132): a ready CORE runs the commands the host issues one after the
other, each on the state the one before it left; a halted CORE discards them.
-/

namespace Sys2Proof.Machine

/-! ### The words of issued commands -/

/-- The decoder reads every command back from its word (30_encoding.md R51 to R55). -/
theorem decode_encode {i : Instr} (hwf : i.wf = true) : decode (encode i) = .instr i := by
  cases i with
  | nop => exact Laws.Encode.nop hwf
  | cfgw imm16 => exact Laws.Encode.cfgw imm16 hwf
  | cfgh imm16 => exact Laws.Encode.cfgh imm16 hwf
  | bpx p bx bY => exact Laws.Encode.bpx p bx bY hwf
  | lsh => exact Laws.Encode.lsh hwf
  | fdct => exact Laws.Encode.fdct hwf
  | qnt => exact Laws.Encode.qnt hwf
  | zzs => exact Laws.Encode.zzs hwf
  | rle => exact Laws.Encode.rle hwf
  | rld => exact Laws.Encode.rld hwf
  | zzu => exact Laws.Encode.zzu hwf
  | dqt => exact Laws.Encode.dqt hwf
  | idct => exact Laws.Encode.idct hwf
  | uls => exact Laws.Encode.uls hwf

theorem takeWord_encode {i : Instr} (hwf : i.wf = true) (s : State) : takeWord (encode i) s = exec i s := by
  rw [takeWord, decode_encode hwf]

/-- A BPX of one of the three planes is a command (30_encoding.md R54, R58). -/
theorem wf_bpx_of_plane {p : BitVec 2} {plane : PlaneId} (hp : planeOfOperand p = some plane) (bx bY : BitVec 13) :
    (Instr.bpx p bx bY).wf = true := by
  have hne : p ≠ 3#2 := by rintro rfl; cases hp
  exact bne_iff_ne.mpr hne

/-! ### Runs of issued commands -/

theorem run_of_step {s t : State} {n : Nat} (h : step s = .next t) :
    Host.Core.run core (n + 1) s = Host.Core.run core n t := by
  have hcore : core.step s = .next t := h
  simp only [Host.Core.run, hcore]

/-- A ready CORE runs the first of the commands issued to it, and the run goes on from what that command leaves. -/
theorem run_issued {s t : State} {i : Instr} {is : List Instr} {acts : List HostAct} {n : Nat}
    (hready : s.ready = true) (hwf : i.wf = true) (hhost : s.host = issue (i :: is) ++ acts)
    (h : exec i { s with host := issue is ++ acts } = .next t) :
    Host.Core.run core (n + 1) s = Host.Core.run core n t := by
  have hstep : step s = .next t := by
    rw [step_of_offered_word (not_busy_of_ready hready) hhost, ← h]
    exact takeWord_encode hwf _
  exact run_of_step hstep

theorem not_ready_of_halted {s : State} (h : s.halted = true) : s.ready = false := by simp [State.ready, h]

theorem fromSource_not_ready {i : Instr} {valid : Bool} {s : State} (h : s.ready = false) (t : State) :
    fromSource i valid s t = .next s := whenReady_not_ready h _

/-- A CORE that is not ready runs no command. -/
theorem exec_of_not_ready {s : State} (h : s.ready = false) (i : Instr) : exec i s = .next s := by
  cases i with
  | nop => exact whenReady_not_ready h _
  | cfgw => exact whenReady_not_ready h _
  | cfgh => exact whenReady_not_ready h _
  | bpx => exact whenReady_not_ready h _
  | rld => exact whenReady_not_ready h _
  | lsh => exact fromSource_not_ready h _
  | fdct => exact fromSource_not_ready h _
  | qnt => exact fromSource_not_ready h _
  | zzs => exact fromSource_not_ready h _
  | rle => exact fromSource_not_ready h _
  | zzu => exact fromSource_not_ready h _
  | dqt => exact fromSource_not_ready h _
  | idct => exact fromSource_not_ready h _
  | uls => exact fromSource_not_ready h _

/-- A CORE that is not ready does nothing with a word, legal or not. -/
theorem takeWord_of_not_ready {s : State} (h : s.ready = false) (w : Word) : takeWord w s = .next s := by
  unfold takeWord
  split
  · exact exec_of_not_ready h _
  · exact whenReady_not_ready h _

/-- A halted CORE takes the word the host offers and discards it (60_exceptions.md R164). -/
theorem step_of_halted_word {s : State} {w : Word} {acts : List HostAct} (hhalted : s.halted = true)
    (hhost : s.host = .cmd w :: acts) : step s = .next { s with host := acts } := by
  have hready : State.ready { s with host := acts } = false := not_ready_of_halted hhalted
  rw [step_of_offered_word (not_busy_of_halted hhalted) hhost, takeWord_of_not_ready hready]

/-- A halted CORE discards every command issued to it (60_exceptions.md R164). -/
theorem run_issued_of_halted {s : State} {is : List Instr} {acts : List HostAct} (hhalted : s.halted = true)
    (hhost : s.host = issue is ++ acts) : Host.Core.run core is.length s = .next { s with host := acts } := by
  induction is generalizing s with
  | nil =>
    obtain rfl : s.host = acts := hhost
    rfl
  | cons i is ih =>
    calc Host.Core.run core (i :: is).length s
      _ = Host.Core.run core is.length { s with host := issue is ++ acts } :=
        run_of_step (step_of_halted_word hhalted hhost)
      _ = .next { s with host := acts } := ih hhalted rfl

/-! ### The commands on a ready CORE -/

section
variable {s : State} (hready : s.ready = true)
include hready

theorem exec_cfgw (imm16 : BitVec 16) : exec (.cfgw imm16) s = .next { s with pw := imm16 } := whenReady_ready hready _

theorem exec_cfgh (imm16 : BitVec 16) : exec (.cfgh imm16) s = .next { s with ph := imm16 } := whenReady_ready hready _

/-- Without an access error BPX of a legal plane cuts its block into S (40_config_partitioner.md R73). -/
theorem exec_bpx {p : BitVec 2} {plane : PlaneId} {bx bY : BitVec 13} (hp : planeOfOperand p = some plane)
    (hq : s.quiet (planeReads s bx bY)) :
    exec (.bpx p bx bY) s = .next { s with bufS := cutBlock (memRead s plane) bx bY s, vS := true
                                           ioAnswers := s.ioAnswers.drop (planeReads s bx bY) } := by
  rw [exec, execBpx, whenReady_ready hready, partition, hp]
  simp only [partitionFrom, askOracle_ok _ _ hq, Bool.false_eq_true, if_false]

theorem exec_lsh (hvalid : s.vS = true) : exec .lsh s = .next { s with bufL := levelShift s.bufS, vL := true } := by
  rw [exec, execLsh, hvalid, fromSource_valid hready]

theorem exec_fdct (hvalid : s.vL = true) : exec .fdct s = .next { s with bufC := forwardDct s.bufL, vC := true } := by
  rw [exec, execFdct, hvalid, fromSource_valid hready]

theorem exec_qnt (hvalid : s.vC = true) : exec .qnt s = .next { s with bufQ := quantize s.bufC, vQ := true } := by
  rw [exec, execQnt, hvalid, fromSource_valid hready]

theorem exec_dqt (hvalid : s.vQ = true) : exec .dqt s = .next { s with bufC := dequantize s.bufQ, vC := true } := by
  rw [exec, execDqt, hvalid, fromSource_valid hready]

theorem exec_idct (hvalid : s.vC = true) : exec .idct s = .next { s with bufR := inverseDct s.bufC, vR := true } := by
  rw [exec, execIdct, hvalid, fromSource_valid hready]

theorem exec_uls (hvalid : s.vR = true) : exec .uls s = .next { s with bufS := unlevelShift s.bufR, vS := true } := by
  rw [exec, execUls, hvalid, fromSource_valid hready]

end

/-! ### The commands that ask the oracle, under the default one (20_memory.md R47) -/

theorem quiet_of_default {s : State} (hio : s.ioAnswers = []) (n : Nat) : s.quiet n := by simp [State.quiet, hio]

theorem drop_ioAnswers_of_default {s : State} (hio : s.ioAnswers = []) (n : Nat) : s.ioAnswers.drop n = s.ioAnswers := by
  rw [hio, List.drop_nil]

section
variable {s : State} (hready : s.ready = true) (hio : s.ioAnswers = [])
include hready hio

theorem exec_bpx_default {p : BitVec 2} {plane : PlaneId} {bx bY : BitVec 13} (hp : planeOfOperand p = some plane) :
    exec (.bpx p bx bY) s = .next { s with bufS := cutBlock (memRead s plane) bx bY s, vS := true } := by
  rw [exec_bpx hready hp (quiet_of_default hio _), drop_ioAnswers_of_default hio]

theorem exec_rle_default (hvalid : s.vZ = true) :
    exec .rle s = .next { s with ostr := s.ostr ++ symbolStream (cells s.bufZ) } := by
  rw [exec_rle hready hvalid (quiet_of_default hio _), drop_ioAnswers_of_default hio]

theorem exec_rld_default {syms : List (Byte × Byte)} {rest : List Byte} (hsyms : dataSymbols syms)
    (histr : s.istr = layOut syms ++ [0xFF#8, 0x00#8] ++ rest) :
    exec .rld s = .next { s with istr := rest, bufZ := padded (expansion syms), vZ := true } := by
  rw [exec_rld_layOut_sentinel hready hsyms histr (quiet_of_default hio _), drop_ioAnswers_of_default hio]

end

/-! ### The pseudo-commands on a ready CORE

Each block is a variable, tied by an equation to the one it is computed from, so that the states of a run stay flat: written out
as updates of updates their terms grow exponentially. -/

section
variable {s : State} {acts : List HostAct} (hready : s.ready = true)
include hready

/-- CFGW leaves the CORE ready for CFGH (44_pipeline_host.md R130). -/
theorem run_setDim {w h : BitVec 16} (hhost : s.host = issue (setDim w h) ++ acts) :
    Host.Core.run core 2 s = .next { s with host := acts, pw := w, ph := h } :=
  calc Host.Core.run core 2 s
    _ = Host.Core.run core 1 { s with pw := w, host := issue [.cfgh h] ++ acts } :=
      run_issued hready rfl hhost (exec_cfgw (s := { s with host := issue [.cfgh h] ++ acts }) hready w)
    _ = _ := run_issued hready rfl rfl (exec_cfgh (s := { s with pw := w, host := acts }) hready h)

variable (hio : s.ioAnswers = [])
include hio

/-- Each command of ENCBLK leaves the CORE ready with the source of the next one valid (44_pipeline_host.md R131). -/
theorem run_encBlk {p : BitVec 2} {plane : PlaneId} {bx bY : BitVec 13} {bS bL bQ bZ : Block 8} {bC : Block 16}
    (hp : planeOfOperand p = some plane) (hhost : s.host = issue (encBlk p bx bY) ++ acts)
    (hS : cutBlock (memRead s plane) bx bY s = bS) (hL : levelShift bS = bL) (hC : forwardDct bL = bC)
    (hQ : quantize bC = bQ) (hZ : zigzagScan bQ = bZ) :
    Host.Core.run core 6 s =
      .next { s with bufS := bS, bufL := bL, bufC := bC, bufQ := bQ, bufZ := bZ, vS := true, vL := true, vC := true
                     vQ := true, vZ := true, ostr := s.ostr ++ symbolStream (cells bZ), host := acts } :=
  calc Host.Core.run core 6 s
    _ = Host.Core.run core 5 { s with bufS := bS, vS := true, host := issue [.lsh, .fdct, .qnt, .zzs, .rle] ++ acts } :=
      hS ▸ run_issued hready (wf_bpx_of_plane hp bx bY) hhost
        (exec_bpx_default (s := { s with host := issue [.lsh, .fdct, .qnt, .zzs, .rle] ++ acts }) hready hio hp)
    _ = Host.Core.run core 4 { s with bufS := bS, bufL := bL, vS := true, vL := true
                                      host := issue [.fdct, .qnt, .zzs, .rle] ++ acts } :=
      hL ▸ run_issued hready rfl rfl (exec_lsh hready rfl)
    _ = Host.Core.run core 3 { s with bufS := bS, bufL := bL, bufC := bC, vS := true, vL := true, vC := true
                                      host := issue [.qnt, .zzs, .rle] ++ acts } :=
      hC ▸ run_issued hready rfl rfl (exec_fdct hready rfl)
    _ = Host.Core.run core 2 { s with bufS := bS, bufL := bL, bufC := bC, bufQ := bQ, vS := true, vL := true, vC := true
                                      vQ := true, host := issue [.zzs, .rle] ++ acts } :=
      hQ ▸ run_issued hready rfl rfl (exec_qnt hready rfl)
    _ = Host.Core.run core 1 { s with bufS := bS, bufL := bL, bufC := bC, bufQ := bQ, bufZ := bZ, vS := true, vL := true
                                      vC := true, vQ := true, vZ := true, host := issue [.rle] ++ acts } :=
      hZ ▸ run_issued hready rfl rfl (exec_zzs hready rfl)
    _ = _ := run_issued hready rfl rfl (exec_rle_default hready hio rfl)

/-- RLD stops at the sentinel, and each command of DECBLK leaves the CORE ready with the source of the next one valid
(44_pipeline_host.md R132). -/
theorem run_decBlk {syms : List (Byte × Byte)} {rest : List Byte} {bZ bQ bS : Block 8} {bC : Block 16} {bR : Block 32}
    (hsyms : dataSymbols syms) (histr : s.istr = layOut syms ++ [0xFF#8, 0x00#8] ++ rest)
    (hhost : s.host = issue decBlk ++ acts) (hZ : padded (expansion syms) = bZ) (hQ : zigzagUnscan bZ = bQ)
    (hC : dequantize bQ = bC) (hR : inverseDct bC = bR) (hS : unlevelShift bR = bS) :
    Host.Core.run core 5 s =
      .next { s with bufS := bS, bufC := bC, bufQ := bQ, bufZ := bZ, bufR := bR, istr := rest, vS := true, vC := true
                     vQ := true, vZ := true, vR := true, host := acts } :=
  calc Host.Core.run core 5 s
    _ = Host.Core.run core 4 { s with bufZ := bZ, istr := rest, vZ := true
                                      host := issue [.zzu, .dqt, .idct, .uls] ++ acts } :=
      hZ ▸ run_issued hready rfl hhost
        (exec_rld_default (s := { s with host := issue [.zzu, .dqt, .idct, .uls] ++ acts }) hready hio hsyms histr)
    _ = Host.Core.run core 3 { s with bufZ := bZ, bufQ := bQ, istr := rest, vZ := true, vQ := true
                                      host := issue [.dqt, .idct, .uls] ++ acts } :=
      hQ ▸ run_issued hready rfl rfl (exec_zzu hready rfl)
    _ = Host.Core.run core 2 { s with bufZ := bZ, bufQ := bQ, bufC := bC, istr := rest, vZ := true, vQ := true, vC := true
                                      host := issue [.idct, .uls] ++ acts } :=
      hC ▸ run_issued hready rfl rfl (exec_dqt hready rfl)
    _ = Host.Core.run core 1 { s with bufZ := bZ, bufQ := bQ, bufC := bC, bufR := bR, istr := rest, vZ := true, vQ := true
                                      vC := true, vR := true, host := issue [.uls] ++ acts } :=
      hR ▸ run_issued hready rfl rfl (exec_idct hready rfl)
    _ = _ := hS ▸ run_issued hready rfl rfl (exec_uls hready rfl)

end

/-! ### The obligations -/

/-- Settles O51: `run_encBlk` gives the five blocks, each by the equation that ties it to the one before; a halted CORE
discards one word after the other. -/
theorem encblkRunsTheSixStages : Obligations.EncblkRunsTheSixStages := by
  unfold Obligations.EncblkRunsTheSixStages
  refine ⟨fun s p plane bx bY acts hready hp hio hhost => ?_, fun s is acts => run_issued_of_halted⟩
  exact ⟨_, run_encBlk hready hio hp hhost rfl rfl rfl rfl rfl, rfl, rfl, rfl, rfl, rfl, rfl, rfl⟩

/-- Settles O52: `run_decBlk` gives the five blocks, each by the equation that ties it to the one before. -/
theorem decblkRunsTheFiveStages : Obligations.DecblkRunsTheFiveStages := by
  unfold Obligations.DecblkRunsTheFiveStages
  intro s syms rest acts hready hsyms hio histr hhost
  exact ⟨_, run_decBlk hready hio hsyms histr hhost rfl rfl rfl rfl rfl, rfl, rfl, rfl, rfl, rfl, rfl⟩

/-- Settles O50: the expansion is by definition, and `run_setDim` is its two steps. -/
theorem setdimSetsBothDimensions : Obligations.SetdimSetsBothDimensions := by
  unfold Obligations.SetdimSetsBothDimensions
  exact ⟨fun w h => rfl, fun s w h acts hready hhost => run_setDim hready hhost⟩

end Sys2Proof.Machine
end

section
/-!
PROOFS. The faults a command raises (60_exceptions.md): F_NOSRC before anything else is done (R152), and what an access answered
with an error leaves of a BPX, an RLE and an RLD (R157); without such an answer no command raises F_IO.
-/

namespace Sys2Proof.Machine

/-! ### F_NOSRC -/

/-- The fault a ready CORE takes changes nothing but FC and FCMD (60_exceptions.md R153). -/
theorem takeFault_of_ready {s : State} (hready : s.ready = true) (f : FaultCode) (w : Word) :
    takeFault f w s = { s with fc := some f, fcmd := w } := by
  obtain ⟨hhold, hfc⟩ := (ready_iff s).mp hready
  rw [takeFault_of_none hfc, ← hhold]

/-- A command with a source buffer runs behind the test of that buffer's valid bit (10_state.md R17, R18). -/
theorem exec_of_sourceOf {i : Instr} {b : BufId} (hi : sourceOf i = some b) (s : State) :
    ∃ run, exec i s = fromSource i (validBit s b) s run := by
  cases i with
  | nop | cfgw | cfgh | bpx | rld => cases hi
  | lsh | fdct | qnt | zzs | rle | zzu | dqt | idct | uls => cases hi; exact ⟨_, rfl⟩

/-- Settles O39: the test of the valid bit comes before the command, and the fault it takes changes only the record. -/
theorem missingSourceFaults : Obligations.MissingSourceFaults := by
  unfold Obligations.MissingSourceFaults
  intro i b s hi hready hinvalid
  obtain ⟨run, hexec⟩ := exec_of_sourceOf hi s
  rw [hexec, hinvalid, fromSource_invalid hready, takeFault_of_ready hready]

/-! ### F_IO: the plane reads of BPX -/

/-- Only plane number 3 is reserved (30_encoding.md R54). -/
theorem exists_plane_of_ne_three {p : BitVec 2} (hp : p ≠ 3#2) : ∃ plane, planeOfOperand p = some plane := by
  have hsome : ∀ q : BitVec 2, q ≠ 3#2 → (planeOfOperand q).isSome = true := by decide
  exact Option.isSome_iff_exists.mp (hsome p hp)

/-- A BPX with a failing read has written neither S nor V_S (60_exceptions.md R157). -/
theorem exec_bpx_of_error {s : State} {p : BitVec 2} {bx bY : BitVec 13} (hready : s.ready = true) (hp : p ≠ 3#2)
    (herr : true ∈ s.ioAnswers.take (planeReads s bx bY)) :
    exec (.bpx p bx bY) s = .next { s with ioAnswers := (askOracle (planeReads s bx bY) s.ioAnswers).2
                                           fc := some .io, fcmd := encode (.bpx p bx bY) } := by
  obtain ⟨plane, hplane⟩ := exists_plane_of_ne_three hp
  rw [exec, execBpx, whenReady_ready hready, partition, hplane]
  simp only [partitionFrom, askOracle_error _ _ herr, if_true]
  rw [takeFault_of_ready]; exact hready

/-! ### F_IO: the `StrPut` calls of RLE -/

/-- `StrPut` goes on until the first answer that is an error, and that byte is not appended (20_memory.md R39, R47). -/
theorem putBytes_of_error {n : Nat} {bs : List Byte} (answers : List Bool) (hn : n < bs.length) :
    putBytes bs (List.replicate n false ++ true :: answers) = ⟨bs.take n, true, answers⟩ := by
  induction n generalizing bs with
  | zero =>
    cases bs with
    | nil => cases hn
    | cons b bs => rfl
  | succ n ih =>
    cases bs with
    | nil => cases hn
    | cons b bs => simp [putBytes, List.replicate_succ, askOracle, ih (Nat.lt_of_succ_lt_succ hn)]

/-- RLE leaves in OSTR the bytes before the failing `StrPut` (60_exceptions.md R157). -/
theorem exec_rle_of_error {s : State} {n : Nat} {answers : List Bool} (hready : s.ready = true) (hvalid : s.vZ = true)
    (hio : s.ioAnswers = List.replicate n false ++ true :: answers) (hn : n < (symbolStream (cells s.bufZ)).length) :
    exec .rle s = .next { s with ostr := s.ostr ++ (symbolStream (cells s.bufZ)).take n
                                 ioAnswers := answers, fc := some .io, fcmd := encode .rle } := by
  rw [exec_rle_of_valid hready hvalid, encodeRuns, hio, putBytes_of_error answers hn]
  simp only [if_true]
  rw [takeFault_of_ready]; exact hready

/-! ### F_IO: the `StrGet` calls of RLD -/

/-- A symbol ends the RLD complete, or with one of the two faults of a symbol (43_rle.md R115). -/
theorem takeSymbol_eq_stop {filled : List Byte} {v n : Byte} {stop : RldStop} (h : takeSymbol filled v n = .inl stop) :
    stop = .done filled ∨ stop = .fault .badSym ∨ stop = .fault .overrun := by
  unfold takeSymbol at h
  split_ifs at h <;> cases h <;> simp

/-- A stretch of ISTR after which an RLD waits, read without an error, brings the loop to what follows it with just what that
RLD holds (20_memory.md R35). -/
theorem decodeLoop_append_of_wait {eos keep keep' : Bool} {bs tail : List Byte} {io : List Bool} {h held : RldHold}
    (hq : true ∉ io.take bs.length) (hwait : (decodeLoop false keep' bs [] h).stop = .wait held) :
    decodeLoop eos keep (bs ++ tail) io h = decodeLoop eos keep tail (io.drop bs.length) held := by
  induction bs generalizing io h with
  | nil => cases hwait; rfl
  | cons b bs ih =>
    obtain ⟨filled, value⟩ := h
    rw [List.length_cons, Nat.add_comm] at hq ⊢
    obtain ⟨hb, hrest⟩ := quiet_split hq
    rw [List.cons_append, ← List.drop_drop]
    cases value with
    | none =>
      rw [decodeLoop_value b bs (by simp)] at hwait
      rw [decodeLoop_value b _ hb]
      exact ih hrest hwait
    | some v =>
      cases htake : takeSymbol filled v b with
      | inl stop =>
        rw [decodeLoop_count_stops bs (by simp) htake] at hwait
        obtain rfl : stop = .wait held := hwait
        simpa using takeSymbol_eq_stop htake
      | inr more =>
        rw [decodeLoop_count_goes_on bs (by simp) htake] at hwait
        rw [decodeLoop_count_goes_on _ hb htake]
        exact ih hrest hwait

/-- A `StrGet` answered with an error ends the loop; its byte stays or goes by the free choice (assumption log 5). -/
theorem decodeLoop_of_error (eos keep : Bool) (b : Byte) (rest : List Byte) (answers : List Bool) (h : RldHold) :
    decodeLoop eos keep (b :: rest) (true :: answers) h = ⟨.fault .io, if keep then b :: rest else rest, answers⟩ := rfl

/-- The loop meets the error at the first access that is answered with one, if it does not end before. -/
theorem decodeLoop_error_after {eos keep keep' : Bool} {bs : List Byte} {n : Nat} {answers : List Bool} {h held : RldHold}
    (hn : n < bs.length) (hwait : (decodeLoop false keep' (bs.take n) [] h).stop = .wait held) :
    decodeLoop eos keep bs (List.replicate n false ++ true :: answers) h =
      ⟨.fault .io, if keep then bs.drop n else bs.drop (n + 1), answers⟩ := by
  have hlen : (bs.take n).length = n := List.length_take_of_le hn.le
  have hq : true ∉ (List.replicate n false ++ true :: answers).take (bs.take n).length := by
    simp [hlen, List.take_left']
  have hloop := decodeLoop_append_of_wait (eos := eos) (keep := keep) (tail := bs.drop n) hq hwait
  rw [List.take_append_drop, hlen, List.drop_left' List.length_replicate] at hloop
  rw [hloop, List.drop_eq_getElem_cons hn, decodeLoop_of_error]

theorem runRld_of_fault {h : RldHold} {s : State} {f : FaultCode} {rest : List Byte} {io : List Bool}
    (hloop : decodeLoop s.eos (Config.failedGetKeepsByte s.free) s.istr s.ioAnswers h = ⟨.fault f, rest, io⟩) :
    runRld h s = takeFault f (encode .rld)
      { s with istr := rest, ioAnswers := io, bufZ := freeBlock s.free, vZ := false, free := s.free + 1 } := by
  rw [runRld, hloop, finishRld]

/-- An RLD that leaves the CORE busy ended its loop waiting. -/
theorem decodeLoop_wait_of_runRld_busy {h : RldHold} {s : State} (hbusy : (runRld h s).busy = true) :
    ∃ held, (decodeLoop s.eos (Config.failedGetKeepsByte s.free) s.istr s.ioAnswers h).stop = .wait held := by
  unfold runRld finishRld at hbusy
  dsimp only at hbusy
  split at hbusy
  case h_1 => cases hbusy
  case h_2 held hwait => exact ⟨held, hwait⟩
  case h_3 => rw [not_busy_of_halted (takeFault_halted _ _ _)] at hbusy; cases hbusy

/-- RLD clears V_Z and keeps consumed what it consumed before the failing `StrGet` (60_exceptions.md R157). -/
theorem exec_rld_of_error {s u : State} {n : Nat} {answers : List Bool} (hready : s.ready = true) (hn : n < s.istr.length)
    (hio : s.ioAnswers = List.replicate n false ++ true :: answers)
    (hu : exec .rld { s with istr := s.istr.take n, eos := false, ioAnswers := [] } = .next u) (hbusy : u.busy = true) :
    exec .rld s = .next { s with
      istr := if Config.failedGetKeepsByte s.free then s.istr.drop n else s.istr.drop (n + 1)
      ioAnswers := answers, bufZ := freeBlock s.free, vZ := false, free := s.free + 1
      fc := some .io, fcmd := encode .rld } := by
  have hready' : State.ready { s with istr := s.istr.take n, eos := false, ioAnswers := [] } = true := hready
  cases (exec_rld_of_ready hready').symm.trans hu
  obtain ⟨held, hwait⟩ := decodeLoop_wait_of_runRld_busy hbusy
  have hloop := decodeLoop_error_after (eos := s.eos) (keep := Config.failedGetKeepsByte s.free) (answers := answers) hn hwait
  rw [← hio] at hloop
  rw [exec_rld_of_ready hready, runRld_of_fault hloop, takeFault_of_ready]; exact hready

/-! ### The default oracle -/

theorem takeFault_fc_ne {f g : FaultCode} {w : Word} {s : State} (hs : s.fc ≠ some g) (hf : f ≠ g) :
    (takeFault f w s).fc ≠ some g := by
  unfold takeFault
  split
  · simpa using hf
  · exact hs

/-- Without an error among the oracle's answers the loop of RLD does not raise F_IO. -/
theorem decodeLoop_ne_io {eos keep : Bool} {bs : List Byte} {h : RldHold} :
    (decodeLoop eos keep bs [] h).stop ≠ .fault .io := by
  induction bs generalizing h with
  | nil => cases eos <;> simp [decodeLoop]
  | cons b bs ih =>
    obtain ⟨filled, value⟩ := h
    cases value with
    | none => rw [decodeLoop_value b bs (by simp)]; exact ih
    | some v =>
      cases htake : takeSymbol filled v b with
      | inl stop =>
        rw [decodeLoop_count_stops bs (by simp) htake]
        rintro rfl
        simpa using takeSymbol_eq_stop htake
      | inr more => rw [decodeLoop_count_goes_on bs (by simp) htake]; exact ih

section
variable {s : State} (hs : s.fc ≠ some .io)
include hs

theorem whenReady_fc_ne_io {run t : State} (h : whenReady s run = .next t) (hrun : run.fc ≠ some .io) :
    t.fc ≠ some .io := by
  obtain ⟨-, rfl⟩ | ⟨-, rfl⟩ := whenReady_cases h
  · exact hrun
  · exact hs

theorem fromSource_fc_ne_io {i : Instr} {valid : Bool} {run t : State} (h : fromSource i valid s run = .next t)
    (hrun : run.fc ≠ some .io) : t.fc ≠ some .io := by
  obtain ⟨-, rfl⟩ | ⟨-, -, rfl⟩ | ⟨-, -, rfl⟩ := fromSource_cases h
  · exact hs
  · exact takeFault_fc_ne hs (by decide)
  · exact hrun

variable (hio : s.ioAnswers = [])
include hio

theorem partition_fc_ne_io (rd : PlaneId → Nat → Byte) (p : BitVec 2) (bx bY : BitVec 13) :
    (partition rd p bx bY s).fc ≠ some .io := by
  unfold partition
  split
  · rw [partitionFrom, askOracle_ok _ _ (quiet_of_default hio _)]; exact hs
  · exact takeFault_fc_ne hs (by decide)

theorem encodeRuns_fc_ne_io : (encodeRuns s).fc ≠ some .io := by
  rw [encodeRuns, putBytes_ok _ _ (quiet_of_default hio _)]; exact hs

theorem runRld_fc_ne_io (h : RldHold) : (runRld h s).fc ≠ some .io := by
  unfold runRld finishRld
  dsimp only
  split
  case h_1 => exact hs
  case h_2 => exact hs
  case h_3 f hfault =>
    refine takeFault_fc_ne hs ?_
    rintro rfl
    rw [hio] at hfault
    exact decodeLoop_ne_io hfault

/-- With the default oracle no command raises F_IO; only BPX, RLE and RLD ask it at all (20_memory.md R47). -/
theorem exec_fc_ne_io {i : Instr} {t : State} (h : exec i s = .next t) : t.fc ≠ some .io := by
  cases i with
  | nop | cfgw | cfgh => exact whenReady_fc_ne_io hs h hs
  | bpx p bx bY => exact whenReady_fc_ne_io hs h (partition_fc_ne_io hs hio _ p bx bY)
  | rle => exact fromSource_fc_ne_io hs h (encodeRuns_fc_ne_io hs hio)
  | rld => exact whenReady_fc_ne_io hs h (runRld_fc_ne_io hs hio rldStart)
  | lsh | fdct | qnt | zzs | zzu | dqt | idct | uls => exact fromSource_fc_ne_io hs h hs

end

/-- Settles O41: BPX, RLE and RLD run to their first failing access and fault there; without one no command raises F_IO. -/
theorem ioErrorsFault : Obligations.IoErrorsFault := by
  unfold Obligations.IoErrorsFault
  refine ⟨?_, ?_, ?_, fun i s t hio hs h => exec_fc_ne_io hs hio h⟩
  · intro s p bx bY hready hp herr
    exact ⟨_, exec_bpx_of_error hready hp herr, rfl, rfl, rfl, rfl⟩
  · intro s n answers hready hvalid hio hn
    exact exec_rle_of_error hready hvalid hio hn
  · intro s u n answers hready hn hio hu hbusy
    refine ⟨_, exec_rld_of_error hready hn hio hu hbusy, rfl, rfl, rfl, ?_⟩
    exact ite_eq_or_eq _ _ _

end Sys2Proof.Machine
end

section
/-!
PROOFS. The halted CORE (60_exceptions.md R164, R165): it takes every interaction of the host and discards what would change it,
so that the recorded fault stays until the host asserts `rst`.
-/

namespace Sys2Proof.Machine

/-! ### What a halted CORE does with each interaction -/

theorem whenIdle_of_not_busy {s : State} (h : s.busy = false) (run : Host.Outcome State Fault Refusal) :
    whenIdle s run = run := if_neg (by simp [h])

theorem windowRead_of_valid {s : State} {b : BufId} (h : validBit s b = true) (k : Nat) :
    windowRead b k s = { s with rsp := s.rsp ++ [windowCell s b k] } := if_pos h

/-- A CORE that is not ready does nothing with a word, whatever plane writes race it. -/
theorem racingWord_of_not_ready {s : State} (h : s.ready = false) (w : Word) (writes : List (PlaneId × Word × Byte)) :
    racingWord w writes s = .next s := by
  unfold racingWord
  split
  · exact whenReady_not_ready h _
  · exact exec_of_not_ready h _
  · exact whenReady_not_ready h _

/-- A reset inside a word that is discarded is a reset (70_reset_and_hazards.md R170). -/
theorem cutWord_of_not_ready {s : State} (h : s.ready = false) (w : Word) (k : Nat) : cutWord w k s = applyReset s := by
  unfold cutWord
  split
  · rw [if_neg (by simp [h])]
  · rfl

section
variable {s : State} {acts : List HostAct} (hhalted : s.halted = true)
include hhalted

/-- No RLD goes on in a halted CORE: its step is the host's next interaction. -/
theorem step_of_halted : step s = hostStep s :=
  coreStep_of_not_goesOn (goesOn_of_not_busy (not_busy_of_halted hhalted))

/-- No interaction waits at a halted CORE. -/
theorem whenIdle_of_halted (run : Host.Outcome State Fault Refusal) : whenIdle s run = run :=
  whenIdle_of_not_busy (not_busy_of_halted hhalted) run

theorem step_bufwr_of_halted {b : BufId} {v : Vector Word 64} (hhost : s.host = .bufwr b v :: acts) :
    step s = .next { s with host := acts } := by
  rw [step_of_halted hhalted, hostStep, hhost]
  simp only [whenIdle_of_halted hhalted, hhalted, if_true]

theorem step_bufrd_of_halted {b : BufId} {k : Fin 64} (hhost : s.host = .bufrd b k :: acts) (hvalid : validBit s b = true) :
    step s = .next { s with host := acts, rsp := s.rsp ++ [windowCell s b k] } := by
  have hvalid' : validBit { s with host := acts } b = true := by cases b <;> exact hvalid
  rw [step_of_halted hhalted, hostStep, hhost]
  simp only [whenIdle_of_halted hhalted, windowRead_of_valid hvalid']
  cases b <;> rfl

theorem step_csrrd_of_halted {n : Nat} (hhost : s.host = .csrrd n :: acts) :
    step s = .next { s with host := acts, rsp := s.rsp ++ [csrValue s n] } := by
  rw [step_of_halted hhalted, hostStep, hhost]

end

/-! ### Reset ends HALT, and nothing else does -/

theorem exists_host_of_resetNext {s : State} (h : s.resetNext = true) :
    ∃ a acts, s.host = a :: acts ∧ a.resets = true := by
  cases hs : s.host with
  | nil => simp [State.resetNext, hs] at h
  | cons a acts => exact ⟨a, acts, rfl, by simpa [State.resetNext, hs] using h⟩

/-- At a halted CORE every interaction that asserts `rst` is a reset and no more: the word of a `cmdCut` is discarded. -/
theorem step_resets_of_halted {s : State} (hhalted : s.halted = true) (hr : s.resetNext = true) :
    ∃ u, step s = .next (applyReset u) := by
  obtain ⟨a, acts, hhost, ha⟩ := exists_host_of_resetNext hr
  rw [step_of_halted hhalted, hostStep, hhost]
  cases a with
  | rst | rstRefill => exact ⟨_, rfl⟩
  | cmdCut w k =>
    have hready : State.ready { s with host := acts } = false := not_ready_of_halted hhalted
    simp only [whenIdle_of_halted hhalted, cutWord_of_not_ready hready]
    exact ⟨_, rfl⟩
  | cmd | csrrd | bufrd | bufwr | feed | raiseEos | drain | planeWrite | cmdRacing => cases ha

/-- A halted CORE keeps its fault record through every step that is no reset (60_exceptions.md R164). -/
theorem step_keepsRecord_of_halted {s t : State} (hhalted : s.halted = true) (hr : s.resetNext = false)
    (h : step s = .next t) : keepsRecord s t := by
  obtain ⟨hreset, -⟩ | hkeep | ⟨w, -, hfc, -⟩ := step_record h
  · simp [hr] at hreset
  · exact hkeep
  · exact absurd hfc ((halted_iff s).mp hhalted)

/-- Settles O42: no interaction waits at a halted CORE, a word finds it not ready, and the record changes only by reset. -/
theorem haltedCoreDiscards : Obligations.HaltedCoreDiscards := by
  unfold Obligations.HaltedCoreDiscards
  refine ⟨?_, ?_, ?_, ?_, ?_, ?_⟩
  · exact fun s w acts hhalted hhost => step_of_halted_word hhalted hhost
  · exact fun s b v acts hhalted hhost => step_bufwr_of_halted hhalted hhost
  · exact fun s b k acts hhalted hhost hvalid => step_bufrd_of_halted hhalted hhost hvalid
  · exact fun s n acts hhalted hhost => step_csrrd_of_halted hhalted hhost
  · exact fun s t hhalted hr h => step_keepsRecord_of_halted hhalted hr h
  · intro s t hhalted hr h
    obtain ⟨u, hu⟩ := step_resets_of_halted hhalted hr
    cases hu.symm.trans h
    exact ⟨rfl, rfl, fun b => by cases b <;> rfl⟩

/-! ### Runs without a reset -/

/-- A halted CORE takes the host's next interaction, whatever it is. -/
theorem hostStep_host_of_halted {s t : State} (hhalted : s.halted = true) (h : hostStep s = .next t) :
    t.host = s.host.tail := by
  unfold hostStep at h
  cases hs : s.host with
  | nil => rw [hs] at h; cases h; exact hs
  | cons a acts =>
    rw [hs] at h
    have hready : State.ready { s with host := acts } = false := not_ready_of_halted hhalted
    cases a with
    | csrrd | drain | rst | rstRefill => cases h; rfl
    | planeWrite p addr b => cases h; exact writePlane_host _ p addr b
    | feed => dsimp only at h; split at h <;> cases h; rfl
    | raiseEos => dsimp only at h; split at h <;> cases h; rfl
    | cmd => simp only [whenIdle_of_halted hhalted, takeWord_of_not_ready hready] at h; cases h; rfl
    | cmdCut => simp only [whenIdle_of_halted hhalted, cutWord_of_not_ready hready] at h; cases h; rfl
    | cmdRacing w writes =>
      simp only [whenIdle_of_halted hhalted, racingWord_of_not_ready hready, landWrites] at h
      cases h; exact writePlanes_host writes _
    | bufwr => simp only [whenIdle_of_halted hhalted, hhalted, if_true] at h; cases h; rfl
    | bufrd b k => simp only [whenIdle_of_halted hhalted] at h; cases h; exact windowRead_host b k _

/-- The host asserts `rst` in none of its interactions still to come. -/
def State.neverResets (s : State) : Prop := ∀ a ∈ s.host, a.resets = false

theorem neverResets_iff (s : State) : s.neverResets ↔ s.host.all (fun a => !a.resets) = true := by
  simp [State.neverResets]

theorem resetNext_of_neverResets {s : State} (h : s.neverResets) : s.resetNext = false := by
  rw [← Bool.not_eq_true]
  intro hr
  obtain ⟨a, acts, hhost, ha⟩ := exists_host_of_resetNext hr
  rw [h a (by simp [hhost])] at ha
  cases ha

/-- A step of a halted CORE keeps the record and leaves a host that never resets, if it was one. -/
theorem step_of_halted_neverResets {s t : State} (hhalted : s.halted = true) (hn : s.neverResets)
    (h : step s = .next t) : keepsRecord s t ∧ t.neverResets := by
  refine ⟨step_keepsRecord_of_halted hhalted (resetNext_of_neverResets hn) h, fun a ha => hn a ?_⟩
  rw [hostStep_host_of_halted hhalted ((step_of_halted hhalted).symm.trans h)] at ha
  exact List.mem_of_mem_tail ha

/-- A run of `n + 1` steps that comes to a state is a step and a run of `n`. -/
theorem run_succ_next {s t : State} {n : Nat} (h : Host.Core.run core (n + 1) s = .next t) :
    ∃ u, step s = .next u ∧ Host.Core.run core n u = .next t := by
  cases hs : step s with
  | next u => exact ⟨u, rfl, (run_of_step hs).symm.trans h⟩
  | fault r => have hcore : core.step s = .fault r := hs; simp [Host.Core.run, hcore] at h
  | refused r => have hcore : core.step s = .refused r := hs; simp [Host.Core.run, hcore] at h

/-- A recorded fault stays through every run in which the host never resets (60_exceptions.md R165). -/
theorem run_keepsRecord_of_halted {n : Nat} {s t : State} (hhalted : s.halted = true) (hn : s.neverResets)
    (h : Host.Core.run core n s = .next t) : keepsRecord s t := by
  induction n generalizing s with
  | zero => cases h; exact keepsRecord_refl _
  | succ n ih =>
    obtain ⟨u, hstep, hrun⟩ := run_succ_next h
    obtain ⟨⟨hfc, hfcmd⟩, hnu⟩ := step_of_halted_neverResets hhalted hn hstep
    have hu : u.halted = true := by rw [State.halted, hfc]; exact hhalted
    obtain ⟨hfc', hfcmd'⟩ := ih hu hnu hrun
    exact ⟨hfc'.trans hfc, hfcmd'.trans hfcmd⟩

/-- Settles O43: a CORE with a recorded fault is halted, and a halted CORE keeps its record through every run without a reset. -/
theorem firstFaultStays : Obligations.FirstFaultStays := by
  unfold Obligations.FirstFaultStays
  intro n s t f hhost hf hrun
  have hhalted : s.halted = true := by rw [State.halted, hf]; rfl
  obtain ⟨hfc, hfcmd⟩ := run_keepsRecord_of_halted hhalted ((neverResets_iff s).mpr hhost) hrun
  exact ⟨hfc.trans hf, hfcmd⟩

end Sys2Proof.Machine
end

section
/-!
PROOFS. Plane bytes that the host writes (70_reset_and_hazards.md R175): while a BPX runs, each read of it sees the old byte of
its address or one written there; between commands a write changes one byte and S does not follow.
-/

namespace Sys2Proof.Machine

/-! ### A BPX whose reads race the host's writes -/

/-- A racing read sees the old byte of its address or one of the bytes written there. -/
theorem racingByte_cases (n : Nat) (p : PlaneId) (addr j : Nat) (writes : List (PlaneId × Word × Byte)) (seen : Byte) :
    racingByte n p addr writes j seen = seen
      ∨ ∃ a b, (p, a, b) ∈ writes ∧ a.toNat = addr ∧ racingByte n p addr writes j seen = b := by
  induction writes generalizing j seen with
  | nil => exact .inl rfl
  | cons write writes ih =>
    obtain ⟨q, a, b⟩ := write
    rw [racingByte]
    obtain hkept | ⟨a', b', hmem, haddr, hseen⟩ :=
      ih (j + 1) (if q = p ∧ a.toNat = addr ∧ Config.raceSeesNew n addr j then b else seen)
    · rw [hkept]
      split
      · next hnew =>
        obtain ⟨rfl, haddr, -⟩ := hnew
        exact .inr ⟨a, b, List.mem_cons_self, haddr, rfl⟩
      · exact .inl rfl
    · exact .inr ⟨a', b', List.mem_cons_of_mem _ hmem, haddr, hseen⟩

/-- Without an access error BPX of a legal plane cuts its block into S, whatever its reads see
(40_config_partitioner.md R73). -/
theorem partition_of_quiet (rd : PlaneId → Nat → Byte) {s : State} {p : BitVec 2} {plane : PlaneId} {bx bY : BitVec 13}
    (hp : planeOfOperand p = some plane) (hq : s.quiet (planeReads s bx bY)) :
    partition rd p bx bY s = { s with bufS := cutBlock (rd plane) bx bY s, vS := true
                                      ioAnswers := s.ioAnswers.drop (planeReads s bx bY) } := by
  simp only [partition, hp, partitionFrom, askOracle_ok _ _ hq, Bool.false_eq_true, if_false]

theorem cell_cutBlock_of_inPlane (rd : Nat → Byte) {s : State} {bx bY : BitVec 13} {k : Nat} (hk : k < 64)
    (hin : inPlane s bx bY k = true) : cell (cutBlock rd bx bY s) k = rd (planeAddress s bx bY k) := by
  rw [cutBlock, cell_tabulate _ hk, if_pos hin]

/-- Without an access error a BPX that races plane writes cuts its block out of the bytes that its reads see. -/
theorem racingWord_bpx {s : State} {p : BitVec 2} {plane : PlaneId} {bx bY : BitVec 13}
    (writes : List (PlaneId × Word × Byte)) (hready : s.ready = true) (hp : planeOfOperand p = some plane)
    (hq : s.quiet (planeReads s bx bY)) :
    racingWord (encode (.bpx p bx bY)) writes s =
      .next { s with bufS := cutBlock (fun a => racingByte s.free plane a writes 0 (memRead s plane a)) bx bY s
                     vS := true, ioAnswers := s.ioAnswers.drop (planeReads s bx bY) } := by
  simp only [racingWord, decode_encode (wf_bpx_of_plane hp bx bY), whenReady_ready hready, partition_of_quiet _ hp hq]

/-! ### The step -/

/-- A CORE that is not busy takes a word that the host offers while it writes plane bytes. -/
theorem step_of_racing_word {s : State} {w : Word} {writes : List (PlaneId × Word × Byte)} {acts : List HostAct}
    (hbusy : s.busy = false) (hhost : s.host = .cmdRacing w writes :: acts) :
    step s = landWrites writes (racingWord w writes { s with host := acts }) := by
  rw [step, coreStep_of_not_goesOn (goesOn_of_not_busy hbusy), hostStep, hhost]
  exact whenIdle_of_not_busy hbusy _

/-- What S holds after a BPX that races plane writes; the writes that land after it do not change S. -/
theorem bufS_of_racing_bpx {s t : State} {p : BitVec 2} {plane : PlaneId} {bx bY : BitVec 13}
    {writes : List (PlaneId × Word × Byte)} {acts : List HostAct} (hready : s.ready = true)
    (hp : planeOfOperand p = some plane) (hq : s.quiet (planeReads s bx bY))
    (hhost : s.host = .cmdRacing (encode (.bpx p bx bY)) writes :: acts) (h : step s = .next t) :
    t.bufS = cutBlock (fun a => racingByte s.free plane a writes 0 (memRead s plane a)) bx bY s := by
  have hrun := racingWord_bpx (s := { s with host := acts }) writes hready hp hq
  rw [step_of_racing_word (not_busy_of_ready hready) hhost, hrun] at h
  cases h
  exact writePlanes_bufS writes _

/-- Between commands a plane write is all that its step does. -/
theorem step_of_planeWrite {s : State} {p : PlaneId} {a : Word} {b : Byte} {acts : List HostAct} (hhold : s.hold = none)
    (hhost : s.host = .planeWrite p a b :: acts) : step s = .next (writePlane { s with host := acts } p a b) := by
  have hbusy : s.busy = false := by simp [State.busy, hhold]
  rw [step, coreStep_of_not_goesOn (goesOn_of_not_busy hbusy), hostStep, hhost]

/-- Settles O56: each in-plane cell of S is one racing read of its address, and a write between commands is `writePlane`. -/
theorem racingPlaneWrites : Obligations.RacingPlaneWrites := by
  unfold Obligations.RacingPlaneWrites
  constructor
  · intro s t p plane bx bY writes acts hready hp hq hhost h k hk hin
    rw [bufS_of_racing_bpx hready hp hq hhost h, cell_cutBlock_of_inPlane _ hk hin]
    exact racingByte_cases _ _ _ _ _ _
  · intro s plane a b acts hhold hhost
    refine ⟨_, step_of_planeWrite hhold hhost, writePlane_bufS _ _ _ _, writePlane_vS _ _ _ _,
      memRead_writePlane_same _ _ _ _, fun q c hne => ?_⟩
    exact memRead_writePlane_other _ plane q a b c hne

end Sys2Proof.Machine
end

section
/-!
PROOFS. Reset at any time (70_reset_and_hazards.md R170): an interaction that asserts `rst` ends in `applyReset`, also while an
RLD waits, while HALT is 1, or after the first accesses of a command; what `applyReset` leaves is the state of 10_state.md R28.
-/

namespace Sys2Proof.Machine

/-! ### The state that reset leaves -/

/-- STATUS, FCMD, PW and PH are 0, nothing is valid, no RLD waits and the CORE is ready (10_state.md R28). -/
def State.atReset (s : State) : Prop :=
  statusWord s = 0#32 ∧ s.fc = none ∧ s.fcmd = 0#32 ∧ s.pw = 0#16 ∧ s.ph = 0#16 ∧ (∀ b, validBit s b = false)
    ∧ s.hold = none

theorem reset_atReset : State.reset.atReset :=
  ⟨by decide, rfl, rfl, rfl, rfl, fun b => by cases b <;> rfl, rfl⟩

/-- `applyReset` takes every field that `State.atReset` speaks of from `State.reset`. -/
theorem applyReset_atReset (s : State) : (applyReset s).atReset := reset_atReset

/-! ### The interactions that assert `rst` -/

/-- No RLD goes on while the host asserts `rst`. -/
theorem goesOn_of_rstNext {s : State} (h : s.rstNext = true) : s.goesOn = false := by simp [State.goesOn, h]

theorem cutAccesses_host (k : Nat) (s : State) (i : Instr) : (cutAccesses k s i).host = s.host := by
  cases i with
  | rle => rw [cutAccesses]; split <;> rfl
  | nop | cfgw | cfgh | bpx | lsh | fdct | qnt | zzs | rld | zzu | dqt | idct | uls => rfl

/-- However far the command came, what its reset leaves is reset. -/
theorem cutWord_eq_applyReset (w : Word) (k : Nat) (s : State) :
    ∃ u, cutWord w k s = applyReset u ∧ u.host = s.host := by
  unfold cutWord
  split
  · refine ⟨_, rfl, ?_⟩
    split
    · exact cutAccesses_host k s _
    · rfl
  · exact ⟨s, rfl, rfl⟩

theorem step_of_rst {s : State} {acts : List HostAct} (hhost : s.host = .rst :: acts) :
    step s = .next (applyReset { s with host := acts }) := by
  have hrst : s.rstNext = true := by simp [State.rstNext, hhost, HostAct.isRst]
  rw [step, coreStep_of_not_goesOn (goesOn_of_rstNext hrst), hostStep, hhost]

theorem step_of_rstRefill {s : State} {bytes : List Byte} {acts : List HostAct}
    (hhost : s.host = .rstRefill bytes :: acts) :
    step s = .next (applyReset { s with host := acts, istr := bytes, eos := false }) := by
  have hrst : s.rstNext = true := by simp [State.rstNext, hhost, HostAct.isRst]
  rw [step, coreStep_of_not_goesOn (goesOn_of_rstNext hrst), hostStep, hhost]

theorem step_of_cmdCut {s : State} {w : Word} {k : Nat} {acts : List HostAct} (hbusy : s.busy = false)
    (hhost : s.host = .cmdCut w k :: acts) : step s = .next (cutWord w k { s with host := acts }) := by
  rw [step, coreStep_of_not_goesOn (goesOn_of_not_busy hbusy), hostStep, hhost]
  exact whenIdle_of_not_busy hbusy _

/-- Settles O7: each of the three interactions ends in `applyReset`, and so does a command that is cut. -/
theorem resetAtAnyTime : Obligations.ResetAtAnyTime := by
  unfold Obligations.ResetAtAnyTime
  obtain ⟨hstatus, -, hfcmd, hpw, hph, hvalid, -⟩ := reset_atReset
  refine ⟨fun s acts h => ?_, hstatus, hfcmd, hpw, hph, hvalid, rfl⟩
  have hstep : ∃ u, step s = .next (applyReset u) ∧ u.host = acts := by
    obtain hhost | ⟨bytes, hhost⟩ | ⟨hbusy, w, k, hhost⟩ := h
    · exact ⟨_, step_of_rst hhost, rfl⟩
    · exact ⟨_, step_of_rstRefill hhost, rfl⟩
    · obtain ⟨u, hu, huhost⟩ := cutWord_eq_applyReset w k { s with host := acts }
      exact ⟨u, hu ▸ step_of_cmdCut hbusy hhost, huhost⟩
  obtain ⟨u, hu, huhost⟩ := hstep
  obtain ⟨hstatus, hfc, hfcmd, hpw, hph, hvalid, hhold⟩ := applyReset_atReset u
  exact ⟨_, hu, hstatus, hfc, rfl, rfl, hfcmd, hpw, hph, hvalid, hhold, rfl, huhost⟩

end Sys2Proof.Machine
end

section
/-!
PROOFS. The decoder and the encoder invert each other (30_encoding.md R50 to R58), and a step runs the command that the word
it takes decodes to.
-/

namespace Sys2Proof.Machine

/-- The decoder gives no BPX of the reserved plane (30_encoding.md R58). -/
theorem wf_of_decode {w : Word} {i : Instr} (h : decode w = .instr i) : i.wf = true := by
  cases i with
  | bpx p bx bY =>
    obtain ⟨hop, hp, -, -⟩ := Laws.Encode.format_b_fields 0x3#4 p bx bY
    obtain rfl : wordB 0x3#4 p bx bY = w := encode_of_decode h
    have hne : p ≠ 3#2 := hp ▸ (decodes_iff_formatB (congrArg BitVec.toNat hop)).mp ⟨_, h⟩
    exact bne_iff_ne.mpr hne
  | nop | cfgw | cfgh | lsh | fdct | qnt | zzs | rle | rld | zzu | dqt | idct | uls => rfl

theorem takeWord_of_decode {w : Word} {i : Instr} (h : decode w = .instr i) (s : State) : takeWord w s = exec i s := by
  rw [takeWord, h]

/-- A table word is a command word cut to its bits. -/
theorem decode_of_decodeTableWord {nbits w : Nat} {i : Instr} (h : decodeTableWord nbits w = some i) :
    decode (BitVec.ofNat 32 (w % 2 ^ nbits)) = .instr i := by
  unfold decodeTableWord Decoded.instr? at h
  split at h
  · next hw => cases h; exact hw
  · cases h

/-- The word that `withFetchWord` places is offered to a CORE that is not busy, whatever it did before. -/
theorem step_withFetchWord {nbits w : Nat} {i : Instr} (h : decodeTableWord nbits w = some i) (s : State) :
    step (s.withFetchWord nbits w) = exec i { s with hold := none } := by
  have hbusy : (s.withFetchWord nbits w).busy = false := rfl
  rw [step_of_offered_word hbusy rfl, takeWord_of_decode (decode_of_decodeTableWord h)]
  rfl

/-- An RLD that waits in a CORE without a fault goes on with a byte or `eos` unless the host asserts `rst`
(20_memory.md R35, assumption log 7). -/
theorem step_resumes {h : RldHold} {s : State} (hhold : s.hold = some h) (hfc : s.fc = none)
    (hin : s.istr ≠ [] ∨ s.eos = true) (hrst : s.rstNext = false) : step s = .next (runRld h s) := by
  have hbusy : s.busy = true := (busy_iff s).mpr ⟨by simp [hhold], hfc⟩
  have hgoes : s.goesOn = true := by simp [State.goesOn, hbusy, hin, hrst]
  obtain ⟨held, hheld, hstep⟩ := step_of_goesOn hgoes
  cases hheld.symm.trans hhold
  exact hstep

/-- Settles O1, command by command in `decode_encode`. -/
theorem decodeOfEncode : Obligations.DecodeOfEncode := by
  unfold Obligations.DecodeOfEncode
  exact fun i hwf => decode_encode hwf

/-- Settles O2: the fields the decoder reads or compares make up the word, and it refuses the reserved plane. -/
theorem encodeOfDecode : Obligations.EncodeOfDecode := by
  unfold Obligations.EncodeOfDecode
  exact fun w i h => ⟨wf_of_decode h, encode_of_decode h⟩

/-- Settles O5: a word offered to a CORE that is not busy is run by `takeWord`, and a waiting RLD with input comes first. -/
theorem stepRunsTheDecodedInstruction : Obligations.StepRunsTheDecodedInstruction := by
  unfold Obligations.StepRunsTheDecodedInstruction
  refine ⟨fun s w i acts htakes hw => ?_, fun s nbits w i h => step_withFetchWord h s, fun h s => step_resumes⟩
  rw [step_of_takes htakes, takeWord_of_decode hw]

/-- Settles O6, by running the decoder on the eight words. -/
theorem wordsOfTheSpecDecode : Obligations.WordsOfTheSpecDecode := by
  unfold Obligations.WordsOfTheSpecDecode
  decide

end Sys2Proof.Machine
end

section
/-!
PROOFS. What a command can do (10_state.md sections 2 and 5, 60_exceptions.md section 1): the state it leaves alone, the
faults it can raise, and how it ends.
-/

namespace Sys2Proof.Machine

/-! ### The frame -/

/-- The three planes are the same in both states. -/
def keepsPlanes (s t : State) : Prop := t.planeY = s.planeY ∧ t.planeCr = s.planeCr ∧ t.planeCb = s.planeCb

theorem planeOf_of_keepsPlanes {s t : State} (h : keepsPlanes s t) (p : PlaneId) : planeOf t p = planeOf s p := by
  obtain ⟨hY, hCr, hCb⟩ := h
  cases p with
  | luma => exact hY
  | chromaRed => exact hCr
  | chromaBlue => exact hCb

/-- What a command `i` leaves alone, field by field; the fault record is apart (10_state.md R18, 20_memory.md R37, R39). -/
structure CommandKeeps (i : Instr) (s t : State) : Prop where
  bufS : targetOf i ≠ some .s → t.bufS = s.bufS ∧ t.vS = s.vS
  bufL : targetOf i ≠ some .l → t.bufL = s.bufL ∧ t.vL = s.vL
  bufC : targetOf i ≠ some .c → t.bufC = s.bufC ∧ t.vC = s.vC
  bufQ : targetOf i ≠ some .q → t.bufQ = s.bufQ ∧ t.vQ = s.vQ
  bufZ : targetOf i ≠ some .z → t.bufZ = s.bufZ ∧ t.vZ = s.vZ
  bufR : targetOf i ≠ some .r → t.bufR = s.bufR ∧ t.vR = s.vR
  pw : (∀ imm, i ≠ .cfgw imm) → t.pw = s.pw
  ph : (∀ imm, i ≠ .cfgh imm) → t.ph = s.ph
  ostr : i ≠ .rle → t.ostr = s.ostr
  input : i ≠ .rld → t.istr = s.istr ∧ t.hold = s.hold ∧ t.free = s.free
  io : (∀ p bx bY, i ≠ .bpx p bx bY) → i ≠ .rle → i ≠ .rld → t.ioAnswers = s.ioAnswers
  host : t.eos = s.eos ∧ t.host = s.host ∧ t.rsp = s.rsp
  planes : keepsPlanes s t

theorem CommandKeeps.refl (i : Instr) (s : State) : CommandKeeps i s s := by
  constructor <;> simp [keepsPlanes]

theorem takeFault_hold {u : State} (h : u.hold = none) (f : FaultCode) (w : Word) : (takeFault f w u).hold = u.hold := by
  unfold takeFault
  split
  · exact h.symm
  · rfl

/-- A fault that ends a command changes nothing more; only an RLD can have waited before. -/
theorem CommandKeeps.takeFault {i : Instr} {s u : State} (h : CommandKeeps i s u) (hhold : i ≠ .rld → u.hold = none)
    (f : FaultCode) (w : Word) : CommandKeeps i s (takeFault f w u) where
  bufS := by simpa using h.bufS
  bufL := by simpa using h.bufL
  bufC := by simpa using h.bufC
  bufQ := by simpa using h.bufQ
  bufZ := by simpa using h.bufZ
  bufR := by simpa using h.bufR
  pw := by simpa using h.pw
  ph := by simpa using h.ph
  ostr := by simpa using h.ostr
  input hi := by simpa [takeFault_hold (hhold hi)] using h.input hi
  io := by simpa using h.io
  host := by simpa using h.host
  planes := by simpa [keepsPlanes] using h.planes

section
variable {i : Instr} {s run t : State}

theorem whenReady_keeps (h : whenReady s run = .next t) (hrun : s.ready = true → CommandKeeps i s run) :
    CommandKeeps i s t := by
  obtain ⟨hready, rfl⟩ | ⟨-, rfl⟩ := whenReady_cases h
  · exact hrun hready
  · exact .refl i t

theorem fromSource_keeps {valid : Bool} (h : fromSource i valid s run = .next t) (hrun : CommandKeeps i s run) :
    CommandKeeps i s t := by
  obtain ⟨-, rfl⟩ | ⟨hready, -, rfl⟩ | ⟨-, -, rfl⟩ := fromSource_cases h
  · exact .refl i t
  · exact (CommandKeeps.refl i s).takeFault (fun _ => ((ready_iff s).mp hready).1) _ _
  · exact hrun

end

theorem partition_keeps {s : State} (hready : s.ready = true) (rd : PlaneId → Nat → Byte) (p : BitVec 2)
    (bx bY : BitVec 13) : CommandKeeps (.bpx p bx bY) s (partition rd p bx bY s) := by
  have hhold : s.hold = none := ((ready_iff s).mp hready).1
  obtain ⟨-, h⟩ | ⟨_, io, -, -, h⟩ | ⟨_, _, -, -, h⟩ := partition_cases rd p bx bY s <;> rw [h]
  · exact (CommandKeeps.refl _ s).takeFault (fun _ => hhold) _ _
  · have hio : CommandKeeps (.bpx p bx bY) s { s with ioAnswers := io } := by constructor <;> simp [keepsPlanes]
    exact hio.takeFault (fun _ => hhold) _ _
  · constructor <;> simp [keepsPlanes, targetOf]

theorem encodeRuns_keeps {s : State} (hready : s.ready = true) : CommandKeeps .rle s (encodeRuns s) := by
  have hput (bytes : List Byte) (io : List Bool) : CommandKeeps .rle s { s with ostr := bytes, ioAnswers := io } := by
    constructor <;> simp [keepsPlanes]
  unfold encodeRuns
  dsimp only
  split
  · refine CommandKeeps.takeFault ?_ ?_ _ _
    · exact hput _ _
    · exact fun _ => ((ready_iff s).mp hready).1
  · exact hput _ _

theorem runRld_keeps (h : RldHold) (s : State) : CommandKeeps .rld s (runRld h s) := by
  unfold runRld finishRld
  dsimp only
  split
  case h_1 => constructor <;> simp [keepsPlanes, targetOf]
  case h_2 => constructor <;> simp [keepsPlanes]
  case h_3 =>
    refine CommandKeeps.takeFault ?_ (fun hne => absurd rfl hne) _ _
    constructor <;> simp [keepsPlanes, targetOf]

/-- Every command leaves alone what its frame names. -/
theorem exec_keeps {i : Instr} {s t : State} (h : exec i s = .next t) : CommandKeeps i s t := by
  cases i with
  | nop | cfgw | cfgh => exact whenReady_keeps h fun _ => by constructor <;> simp [keepsPlanes]
  | bpx p bx bY => exact whenReady_keeps h fun hready => partition_keeps hready (memRead s) p bx bY
  | rld => exact whenReady_keeps h fun _ => runRld_keeps rldStart s
  | rle =>
    cases hready : s.ready with
    | true => exact fromSource_keeps h (encodeRuns_keeps hready)
    | false => cases (exec_of_not_ready hready .rle).symm.trans h; exact .refl _ _
  | lsh | fdct | qnt | zzs | zzu | dqt | idct | uls =>
    exact fromSource_keeps h (by constructor <;> simp [keepsPlanes, targetOf])

/-- Settles O48: the fields by `exec_keeps`, FC and FCMD by `exec_commandRecord`. -/
theorem commandFrame : Obligations.CommandFrame := by
  unfold Obligations.CommandFrame
  intro i s t h
  have hk := exec_keeps h
  obtain ⟨heos, hhost, hrsp⟩ := hk.host
  refine ⟨hk.bufS, hk.bufL, hk.bufC, hk.bufQ, hk.bufZ, hk.bufR, hk.pw, hk.ph, hk.ostr, hk.input, hk.io, heos, hhost, hrsp,
    fun p a => ?_, exec_commandRecord h⟩
  rw [planeOf_of_keepsPlanes hk.planes]

/-! ### How a command ends -/

/-- The fault `f` is one that the command `i` can raise in the state `s` (60_exceptions.md R150). -/
def raises (i : Instr) (s : State) (f : FaultCode) : Prop :=
  (f = .illegal ∧ ∃ bx bY, i = .bpx 3#2 bx bY)
    ∨ (f = .noSrc ∧ ∃ b, sourceOf i = some b ∧ validBit s b = false)
    ∨ (f ∈ [FaultCode.trunc, .overrun, .badSym] ∧ i = .rld)
    ∨ (f = .io ∧ (i = .rle ∨ i = .rld ∨ ∃ p bx bY, p ≠ 3#2 ∧ i = .bpx p bx bY))

/-- The faults of RLD's own run (43_rle.md R115, 60_exceptions.md R157); each clears V_Z. -/
def rldFaults : List FaultCode := [.trunc, .overrun, .badSym, .io]

theorem raises_rld {f : FaultCode} (hf : f ∈ rldFaults) (s : State) : raises .rld s f := by
  simp only [rldFaults, List.mem_cons, List.not_mem_nil, or_false] at hf
  obtain rfl | rfl | rfl | rfl := hf <;> simp [raises]

/-- Every buffer that is valid in the first state is valid in the second. -/
def keepsValid (s t : State) : Prop := ∀ b, validBit s b = true → validBit t b = true

/-- How a command that starts or goes on in `s` ends: it keeps the fault record, and waits, if it does, with at most 64 cells
filled; or it records a fault of its own. -/
inductive CommandEnds (i : Instr) (s t : State) : Prop
  | keeps (record : keepsRecord s t)
      (hold : ∀ h, t.hold = some h → s.hold = some h ∨ (s.fc = none ∧ h.filled.length ≤ 64)) (valid : keepsValid s t)
  | faults (f : FaultCode) (raised : raises i s f) (before : s.fc = none) (fc : t.fc = some f) (fcmd : t.fcmd = encode i)
      (hold : t.hold = none)
      (valid : ∀ b, validBit s b = true → validBit t b = true ∨ (b = .z ∧ i = .rld ∧ f ∈ rldFaults))

theorem CommandEnds.refl (i : Instr) (s : State) : CommandEnds i s s :=
  .keeps (keepsRecord_refl s) (fun _ => .inl) fun _ => id

@[simp] theorem validBit_takeFault (f : FaultCode) (w : Word) (s : State) (b : BufId) :
    validBit (takeFault f w s) b = validBit s b := by
  cases b <;> simp [validBit]

/-- The fault a command takes in a CORE that has recorded none. -/
theorem CommandEnds.takeFault {i : Instr} {s u : State} {f : FaultCode} (raised : raises i s f) (before : s.fc = none)
    (hu : u.fc = none) (valid : ∀ b, validBit s b = true → validBit u b = true ∨ (b = .z ∧ i = .rld ∧ f ∈ rldFaults)) :
    CommandEnds i s (takeFault f (encode i) u) := by
  refine .faults f raised before ?_ ?_ ?_ (by simpa using valid) <;> rw [takeFault_of_none hu]

section
variable {i : Instr} {s run t : State}

theorem whenReady_ends (h : whenReady s run = .next t) (hrun : s.ready = true → CommandEnds i s run) :
    CommandEnds i s t := by
  obtain ⟨hready, rfl⟩ | ⟨-, rfl⟩ := whenReady_cases h
  · exact hrun hready
  · exact .refl i t

theorem fromSource_ends {b : BufId} (hi : sourceOf i = some b) (h : fromSource i (validBit s b) s run = .next t)
    (hrun : s.ready = true → CommandEnds i s run) : CommandEnds i s t := by
  obtain ⟨-, rfl⟩ | ⟨hready, hinvalid, rfl⟩ | ⟨hready, -, rfl⟩ := fromSource_cases h
  · exact .refl i t
  · have hfc : s.fc = none := ((ready_iff s).mp hready).2
    exact .takeFault (.inr (.inl ⟨rfl, b, hi, hinvalid⟩)) hfc hfc fun _ => .inl
  · exact hrun hready

end

theorem partition_ends {s : State} (hfc : s.fc = none) (rd : PlaneId → Nat → Byte) (p : BitVec 2) (bx bY : BitVec 13) :
    CommandEnds (.bpx p bx bY) s (partition rd p bx bY s) := by
  obtain ⟨rfl, h⟩ | ⟨_, io, -, hp, h⟩ | ⟨_, io, -, -, h⟩ := partition_cases rd p bx bY s <;> rw [h]
  · exact .takeFault (.inl ⟨rfl, bx, bY, rfl⟩) hfc hfc fun _ => .inl
  · have hio : raises (.bpx p bx bY) s .io := .inr (.inr (.inr ⟨rfl, .inr (.inr ⟨p, bx, bY, hp, rfl⟩)⟩))
    exact .takeFault hio hfc hfc fun b hb => .inl (by cases b <;> exact hb)
  · exact .keeps ⟨rfl, rfl⟩ (fun _ => .inl) fun b hb => by cases b <;> simp_all [validBit]

theorem encodeRuns_ends {s : State} (hfc : s.fc = none) : CommandEnds .rle s (encodeRuns s) := by
  unfold encodeRuns
  dsimp only
  split
  · exact .takeFault (.inr (.inr (.inr ⟨rfl, .inl rfl⟩))) hfc hfc fun b hb => .inl (by cases b <;> exact hb)
  · exact .keeps ⟨rfl, rfl⟩ (fun _ => .inl) fun b hb => by cases b <;> exact hb

theorem runRld_ends {h : RldHold} {s : State} (hfc : s.fc = none) (hlen : h.filled.length ≤ 64) :
    CommandEnds .rld s (runRld h s) := by
  obtain ⟨_, _, _, hrun, -⟩ | ⟨held, _, _, hrun, hheld, -⟩ | ⟨f, _, _, hrun, hf⟩ := runRld_cases (s := s) hlen <;> rw [hrun]
  · exact .keeps ⟨rfl, rfl⟩ (fun _ e => nomatch e) fun b hb => by cases b <;> simp_all [validBit]
  · refine .keeps ⟨rfl, rfl⟩ (fun h' e => ?_) fun b hb => by cases b <;> exact hb
    cases e
    exact .inr ⟨hfc, hheld⟩
  · refine .takeFault (raises_rld hf s) hfc hfc fun b hb => ?_
    cases b with
    | z => exact .inr ⟨rfl, rfl, hf⟩
    | s | l | c | q | r => exact .inl hb

/-- How every command ends. -/
theorem exec_ends {i : Instr} {s t : State} (h : exec i s = .next t) : CommandEnds i s t := by
  have hfc (hready : s.ready = true) : s.fc = none := ((ready_iff s).mp hready).2
  cases i with
  | nop | cfgw | cfgh =>
    exact whenReady_ends h fun _ => .keeps ⟨rfl, rfl⟩ (fun _ => .inl) fun b hb => by cases b <;> exact hb
  | bpx p bx bY => exact whenReady_ends h fun hready => partition_ends (hfc hready) (memRead s) p bx bY
  | rld => exact whenReady_ends h fun hready => runRld_ends (hfc hready) (Nat.zero_le 64)
  | rle => exact fromSource_ends (b := .z) rfl h fun hready => encodeRuns_ends (hfc hready)
  | lsh | fdct | qnt | zzs | zzu | dqt | idct | uls =>
    exact fromSource_ends rfl h fun _ => .keeps ⟨rfl, rfl⟩ (fun _ => .inl) fun b hb => by cases b <;> simp_all [validBit]

/-- Settles O40: a ready CORE has no fault before the command, so the fault it leaves is the command's own. -/
theorem whichCommandRaisesWhich : Obligations.WhichCommandRaisesWhich := by
  unfold Obligations.WhichCommandRaisesWhich
  intro i s t f hready h hf
  cases exec_ends h with
  | keeps record =>
    have hnone : t.fc = none := record.1.trans ((ready_iff s).mp hready).2
    cases hnone.symm.trans hf
  | faults g raised _ fc fcmd =>
    cases fc.symm.trans hf
    refine ⟨fcmd, by simp [State.halted, hf], ?_⟩
    obtain hill | hsrc | hdata | ⟨hio, hrle | hrld | ⟨p, bx, bY, -, hbpx⟩⟩ := raised
    · exact .inl hill
    · exact .inr (.inl hsrc)
    · exact .inr (.inr (.inl hdata))
    · exact .inr (.inr (.inr ⟨hio, .inl hrle⟩))
    · exact .inr (.inr (.inr ⟨hio, .inr (.inl hrld)⟩))
    · exact .inr (.inr (.inr ⟨hio, .inr (.inr ⟨p, bx, bY, hbpx⟩)⟩))

end Sys2Proof.Machine
end

section
/-!
PROOFS. What a step can do, said once (70_reset_and_hazards.md, 44_pipeline_host.md R139): an RLD goes on, a word is run, the
host resets the CORE, writes a buffer or a plane byte, or does what leaves the CORE's own state alone. From it the invariant,
and what clears a valid bit.
-/

namespace Sys2Proof.Machine

/-! ### What a step can do -/

/-- What a step from `s` to a state can have been. -/
inductive StepCase (s : State) : State → Prop
  /-- The host has no more interactions, or the next one waits. -/
  | stays : StepCase s s
  /-- An RLD that waited goes on. -/
  | resumes {h : RldHold} (hhold : s.hold = some h) (hgoes : s.goesOn = true) : StepCase s (runRld h s)
  /-- The CORE takes a word. -/
  | word {w : Word} {acts : List HostAct} {t : State} (hhost : s.host = .cmd w :: acts)
      (hrun : takeWord w { s with host := acts } = .next t) : StepCase s t
  /-- The CORE takes a word while the host writes plane bytes. -/
  | racing {w : Word} {writes : List (PlaneId × Word × Byte)} {acts : List HostAct} {u : State}
      (hhost : s.host = .cmdRacing w writes :: acts) (hrun : racingWord w writes { s with host := acts } = .next u) :
      StepCase s (writePlanes { u with free := u.free + 1 } writes)
  /-- The host asserts `rst`, on its own or inside a command. -/
  | resets {u : State} (hr : s.resetNext = true) (hplanes : keepsPlanes s u) : StepCase s (applyReset u)
  /-- The host writes a buffer through the window. -/
  | bufwr {b : BufId} {v : Vector Word 64} {acts : List HostAct} (hhost : s.host = .bufwr b v :: acts) :
      StepCase s (windowWrite b v { s with host := acts })
  /-- The host writes a plane byte. -/
  | planeWrite {p : PlaneId} {addr : Word} {b : Byte} {acts : List HostAct} (hhost : s.host = .planeWrite p addr b :: acts) :
      StepCase s (writePlane { s with host := acts } p addr b)
  /-- Another interaction, which reaches neither the CORE's own state nor the planes. -/
  | aside {t : State} (hcore : keepsCore s t) (hplanes : keepsPlanes s t) : StepCase s t

theorem cutAccesses_planes (k : Nat) (s : State) (i : Instr) : keepsPlanes s (cutAccesses k s i) := by
  cases i with
  | rle => rw [cutAccesses]; split <;> exact ⟨rfl, rfl, rfl⟩
  | nop | cfgw | cfgh | bpx | lsh | fdct | qnt | zzs | rld | zzu | dqt | idct | uls => exact ⟨rfl, rfl, rfl⟩

/-- A command that is cut has written no plane byte. -/
theorem cutWord_eq_applyReset_planes (w : Word) (k : Nat) (s : State) :
    ∃ u, cutWord w k s = applyReset u ∧ keepsPlanes s u := by
  unfold cutWord
  split
  · refine ⟨_, rfl, ?_⟩
    split
    · exact cutAccesses_planes k s _
    · exact ⟨rfl, rfl, rfl⟩
  · exact ⟨s, rfl, rfl, rfl, rfl⟩

/-- A buffer-window read tells the host a word and does no more. -/
theorem windowRead_aside (b : BufId) (k : Nat) (s : State) (acts : List HostAct) :
    keepsCore s (windowRead b k { s with host := acts }) ∧ keepsPlanes s (windowRead b k { s with host := acts }) := by
  unfold windowRead
  split <;> exact ⟨rfl, rfl, rfl, rfl⟩

theorem hostStep_cases {s t : State} (h : hostStep s = .next t) : StepCase s t := by
  unfold hostStep at h
  cases hs : s.host with
  | nil => rw [hs] at h; cases h; exact .stays
  | cons a acts =>
    rw [hs] at h
    have hr (ha : a.resets = true) : s.resetNext = true := by simp [State.resetNext, hs, ha]
    cases a with
    | cmd w =>
      obtain rfl | hrun := whenIdle_cases h
      · exact .stays
      · exact .word hs hrun
    | csrrd n => cases h; exact .aside rfl ⟨rfl, rfl, rfl⟩
    | bufrd b k =>
      obtain rfl | hread := whenIdle_cases h
      · exact .stays
      · cases hread
        obtain ⟨hcore, hplanes⟩ := windowRead_aside b k s acts
        exact .aside hcore hplanes
    | bufwr b v =>
      obtain rfl | hwrite := whenIdle_cases h
      · exact .stays
      · cases hwrite
        split
        · exact .aside rfl ⟨rfl, rfl, rfl⟩
        · exact .bufwr hs
    | feed bytes => dsimp only at h; split at h <;> cases h; exact .aside rfl ⟨rfl, rfl, rfl⟩
    | raiseEos => dsimp only at h; split at h <;> cases h; exact .aside rfl ⟨rfl, rfl, rfl⟩
    | drain n => cases h; exact .aside rfl ⟨rfl, rfl, rfl⟩
    | planeWrite p addr b => cases h; exact .planeWrite hs
    | rst => cases h; exact .resets (hr rfl) ⟨rfl, rfl, rfl⟩
    | rstRefill bytes => cases h; exact .resets (hr rfl) ⟨rfl, rfl, rfl⟩
    | cmdCut w k =>
      obtain rfl | hcut := whenIdle_cases h
      · exact .stays
      · cases hcut
        obtain ⟨u, hu, hplanes⟩ := cutWord_eq_applyReset_planes w k { s with host := acts }
        rw [hu]
        exact .resets (hr rfl) hplanes
    | cmdRacing w writes =>
      obtain rfl | hrace := whenIdle_cases h
      · exact .stays
      · cases hrun : racingWord w writes { s with host := acts } with
        | next u => rw [hrun] at hrace; cases hrace; exact .racing hs hrun
        | fault | refused => rw [hrun] at hrace; cases hrace

/-- A step is one of the cases. -/
theorem step_cases {s t : State} (h : step s = .next t) : StepCase s t := by
  cases hg : s.goesOn with
  | true =>
    obtain ⟨held, hheld, hs⟩ := step_of_goesOn hg
    cases hs.symm.trans h
    exact .resumes hheld hg
  | false => exact hostStep_cases ((coreStep_of_not_goesOn hg).symm.trans h)

theorem fc_of_goesOn {s : State} (h : s.goesOn = true) : s.fc = none := ((busy_iff s).mp (busy_of_goesOn h)).2

/-! ### Canonical planes -/

theorem planesWf_iff (s : State) : planesWf s ↔ ∀ p, MemoryWf (planeOf s p) :=
  ⟨fun ⟨hY, hCr, hCb⟩ p => by cases p <;> assumption, fun h => ⟨h .luma, h .chromaRed, h .chromaBlue⟩⟩

theorem planesWf_of_keepsPlanes {s t : State} (h : keepsPlanes s t) (hs : planesWf s) : planesWf t := by
  obtain ⟨hY, hCr, hCb⟩ := h
  rwa [planesWf, hY, hCr, hCb]

theorem writePlane_planesWf {s : State} (p : PlaneId) (addr : Word) (b : Byte) (h : planesWf s) :
    planesWf (writePlane s p addr b) :=
  (planesWf_iff _).mpr (writePlane_wf p addr b ((planesWf_iff s).mp h))

theorem writePlanes_planesWf (writes : List (PlaneId × Word × Byte)) {s : State} (h : planesWf s) :
    planesWf (writePlanes s writes) := by
  induction writes generalizing s with
  | nil => exact h
  | cons write writes ih =>
    obtain ⟨p, addr, b⟩ := write
    exact ih (writePlane_planesWf p addr b h)

/-! ### The record and the wait -/

theorem recordExplained_of_keepsRecord {s t : State} (h : keepsRecord s t) (hs : recordExplained s) : recordExplained t := by
  obtain ⟨hfc, hfcmd⟩ := h
  rwa [recordExplained, hfc, hfcmd]

/-- The word of a BPX of the reserved plane is illegal (30_encoding.md R58). -/
theorem decode_bpx_three (bx bY : BitVec 13) : ∃ why, decode (encode (.bpx 3#2 bx bY)) = .illegal why := by
  obtain ⟨hop, hp, -, -⟩ := Laws.Encode.format_b_fields 0x3#4 3#2 bx bY
  exact (decode_illegal_iff _).mpr (.inr (.inr (.inr ⟨congrArg BitVec.toNat hop, hp⟩)))

theorem mem_sourceCommands {i : Instr} {b : BufId} (h : sourceOf i = some b) : i ∈ sourceCommands := by
  cases i with
  | nop | cfgw | cfgh | bpx | rld => cases h
  | lsh | fdct | qnt | zzs | rle | zzu | dqt | idct | uls => decide

/-- A fault that a command can raise is explained by the command's word. -/
theorem recordExplained_of_raises {i : Instr} {s t : State} {f : FaultCode} (h : raises i s f) (hfc : t.fc = some f)
    (hfcmd : t.fcmd = encode i) : recordExplained t := by
  unfold recordExplained
  rw [hfc, hfcmd]
  obtain ⟨rfl, bx, bY, rfl⟩ | ⟨rfl, b, hb, -⟩ | ⟨hf, rfl⟩ | ⟨rfl, rfl | rfl | ⟨p, bx, bY, hp, rfl⟩⟩ := h
  · exact decode_bpx_three bx bY
  · exact ⟨i, mem_sourceCommands hb, rfl⟩
  · simp only [List.mem_cons, List.not_mem_nil, or_false] at hf
    obtain rfl | rfl | rfl := hf <;> rfl
  · exact .inl rfl
  · exact .inr (.inl rfl)
  · exact .inr (.inr ⟨p, bx, bY, hp, rfl⟩)

/-- The two parts of the invariant that a command can touch. -/
def coreInvariant (s : State) : Prop := recordExplained s ∧ holdLegal s

theorem coreInvariant_of_ends {i : Instr} {s t : State} (h : CommandEnds i s t) (hs : coreInvariant s) : coreInvariant t := by
  obtain ⟨hrecord, hlegal⟩ := hs
  cases h with
  | keeps record hold _ =>
    refine ⟨recordExplained_of_keepsRecord record hrecord, fun held hheld => ?_⟩
    rw [record.1]
    exact (hold held hheld).elim (hlegal held) id
  | faults f raised _ fc fcmd hold _ =>
    exact ⟨recordExplained_of_raises raised fc fcmd, fun held hheld => by simp [hold] at hheld⟩

/-! ### The words of the port `CMD` -/

/-- How a word ends that the CORE takes in `s`: as the command it is, or, illegal, in F_ILLEGAL on a ready CORE. -/
def WordEnds (w : Word) (s t : State) : Prop :=
  (∃ i, CommandEnds i s t ∧ keepsPlanes s t) ∨ ((∃ why, decode w = .illegal why) ∧ s.fc = none ∧ t = takeFault .illegal w s)

theorem WordEnds.of_illegal {w : Word} {why : DecodeError} {s t : State} (hw : decode w = .illegal why)
    (h : whenReady s (takeFault .illegal w s) = .next t) : WordEnds w s t := by
  obtain ⟨hready, rfl⟩ | ⟨-, rfl⟩ := whenReady_cases h
  · exact .inr ⟨⟨why, hw⟩, ((ready_iff s).mp hready).2, rfl⟩
  · exact .inl ⟨.nop, .refl .nop t, rfl, rfl, rfl⟩

theorem takeWord_ends {w : Word} {s t : State} (h : takeWord w s = .next t) : WordEnds w s t := by
  unfold takeWord at h
  split at h
  · exact .inl ⟨_, exec_ends h, (exec_keeps h).planes⟩
  · next hw => exact .of_illegal hw h

theorem racingWord_ends {w : Word} {writes : List (PlaneId × Word × Byte)} {s t : State}
    (h : racingWord w writes s = .next t) : WordEnds w s t := by
  unfold racingWord at h
  split at h
  · have hends := whenReady_ends h fun hready => partition_ends ((ready_iff s).mp hready).2 _ _ _ _
    have hkeeps := whenReady_keeps h fun hready => partition_keeps hready _ _ _ _
    exact .inl ⟨_, hends, hkeeps.planes⟩
  · exact .inl ⟨_, exec_ends h, (exec_keeps h).planes⟩
  · next hw => exact .of_illegal hw h

section
variable {w : Word} {s t : State} (h : WordEnds w s t)
include h

/-- An illegal word explains the F_ILLEGAL that it records (60_exceptions.md R151). -/
theorem WordEnds.coreInvariant (hs : coreInvariant s) : coreInvariant t := by
  obtain ⟨i, hends, -⟩ | ⟨hw, hfc, rfl⟩ := h
  · exact coreInvariant_of_ends hends hs
  · rw [takeFault_of_none hfc]
    exact ⟨hw, fun _ hheld => nomatch hheld⟩

theorem WordEnds.planes : keepsPlanes s t := by
  obtain ⟨i, -, hplanes⟩ | ⟨-, -, rfl⟩ := h
  · exact hplanes
  · exact ⟨takeFault_planeY _ _ s, takeFault_planeCr _ _ s, takeFault_planeCb _ _ s⟩

end

/-- The core invariant speaks of FC, FCMD and the wait alone. -/
theorem coreInvariant_congr {s t : State} (hfc : t.fc = s.fc) (hfcmd : t.fcmd = s.fcmd) (hhold : t.hold = s.hold)
    (hs : coreInvariant s) : coreInvariant t := by
  rwa [coreInvariant, recordExplained, holdLegal, hfc, hfcmd, hhold]

theorem invariant_iff (s : State) : Invariant s ↔ coreInvariant s ∧ planesWf s := and_assoc.symm

theorem reset_coreInvariant : coreInvariant State.reset := ⟨rfl, fun _ h => nomatch h⟩

/-! ### The obligations -/

/-- Settles O9. -/
theorem invariantAtReset : Obligations.InvariantAtReset := by
  unfold Obligations.InvariantAtReset
  exact (invariant_iff _).mpr ⟨reset_coreInvariant, (planesWf_iff _).mpr reset_planes_wf⟩

/-- Settles O10, case by case of `step_cases`: a command ends with its fault explained and leaves the planes, a host write
keeps them canonical, and everything else keeps the record and the wait or resets them. -/
theorem stepKeepsInvariant : Obligations.StepKeepsInvariant := by
  unfold Obligations.StepKeepsInvariant
  intro s t hs h
  rw [invariant_iff] at hs ⊢
  obtain ⟨hcore, hplanes⟩ := hs
  cases step_cases h with
  | stays => exact ⟨hcore, hplanes⟩
  | resumes hhold hgoes =>
    obtain ⟨hfc, hlen⟩ := hcore.2 _ hhold
    exact ⟨coreInvariant_of_ends (runRld_ends hfc hlen) hcore, planesWf_of_keepsPlanes (runRld_keeps _ s).planes hplanes⟩
  | word hhost hrun =>
    have hends := takeWord_ends hrun
    exact ⟨hends.coreInvariant hcore, planesWf_of_keepsPlanes hends.planes hplanes⟩
  | racing hhost hrun =>
    have hends := racingWord_ends hrun
    have hu := planesWf_of_keepsPlanes hends.planes hplanes
    refine ⟨coreInvariant_congr ?_ ?_ ?_ (hends.coreInvariant hcore), writePlanes_planesWf _ hu⟩ <;> simp
  | resets hr hu => exact ⟨reset_coreInvariant, planesWf_of_keepsPlanes hu hplanes⟩
  | bufwr hhost =>
    refine ⟨coreInvariant_congr ?_ ?_ ?_ hcore, planesWf_of_keepsPlanes ⟨?_, ?_, ?_⟩ hplanes⟩ <;> simp
  | planeWrite hhost =>
    refine ⟨coreInvariant_congr ?_ ?_ ?_ hcore, writePlane_planesWf _ _ _ hplanes⟩ <;> simp
  | aside hkeep hp =>
    refine ⟨?_, planesWf_of_keepsPlanes hp hplanes⟩
    rw [hkeep]
    exact hcore

end Sys2Proof.Machine
end

section
/-!
PROOFS. The valid bits (10_state.md sections 2 and 4) and the ports (20_memory.md section 12, 70_reset_and_hazards.md section
3): what clears a valid bit, what the register port returns, and what the buffer window does and when it waits.
-/

namespace Sys2Proof.Machine

/-! ### What clears a valid bit -/

/-- An RLD without a recorded fault before it has recorded one of its own (43_rle.md R115). -/
def rldFaulted (s t : State) : Prop := s.fc = none ∧ t.fcmd = encode .rld ∧ ∃ f, t.fc = some f ∧ f ∈ rldFaults

/-- Every valid bit stays, but that of Z when an RLD faults. -/
def clearsOnlyZ (s t : State) : Prop := ∀ b, validBit s b = true → validBit t b = true ∨ (b = .z ∧ rldFaulted s t)

theorem CommandEnds.clearsOnlyZ {i : Instr} {s t : State} (h : CommandEnds i s t) : clearsOnlyZ s t := by
  intro b hb
  cases h with
  | keeps _ _ valid => exact .inl (valid b hb)
  | faults f _ before fc fcmd _ valid =>
    obtain hstays | ⟨rfl, rfl, hf⟩ := valid b hb
    · exact .inl hstays
    · exact .inr ⟨rfl, before, fcmd, f, fc, hf⟩

theorem WordEnds.clearsOnlyZ {w : Word} {s t : State} (h : WordEnds w s t) : clearsOnlyZ s t := by
  obtain ⟨i, hends, -⟩ | ⟨-, -, rfl⟩ := h
  · exact hends.clearsOnlyZ
  · exact fun b hb => .inl (by simpa using hb)

@[simp] theorem validBit_writePlanes (s : State) (writes : List (PlaneId × Word × Byte)) (b : BufId) :
    validBit (writePlanes s writes) b = validBit s b := by
  cases b <;> simp [validBit]

@[simp] theorem validBit_writePlane (s : State) (p : PlaneId) (addr : Word) (v : Byte) (b : BufId) :
    validBit (writePlane s p addr v) b = validBit s b := by
  cases b <;> simp [validBit]

/-- A step that is no reset clears no valid bit but that of Z, and that one only in an RLD that faults. -/
theorem step_clearsOnlyZ {s t : State} (hs : holdLegal s) (hr : s.resetNext = false) (h : step s = .next t) :
    clearsOnlyZ s t := by
  cases step_cases h with
  | stays => exact fun _ => .inl
  | resumes hhold hgoes => exact (runRld_ends (fc_of_goesOn hgoes) (hs _ hhold).2).clearsOnlyZ
  | word hhost hrun => exact (takeWord_ends hrun).clearsOnlyZ
  | @racing w writes acts u hhost hrun =>
    intro b hb
    rw [validBit_writePlanes, rldFaulted, writePlanes_fcmd, writePlanes_fc]
    exact (racingWord_ends hrun).clearsOnlyZ b hb
  | resets hreset => simp [hr] at hreset
  | bufwr => intro b hb; rw [validBit_windowWrite]; exact .inl (by simpa using .inr hb)
  | planeWrite => intro b hb; rw [validBit_writePlane]; exact .inl hb
  | aside hcore => intro b hb; rw [hcore]; exact .inl hb

/-- Settles O47: a step that does not reset clears at most V_Z, and that in an RLD that faults. -/
theorem validBitsAreClearedOnlyByResetAndRldFaults : Obligations.ValidBitsAreClearedOnlyByResetAndRldFaults := by
  unfold Obligations.ValidBitsAreClearedOnlyByResetAndRldFaults
  intro s t b ⟨_, hlegal, _⟩ h hb hb'
  cases hr : s.resetNext with
  | true => exact .inl rfl
  | false =>
    obtain hstays | hcleared := step_clearsOnlyZ hlegal hr h b hb
    · cases hstays.symm.trans hb'
    · exact .inr hcleared

/-! ### The register port -/

/-- STATUS's registers FC, FCMD, PW and PH are the same in both states (10_state.md section 5). -/
def keepsRegisters (s t : State) : Prop := t.fc = s.fc ∧ t.fcmd = s.fcmd ∧ t.pw = s.pw ∧ t.ph = s.ph

/-- Only a command and a reset write a register. -/
theorem step_keepsRegisters {s t : State} {a : HostAct} {acts : List HostAct} (hhost : s.host = a :: acts)
    (hword : a.issuesWord = false) (hreset : a.resets = false) (hgoes : s.goesOn = false) (h : step s = .next t) :
    keepsRegisters s t := by
  cases step_cases h with
  | stays => exact ⟨rfl, rfl, rfl, rfl⟩
  | resumes _ hgoes' => cases hgoes'.symm.trans hgoes
  | word hhost' => cases hhost'.symm.trans hhost; cases hword
  | racing hhost' => cases hhost'.symm.trans hhost; cases hword
  | resets hr => simp [State.resetNext, hhost, hreset] at hr
  | bufwr => simp [keepsRegisters]
  | planeWrite => simp [keepsRegisters]
  | aside hcore => rw [hcore]; exact ⟨rfl, rfl, rfl, rfl⟩

theorem csrValue_of_four_le {n : Nat} (hn : 4 ≤ n) (s : State) : csrValue s n = 0#32 := by
  match n, hn with
  | n + 4, _ => rfl

/-- Settles O46: a read is a host step that leaves all but the host's record, and `step_keepsRegisters`. -/
theorem csrReadPort : Obligations.CsrReadPort := by
  unfold Obligations.CsrReadPort
  refine ⟨fun s => ⟨?_, ?_, fun n hn => csrValue_of_four_le hn s⟩, ?_, ?_⟩
  · exact BitVec.toNat_setWidth_of_le (by decide)
  · exact BitVec.toNat_setWidth_of_le (by decide)
  · intro s n acts hgoes hhost
    rw [step, coreStep_of_not_goesOn hgoes, hostStep, hhost]
  · exact fun s t a acts hhost hword hreset hgoes h => step_keepsRegisters hhost hword hreset hgoes h

/-! ### The buffer window -/

theorem cell_windowBlock (w : Nat) (v : Vector Word 64) (k : Fin 64) : cell (windowBlock w v) k = v[k].setWidth w := by
  rw [windowBlock, cell_tabulate _ k.isLt, cell_eq_getElem v k.isLt]; rfl

/-- A ready CORE lets the host write a buffer. -/
theorem step_bufwr_of_ready {s : State} {b : BufId} {v : Vector Word 64} {acts : List HostAct} (hready : s.ready = true)
    (hhost : s.host = .bufwr b v :: acts) : step s = .next (windowWrite b v { s with host := acts }) := by
  have hbusy := not_busy_of_ready hready
  have hhalted : s.halted = false := by simp [State.halted, ((ready_iff s).mp hready).2]
  rw [step, coreStep_of_not_goesOn (goesOn_of_not_busy hbusy), hostStep, hhost]
  simp [whenIdle_of_not_busy hbusy, hhalted]

/-- A CORE that is not busy, ready or halted, lets the host read a buffer. -/
theorem step_bufrd_of_not_busy {s : State} {b : BufId} {k : Fin 64} {acts : List HostAct} (hbusy : s.busy = false)
    (hhost : s.host = .bufrd b k :: acts) : step s = .next (windowRead b k { s with host := acts }) := by
  rw [step, coreStep_of_not_goesOn (goesOn_of_not_busy hbusy), hostStep, hhost]
  exact whenIdle_of_not_busy hbusy _

theorem validBit_host (s : State) (acts : List HostAct) (b : BufId) : validBit { s with host := acts } b = validBit s b := by
  cases b <;> rfl

theorem windowCell_host (s : State) (acts : List HostAct) (b : BufId) (k : Nat) :
    windowCell { s with host := acts } b k = windowCell s b k := by
  cases b <;> rfl

/-- Settles O54: a write is `windowWrite`, whose cells are the low bits of its words; a read is `windowRead`. -/
theorem bufferWindow : Obligations.BufferWindow := by
  unfold Obligations.BufferWindow
  constructor
  · intro s b v acts hready hhost
    refine ⟨_, step_bufwr_of_ready hready hhost, by cases b <;> rfl, fun k => ?_⟩
    cases b with
    | r => exact (cell_windowBlock 32 v k).trans (BitVec.setWidth_eq _)
    | s => exact congrArg (BitVec.setWidth 32) (cell_windowBlock 8 v k)
    | c => exact congrArg (BitVec.signExtend 32) (cell_windowBlock 16 v k)
    | l | q | z => exact congrArg (BitVec.signExtend 32) (cell_windowBlock 8 v k)
  · intro s b k acts hbusy hhost
    rw [step_bufrd_of_not_busy hbusy hhost, windowRead, validBit_host, windowCell_host]
    split
    · refine ⟨windowCell s b k, s.free, rfl, fun _ => ⟨rfl, ?_⟩⟩
      cases b with
      | r => exact cell_eq_getElem s.bufR k.isLt
      | s => exact congrArg (BitVec.setWidth 32) (cell_eq_getElem s.bufS k.isLt)
      | l => exact congrArg (BitVec.signExtend 32) (cell_eq_getElem s.bufL k.isLt)
      | c => exact congrArg (BitVec.signExtend 32) (cell_eq_getElem s.bufC k.isLt)
      | q => exact congrArg (BitVec.signExtend 32) (cell_eq_getElem s.bufQ k.isLt)
      | z => exact congrArg (BitVec.signExtend 32) (cell_eq_getElem s.bufZ k.isLt)
    · next hinvalid => exact ⟨_, _, rfl, fun hvalid => absurd hvalid hinvalid⟩

/-! ### While BUSY is 1 -/

/-- A word or a window access offered while BUSY is 1 stays with the host (70_reset_and_hazards.md R174, assumption log 11). -/
theorem hostStep_waits {s : State} {a : HostAct} {acts : List HostAct} (hbusy : s.busy = true) (hhost : s.host = a :: acts)
    (ha : (∃ w, a = .cmd w) ∨ (∃ b k, a = .bufrd b k) ∨ (∃ b v, a = .bufwr b v)) : hostStep s = .next s := by
  rw [hostStep, hhost]
  obtain ⟨w, rfl⟩ | ⟨b, k, rfl⟩ | ⟨b, v, rfl⟩ := ha <;> exact whenIdle_of_busy hbusy _

/-- Settles O55: the interaction stays with the host, and an RLD that goes on leaves the host's side alone. -/
theorem busyPortsWait : Obligations.BusyPortsWait := by
  unfold Obligations.BusyPortsWait
  intro s a acts hbusy hhost ha
  cases hgoes : s.goesOn with
  | true =>
    obtain ⟨held, -, hstep⟩ := step_of_goesOn hgoes
    obtain ⟨-, hhost', hrsp⟩ := (runRld_keeps held s).host
    exact ⟨⟨_, hstep, hhost', hrsp⟩, fun h => nomatch h⟩
  | false =>
    have hstep : step s = .next s := (coreStep_of_not_goesOn hgoes).trans (hostStep_waits hbusy hhost ha)
    exact ⟨⟨s, hstep, rfl, rfl⟩, fun _ => hstep⟩

end Sys2Proof.Machine
end

section
/-!
PROOFS. The streams where a command does not complete: what `rst` and a reset inside a command leave of them
(70_reset_and_hazards.md R171), an RLD that faults on a malformed stream (43_rle.md R115), and one that goes on after a wait.
-/

namespace Sys2Proof.Machine

/-! ### A reset inside a command -/

/-- A command cut on a ready CORE has made its first `k` accesses, and reset follows. -/
theorem step_of_cut_command {s : State} {i : Instr} {k : Nat} {acts : List HostAct} (hready : s.ready = true)
    (hwf : i.wf = true) (hhost : s.host = .cmdCut (encode i) k :: acts) :
    step s = .next (applyReset (cutAccesses k { s with host := acts } i)) := by
  have hready' : State.ready { s with host := acts } = true := hready
  rw [step_of_cmdCut (not_busy_of_ready hready) hhost, cutWord, decode_encode hwf]
  simp only [hready', if_true]

/-- An RLE cut after `k` accesses has appended the first `k` bytes of its stream. -/
theorem cutAccesses_rle {s : State} {k : Nat} (hvalid : s.vZ = true) (hq : s.quiet k) :
    (cutAccesses k s .rle).ostr = s.ostr ++ (symbolStream (cells s.bufZ)).take k ∧ (cutAccesses k s .rle).istr = s.istr := by
  have hquiet : true ∉ s.ioAnswers.take ((symbolStream (cells s.bufZ)).take k).length :=
    quiet_of_le (List.length_take_le _ _) hq
  rw [cutAccesses, if_pos hvalid, putBytes_ok _ _ hquiet]
  exact ⟨rfl, rfl⟩

/-- An RLD that leaves the CORE busy has taken every byte it was offered (20_memory.md R35). -/
theorem runRld_istr_of_busy {h : RldHold} {s : State} (hbusy : (runRld h s).busy = true) : (runRld h s).istr = [] := by
  obtain ⟨held, hwait⟩ := decodeLoop_wait_of_runRld_busy hbusy
  rw [runRld_istr, decodeLoop_wait_istr _ _ _ _ _ _ hwait]

/-- An RLD cut after `k` accesses leaves in ISTR what an RLD offered the first `k` bytes alone leaves, and the rest. -/
theorem cutAccesses_rld (s : State) (k : Nat) (acts : List HostAct) :
    (cutAccesses k { s with host := acts } .rld).istr =
      (runRld rldStart { s with istr := s.istr.take k, eos := false }).istr ++ s.istr.drop k := by
  rw [runRld_istr]; rfl

/-- Settles O8: `applyReset` keeps the streams and the planes of the state it resets, which for a command that is cut is
`cutAccesses`. -/
theorem resetLeavesTheStreams : Obligations.ResetLeavesTheStreams := by
  unfold Obligations.ResetLeavesTheStreams
  refine ⟨?_, ?_, ?_, ?_⟩
  · intro s t acts hhost h
    cases (step_of_rst hhost).symm.trans h
    exact ⟨rfl, rfl, rfl, fun p a => by cases p <;> rfl⟩
  · intro s t bytes acts hhost h
    cases (step_of_rstRefill hhost).symm.trans h
    exact ⟨rfl, rfl, rfl, fun p a => by cases p <;> rfl⟩
  · intro s k acts hready hvalid hq hhost
    obtain ⟨hostr, histr⟩ := cutAccesses_rle (s := { s with host := acts }) hvalid hq
    exact ⟨_, step_of_cut_command hready rfl hhost, hostr, histr, rfl, rfl⟩
  · intro s u k acts hready hhost hu
    have hready' : State.ready { s with istr := s.istr.take k, eos := false } = true := hready
    cases (exec_rld_of_ready hready').symm.trans hu
    have histr := cutAccesses_rld s k acts
    refine ⟨_, step_of_cut_command hready rfl hhost, histr, fun hbusy => ?_, rfl, rfl, rfl⟩
    rwa [runRld_istr_of_busy hbusy] at histr

/-! ### Malformed streams -/

/-- The bytes `bad` that follow the cells `filled` make an RLD fault `f`, with `rest` left in ISTR (43_rle.md R115). -/
def Malformed (eos : Bool) (filled : List Byte) (f : FaultCode) (bad rest : List Byte) : Prop :=
  (f = .trunc ∧ bad.length ≤ 1 ∧ rest = [] ∧ eos = true)
    ∨ (f = .badSym ∧ ∃ v, bad = [v, 0x00#8] ∧ v ≠ 0xFF#8)
    ∨ (f = .overrun ∧ ∃ v n, bad = [v, n] ∧ n ≠ 0x00#8 ∧ 64 < filled.length + n.toNat)

theorem takeSymbol_badSym {v : Byte} (hv : v ≠ 0xFF#8) (filled : List Byte) :
    takeSymbol filled v 0x00#8 = .inl (.fault .badSym) := by
  simp [takeSymbol, hv]

theorem takeSymbol_overrun {filled : List Byte} {n : Byte} (v : Byte) (hn : n ≠ 0x00#8) (hlen : 64 < filled.length + n.toNat) :
    takeSymbol filled v n = .inl (.fault .overrun) := by
  simp [takeSymbol, hn, hlen]

section
variable {keep : Bool} {io : List Bool} {filled : List Byte}

/-- A symbol that stops the loop is consumed. -/
theorem decodeLoop_symbol_stops {eos : Bool} {v n : Byte} {stop : RldStop} (rest : List Byte) (hq : true ∉ io.take 2)
    (htake : takeSymbol filled v n = .inl stop) :
    decodeLoop eos keep (v :: n :: rest) io ⟨filled, none⟩ = ⟨stop, rest, io.drop 2⟩ := by
  obtain ⟨hv, hn⟩ := quiet_split (m := 1) (n := 1) hq
  rw [decodeLoop_value v _ hv, decodeLoop_count_stops rest hn htake, List.drop_drop]

/-- The end of ISTR with `eos`, before or after a value byte. -/
theorem decodeLoop_truncated {bad : List Byte} (hbad : bad.length ≤ 1) (hq : true ∉ io.take bad.length) :
    decodeLoop true keep bad io ⟨filled, none⟩ = ⟨.fault .trunc, [], io.drop bad.length⟩ := by
  match bad, hbad with
  | [], _ => rfl
  | [v], _ => exact decodeLoop_value v [] hq

theorem decodeLoop_malformed {eos : Bool} {f : FaultCode} {bad rest : List Byte} (h : Malformed eos filled f bad rest)
    (hq : true ∉ io.take bad.length) :
    decodeLoop eos keep (bad ++ rest) io ⟨filled, none⟩ = ⟨.fault f, rest, io.drop bad.length⟩ := by
  obtain ⟨rfl, hlen, rfl, rfl⟩ | ⟨rfl, v, rfl, hv⟩ | ⟨rfl, v, n, rfl, hn, hlen⟩ := h
  · rw [List.append_nil]; exact decodeLoop_truncated hlen hq
  · exact decodeLoop_symbol_stops rest hq (takeSymbol_badSym hv filled)
  · exact decodeLoop_symbol_stops rest hq (takeSymbol_overrun v hn hlen)

end

/-- RLD on data symbols and malformed bytes after them. -/
theorem exec_rld_malformed {s : State} {syms : List (Byte × Byte)} {f : FaultCode} {bad rest : List Byte}
    (hready : s.ready = true) (hsyms : dataSymbols syms) (histr : s.istr = layOut syms ++ bad ++ rest)
    (hq : s.quiet (layOut syms ++ bad).length) (hbad : Malformed s.eos (expansion syms) f bad rest) :
    exec .rld s = .next { s with
      fc := some f, fcmd := encode .rld, istr := rest, bufZ := freeBlock s.free, vZ := false, free := s.free + 1
      ioAnswers := s.ioAnswers.drop (layOut syms ++ bad).length } := by
  rw [State.quiet, List.length_append] at hq
  obtain ⟨hsym, hend⟩ := quiet_split hq
  have hloop := (decodeLoop_start (eos := s.eos) (keep := Config.failedGetKeepsByte s.free) (bad ++ rest) hsyms hsym).trans
    (decodeLoop_malformed hbad hend)
  rw [← List.append_assoc, ← histr, List.drop_drop, ← List.length_append] at hloop
  rw [exec_rld_of_ready hready, runRld_of_fault hloop, takeFault_of_ready]; exact hready

/-- Settles O34: the loop comes to the malformed bytes with the expansion filled, and each of the three kinds stops it. -/
theorem rldFaultsOnMalformedStreams : Obligations.RldFaultsOnMalformedStreams := by
  unfold Obligations.RldFaultsOnMalformedStreams
  intro s syms f bad rest hready hsyms histr hq hbad
  exact ⟨_, exec_rld_malformed hready hsyms histr hq hbad, rfl⟩

/-! ### Going on after a wait -/

/-- A loop that waits after the bytes `a` goes on with `b` as it would have gone on with `a ++ b` at once, whatever the oracle
answers. -/
theorem decodeLoop_append {eos keep : Bool} {a : List Byte} (b : List Byte) {io io' : List Bool} {h held : RldHold}
    (hwait : decodeLoop false keep a io h = ⟨.wait held, [], io'⟩) :
    decodeLoop eos keep (a ++ b) io h = decodeLoop eos keep b io' held := by
  induction a generalizing io h with
  | nil => cases hwait; rfl
  | cons x a ih =>
    simp only [List.cons_append, decodeLoop] at hwait ⊢
    split at hwait
    · cases hwait
    · next hok =>
      rw [if_neg hok]
      cases hvalue : h.value with
      | none => rw [hvalue] at hwait; exact ih hwait
      | some v =>
        rw [hvalue] at hwait
        dsimp only at hwait ⊢
        cases htake : takeSymbol h.filled v x with
        | inl stop =>
          rw [htake] at hwait
          obtain rfl | rfl | rfl := takeSymbol_eq_stop htake <;> cases hwait
        | inr more => rw [htake] at hwait; exact ih hwait

/-- How an RLD ends does not depend on whether one waited before. -/
theorem finishRld_hold {s : State} (hfc : s.fc = none) (held : Option RldHold) (r : RldResult) :
    finishRld { s with hold := held } r = finishRld s r := by
  unfold finishRld
  dsimp only
  split
  · rfl
  · rfl
  · rw [takeFault_of_none (by exact hfc), takeFault_of_none (by exact hfc)]

/-- What an RLD that waits leaves, with the loop that brought it there. -/
theorem runRld_waits {h : RldHold} {s : State} (hbusy : (runRld h s).busy = true) :
    ∃ held io, decodeLoop s.eos (Config.failedGetKeepsByte s.free) s.istr s.ioAnswers h = ⟨.wait held, [], io⟩
      ∧ runRld h s = { s with istr := [], ioAnswers := io, hold := some held } := by
  obtain ⟨held, hwait⟩ := decodeLoop_wait_of_runRld_busy hbusy
  have hempty := decodeLoop_wait_istr _ _ _ _ _ _ hwait
  cases hloop : decodeLoop s.eos (Config.failedGetKeepsByte s.free) s.istr s.ioAnswers h with
  | mk stop rest io =>
    rw [hloop] at hwait hempty
    obtain rfl : stop = .wait held := hwait
    obtain rfl : rest = [] := hempty
    exact ⟨held, io, rfl, runRld_of_wait hloop⟩

/-- Settles O36: the loop of the whole RLD passes through the point where the other one waited. -/
theorem resumedRldIsTheWholeRld : Obligations.ResumedRldIsTheWholeRld := by
  unfold Obligations.ResumedRldIsTheWholeRld
  intro s t a b e hready ht hbusy
  have hready' (istr : List Byte) (eos : Bool) : State.ready { s with istr := istr, eos := eos } = true := hready
  cases (exec_rld_of_ready (hready' a false)).symm.trans ht
  obtain ⟨held, io, hloop, hrun⟩ := runRld_waits hbusy
  refine ⟨held, by rw [hrun], ?_⟩
  have hfc : s.fc = none := ((ready_iff s).mp hready).2
  have hwhole := decodeLoop_append (eos := e) b hloop
  rw [exec_rld_of_ready (hready' (a ++ b) e), hrun, runRld, runRld]
  dsimp only at hwhole ⊢
  rw [hwhole]
  exact congrArg _ (finishRld_hold (s := { s with eos := e }) hfc (some held) _).symm

end Sys2Proof.Machine
end

section
/-!
PROOFS. The configuration commands and the block partitioner (40_config_partitioner.md): what CFGW, CFGH and BPX write, and
which plane bytes a BPX reads (20_memory.md section 2).
-/

namespace Sys2Proof.Machine

/-- Settles O12. -/
theorem configCommandsSetThePlaneSize : Obligations.ConfigCommandsSetThePlaneSize := by
  unfold Obligations.ConfigCommandsSetThePlaneSize
  exact fun s imm16 hready => ⟨exec_cfgw hready imm16, exec_cfgh hready imm16⟩

/-- Settles O14: no plane has number 3, and the fault changes only the record. -/
theorem bpxOfTheReservedPlaneIsIllegal : Obligations.BpxOfTheReservedPlaneIsIllegal := by
  unfold Obligations.BpxOfTheReservedPlaneIsIllegal
  intro s bx bY hready
  calc exec (.bpx 3#2 bx bY) s
    _ = .next (takeFault .illegal (encode (.bpx 3#2 bx bY)) s) := whenReady_ready hready _
    _ = _ := by rw [takeFault_of_ready hready]

/-! ### The cells of the block -/

theorem inPlane_iff (s : State) (bx bY : BitVec 13) (k : Nat) :
    inPlane s bx bY k = true ↔ planeRow bY k < s.ph.toNat ∧ planeCol bx k < s.pw.toNat := by
  simp [inPlane]

/-- The cell at row `r` and column `c` of the block that a BPX cuts out (40_config_partitioner.md R73). -/
theorem cell_cutBlock (rd : Nat → Byte) (s : State) (bx bY : BitVec 13) {r c : Nat} (hr : r < 8) (hc : c < 8) :
    cell (cutBlock rd bx bY s) (8 * r + c) =
      if 8 * bY.toNat + r < s.ph.toNat ∧ 8 * bx.toNat + c < s.pw.toNat then
        rd ((8 * bY.toNat + r) * s.pw.toNat + (8 * bx.toNat + c))
      else 0#8 := by
  rw [cutBlock, cell_tabulate _ (by omega)]
  simp only [inPlane_iff, planeAddress, planeRow, planeCol, rowOf_linear hc, colOf_linear hc]

/-- Settles O13: BPX of a legal plane cuts the block, whose cells are read or padded by `cell_cutBlock`. -/
theorem bpxCutsTheBlock : Obligations.BpxCutsTheBlock := by
  unfold Obligations.BpxCutsTheBlock
  intro s p plane bx bY hready hp hq
  exact ⟨_, exec_bpx hready hp hq, rfl, fun r c hr hc => cell_cutBlock _ s bx bY hr hc⟩

/-! ### The bytes that a BPX reads -/

/-- A position inside a plane of `w` columns and `h` rows has an address below `w * h`. -/
theorem linear_address_lt {row col w h : Nat} (hrow : row < h) (hcol : col < w) : row * w + col < w * h :=
  calc row * w + col
    _ < (row + 1) * w := by rw [Nat.succ_mul]; exact Nat.add_lt_add_left hcol _
    _ ≤ h * w := Nat.mul_le_mul_right w hrow
    _ = w * h := Nat.mul_comm h w

theorem planeAddress_lt {s : State} {bx bY : BitVec 13} {k : Nat} (h : inPlane s bx bY k = true) :
    planeAddress s bx bY k < s.pw.toNat * s.ph.toNat := by
  obtain ⟨hrow, hcol⟩ := (inPlane_iff s bx bY k).mp h
  exact linear_address_lt hrow hcol

/-- A plane of 16-bit dimensions has 32-bit addresses (20_memory.md R31). -/
theorem planeSize_le (s : State) : s.pw.toNat * s.ph.toNat ≤ 2 ^ 32 :=
  calc s.pw.toNat * s.ph.toNat
    _ ≤ 2 ^ 16 * 2 ^ 16 := Nat.mul_le_mul s.pw.isLt.le s.ph.isLt.le
    _ = 2 ^ 32 := rfl

theorem planeReads_le (s : State) (bx bY : BitVec 13) : planeReads s bx bY ≤ 64 :=
  List.length_filter_le _ _

theorem memRead_congr {s u : State} {plane : PlaneId} {a : Nat}
    (h : readByte (planeOf s plane) a = readByte (planeOf u plane) a) : memRead s plane a = memRead u plane a := by
  rw [memRead, memRead, h]

/-- The block is made of the bytes below PW*PH alone. -/
theorem cutBlock_congr {s u : State} {plane : PlaneId} (bx bY : BitVec 13) (hpw : s.pw = u.pw) (hph : s.ph = u.ph)
    (h : ∀ a, a < s.pw.toNat * s.ph.toNat → readByte (planeOf s plane) a = readByte (planeOf u plane) a) :
    cutBlock (memRead s plane) bx bY s = cutBlock (memRead u plane) bx bY u := by
  refine tabulate_congr fun k _ => ?_
  have hin : inPlane u bx bY k = inPlane s bx bY k := by rw [inPlane, inPlane, hpw, hph]
  have haddr : planeAddress u bx bY k = planeAddress s bx bY k := by rw [planeAddress, planeAddress, hpw]
  rw [hin, haddr]
  split
  · next hk => exact memRead_congr (h _ (planeAddress_lt hk))
  · rfl

/-- Settles O15: an in-plane cell has an address below PW*PH, and `cutBlock` reads no other. -/
theorem bpxReadsOnlyInsideThePlane : Obligations.BpxReadsOnlyInsideThePlane := by
  unfold Obligations.BpxReadsOnlyInsideThePlane
  constructor
  · exact fun s bx bY k hk => ⟨planeAddress_lt hk, (planeAddress_lt hk).trans_le (planeSize_le s)⟩
  · intro s u s' u' p plane bx bY hp hs hu hsq huq hpw hph hbytes hs' hu'
    cases (exec_bpx hs hp (quiet_of_le (planeReads_le s bx bY) hsq)).symm.trans hs'
    cases (exec_bpx hu hp (quiet_of_le (planeReads_le u bx bY) huq)).symm.trans hu'
    exact cutBlock_congr bx bY hpw hph hbytes

end Sys2Proof.Machine
end

section
/-!
PROOFS. STATUS (10_state.md R23): the word is its fields one after the other, so each field reads back what was put there.
-/

namespace Sys2Proof.Machine

/-! ### The fields, from the lowest up -/

theorem bitField_statusWord_busy (s : State) : bitField (statusWord s) 0 1 = BitVec.ofBool s.busy :=
  (BitVec.extractLsb'_append_eq_of_add_le (v := 31) (w := 1) (by decide)).trans BitVec.extractLsb'_eq_self

theorem bitField_statusWord_halted (s : State) : bitField (statusWord s) 1 1 = BitVec.ofBool s.halted :=
  (BitVec.extractLsb'_append_eq_of_le (v := 31) (w := 1) (by decide)).trans <|
    (BitVec.extractLsb'_append_eq_of_add_le (v := 30) (w := 1) (by decide)).trans BitVec.extractLsb'_eq_self

/-- The fields above BUSY and HALT. -/
theorem bitField_statusWord_above (s : State) (lo len : Nat) :
    bitField (statusWord s) (lo + 2) len = (0#18 ++ validBits s ++ faultCode s.fc ++ 0#2).extractLsb' lo len :=
  (BitVec.extractLsb'_append_eq_of_le (v := 31) (w := 1) (by omega)).trans <|
    BitVec.extractLsb'_append_eq_of_le (v := 30) (w := 1) (by omega)

theorem bitField_statusWord_low (s : State) : bitField (statusWord s) 2 2 = 0#2 := by
  rw [bitField_statusWord_above s 0 2, BitVec.extractLsb'_append_eq_of_add_le (by decide), BitVec.extractLsb'_eq_self]

theorem bitField_statusWord_fc (s : State) : bitField (statusWord s) 4 4 = faultCode s.fc := by
  rw [bitField_statusWord_above s 2 4, BitVec.extractLsb'_append_eq_of_le (by decide),
    BitVec.extractLsb'_append_eq_of_add_le (by decide), BitVec.extractLsb'_eq_self]

theorem bitField_statusWord_valid (s : State) : bitField (statusWord s) 8 6 = validBits s := by
  rw [bitField_statusWord_above s 6 6, BitVec.extractLsb'_append_eq_of_le (by decide),
    BitVec.extractLsb'_append_eq_of_le (by decide), BitVec.extractLsb'_append_eq_of_add_le (by decide),
    BitVec.extractLsb'_eq_self]

theorem bitField_statusWord_top (s : State) : bitField (statusWord s) 14 18 = 0#18 := by
  rw [bitField_statusWord_above s 12 18, BitVec.extractLsb'_append_eq_of_le (by decide),
    BitVec.extractLsb'_append_eq_of_le (by decide), BitVec.extractLsb'_append_eq_of_le (by decide),
    BitVec.extractLsb'_eq_self]

/-! ### The bits of a field -/

theorem getLsbD_of_bitField {w : Word} {n : Nat} {b : Bool} (h : bitField w n 1 = BitVec.ofBool b) : w.getLsbD n = b := by
  have hbit := congrArg (BitVec.getLsbD · 0) h
  simpa [bitField] using hbit

theorem getLsbD_statusWord_valid (s : State) {k : Nat} (hk : k < 6) :
    (statusWord s).getLsbD (8 + k) = (validBits s).getLsbD k := by
  rw [← bitField_statusWord_valid s, bitField, BitVec.getLsbD_extractLsb']
  simp [hk]

/-- The six valid bits in their order (10_state.md R23). -/
theorem getLsbD_validBits (s : State) :
    (validBits s).getLsbD 0 = s.vS ∧ (validBits s).getLsbD 1 = s.vL ∧ (validBits s).getLsbD 2 = s.vC
      ∧ (validBits s).getLsbD 3 = s.vQ ∧ (validBits s).getLsbD 4 = s.vZ ∧ (validBits s).getLsbD 5 = s.vR := by
  unfold validBits
  generalize s.vS = vS, s.vL = vL, s.vC = vC, s.vQ = vQ, s.vZ = vZ, s.vR = vR
  revert vS vL vC vQ vZ vR
  decide

/-- Only the absence of a fault has the code 0 (60_exceptions.md R150). -/
theorem halted_iff_faultCode (s : State) : s.halted = true ↔ faultCode s.fc ≠ 0#4 := by
  rw [State.halted]
  cases s.fc with
  | none => decide
  | some f => cases f <;> decide

/-- Settles O45, field by field. -/
theorem statusWordFields : Obligations.StatusWordFields := by
  unfold Obligations.StatusWordFields
  intro s
  have hvalid {k : Nat} (hk : k < 6) := getLsbD_statusWord_valid s hk
  obtain ⟨hS, hL, hC, hQ, hZ, hR⟩ := getLsbD_validBits s
  refine ⟨rfl, ?_, getLsbD_of_bitField (bitField_statusWord_busy s), ?_, bitField_statusWord_low s,
    (hvalid (by decide)).trans hS, (hvalid (by decide)).trans hL, (hvalid (by decide)).trans hC,
    (hvalid (by decide)).trans hQ, (hvalid (by decide)).trans hZ, (hvalid (by decide)).trans hR, bitField_statusWord_top s⟩
  · rw [bitField_statusWord_fc]
    cases s.fc with
    | none => rfl
    | some f => cases f <;> rfl
  · rw [getLsbD_of_bitField (bitField_statusWord_halted s), bitField_statusWord_fc]
    exact halted_iff_faultCode s

end Sys2Proof.Machine
end

section
/-!
PROOFS. The rounding RHA (00_scope.md R8) and the size of the two transforms: the quantizer's integer formula is RHA
(41_transform.md sections 5 and 9), and the transforms' real values are small enough for RHA of them to fit the cells.
-/

namespace Sys2Proof.Machine

open Real

/-! ### RHA -/

/-- The integer part of the quantizer's formula: `(2*|a| + t) div (2*t)` is `floor(|a|/t + 1/2)`. -/
theorem floor_abs_div_add_half (a : Int) {t : Nat} (ht : 0 < t) :
    ⌊|(a : ℝ) / t| + 1 / 2⌋ = (((2 * a.natAbs + t) / (2 * t) : Nat) : Int) := by
  have ht' : (0 : ℝ) < t := by exact_mod_cast ht
  have hsum : |(a : ℝ) / t| + 1 / 2 = ((2 * a.natAbs + t : ℕ) : ℝ) / ((2 * t : ℕ) : ℝ) := by
    rw [abs_div, abs_of_pos ht']
    push_cast [Nat.cast_natAbs]
    field_simp
  rw [hsum, Int.floor_div_natCast, Int.floor_natCast]
  rfl

/-- The quantizer's integer formula is RHA of the exact quotient (41_transform.md R86). -/
theorem rhaDiv_eq_rha (a : Int) {t : Nat} (ht : 0 < t) : rhaDiv a t = rha ((a : ℝ) / t) := by
  have ht' : (0 : ℝ) < t := by exact_mod_cast ht
  have hsign : SignType.sign ((a : ℝ) / t) = SignType.sign (a : ℝ) := by
    rw [div_eq_mul_inv, sign_mul, sign_pos (inv_pos.mpr ht'), mul_one]
  have ha : a.sign = (SignType.sign (a : ℝ) : ℤ) := isSign_int a
  rw [rhaDiv, rha, floor_abs_div_add_half a ht, hsign, ha]

/-- Settles O22. -/
theorem integerRoundingIsRha : Obligations.IntegerRoundingIsRha := by
  unfold Obligations.IntegerRoundingIsRha
  exact fun a t ht => ⟨rhaDiv_eq_rha a ht, rhaDiv_neg a t⟩

/-- An integer is not rounded. -/
theorem rha_intCast (n : Int) : rha (n : ℝ) = n := by
  have hdiv : rhaDiv n 1 = n := by
    have hnat : (2 * n.natAbs + 1) / (2 * 1) = n.natAbs := by omega
    rw [rhaDiv, hnat, Int.sign_mul_natAbs]
  have hrha := rhaDiv_eq_rha n Nat.one_pos
  rw [hdiv] at hrha
  simpa using hrha.symm

/-- Nor is an exact quotient. -/
theorem rhaDiv_mul (m : Int) {t : Nat} (ht : 0 < t) : rhaDiv (m * t) t = m := by
  have ht' : (t : ℝ) ≠ 0 := by exact_mod_cast ht.ne'
  rw [rhaDiv_eq_rha _ ht, Int.cast_mul, Int.cast_natCast, mul_div_cancel_right₀ _ ht', rha_intCast]

/-- Rounding does not leave an interval with integer ends. -/
theorem abs_rha_le {v : ℝ} {n : Int} (h : |v| ≤ n) : |rha v| ≤ n := by
  have hnonneg : 0 ≤ ⌊|v| + 1 / 2⌋ := Int.floor_nonneg.mpr (by positivity)
  have hle : ⌊|v| + 1 / 2⌋ ≤ n := by
    rw [← Int.lt_add_one_iff, Int.floor_lt]
    push_cast
    linarith
  have hsign : |(SignType.sign v : ℤ)| ≤ 1 := by
    cases SignType.sign v <;> decide
  calc |rha v|
    _ = |(SignType.sign v : ℤ)| * ⌊|v| + 1 / 2⌋ := by rw [rha, abs_mul, abs_of_nonneg hnonneg]
    _ ≤ 1 * ⌊|v| + 1 / 2⌋ := mul_le_mul_of_nonneg_right hsign hnonneg
    _ ≤ n := by rwa [one_mul]

/-! ### The basis of the transforms -/

/-- The values `c(k) * cos((2t+1)*k*pi/16)` of the basis vector `k` (41_transform.md R81). -/
noncomputable def dctVector (k t : ℕ) : ℝ := dctScale k * dctBasis t k

theorem abs_dctVector_le (k t : ℕ) : |dctVector k t| ≤ 1 / 2 := by
  have hcos : |gCos (phase t k)| ≤ 1 := abs_cos_le_one _
  rw [dctVector, scale_mul_basis, abs_div, abs_two]
  linarith

/-- The cosines of the odd multiples of an angle sum up telescopically. -/
theorem two_sin_mul_sum_cos (α : ℝ) (n : ℕ) :
    2 * sin α * ∑ t ∈ Finset.range n, cos ((2 * (t : ℝ) + 1) * α) = sin (2 * n * α) := by
  induction n with
  | zero => simp
  | succ n ih =>
    have hstep := sin_sub_sin (2 * (n + 1 : ℕ) * α) (2 * n * α)
    have hdiff : (2 * (n + 1 : ℕ) * α - 2 * n * α) / 2 = α := by push_cast; ring
    have hsum : (2 * (n + 1 : ℕ) * α + 2 * n * α) / 2 = (2 * (n : ℝ) + 1) * α := by push_cast; ring
    rw [hdiff, hsum] at hstep
    rw [Finset.sum_range_succ, mul_add, ih]
    linarith

/-- The eight samples of a cosine of a whole number `k` of half periods, `0 < k < 16`, sum to 0. -/
theorem sum_dctBasis {k : ℕ} (h0 : 0 < k) (h16 : k < 16) : ∑ t ∈ Finset.range 8, dctBasis t k = 0 := by
  have hk0 : (0 : ℝ) < k := by exact_mod_cast h0
  have hk16 : (k : ℝ) < 16 := by exact_mod_cast h16
  have hpos : 0 < sin (k * π / 16) := sin_pos_of_pos_of_lt_pi (by positivity) (by nlinarith [pi_pos])
  have hsum := two_sin_mul_sum_cos (k * π / 16) 8
  have hzero : sin (2 * (8 : ℕ) * (k * π / 16)) = 0 := by
    rw [← sin_nat_mul_pi k]; congr 1; push_cast; ring
  rw [hzero] at hsum
  have hbasis : ∀ t : ℕ, dctBasis t k = cos ((2 * (t : ℝ) + 1) * (k * π / 16)) := fun t => by
    rw [dctBasis]; congr 1; ring
  simp only [hbasis]
  exact (mul_eq_zero.mp hsum).resolve_left (by positivity)

theorem dctBasis_zero (t : ℕ) : dctBasis t 0 = 1 := by simp [dctBasis]

theorem dctBasis_sq (t k : ℕ) : dctBasis t k ^ 2 = 1 / 2 + dctBasis t (2 * k) / 2 := by
  rw [dctBasis, cos_sq, dctBasis]; congr 3; push_cast; ring

theorem dctScale_zero_sq : dctScale 0 ^ 2 = 1 / 8 := by
  rw [dctScale, if_pos rfl, sq_sqrt (by norm_num)]

theorem dctScale_sq {k : ℕ} (hk : k ≠ 0) : dctScale k ^ 2 = 1 / 4 := by
  rw [dctScale, if_neg hk, sq_sqrt (by norm_num)]; norm_num

/-- Each basis vector has length 1. -/
theorem sum_dctVector_sq {k : ℕ} (hk : k < 8) : ∑ t ∈ Finset.range 8, dctVector k t ^ 2 = 1 := by
  simp only [dctVector, mul_pow, ← Finset.mul_sum]
  rcases Nat.eq_zero_or_pos k with rfl | hpos
  · simp [dctBasis_zero, dctScale_zero_sq]
  · simp only [dctBasis_sq, Finset.sum_add_distrib, ← Finset.sum_div]
    rw [dctScale_sq hpos.ne', sum_dctBasis (by omega) (by omega)]
    norm_num

/-- So its eight values have, in absolute value, a sum of at most `√8` (Cauchy and Schwarz). -/
theorem sum_abs_dctVector_sq {k : ℕ} (hk : k < 8) : (∑ t ∈ Finset.range 8, |dctVector k t|) ^ 2 ≤ 8 := by
  have h := sq_sum_le_card_mul_sum_sq (s := Finset.range 8) (f := fun t => |dctVector k t|)
  simpa [sum_dctVector_sq hk] using h

/-! ### The transforms -/

/-- A double sum is no larger than its terms' bound allows. -/
theorem abs_sum_sum_le {f g : ℕ → ℕ → ℝ} (h : ∀ a ∈ Finset.range 8, ∀ b ∈ Finset.range 8, |f a b| ≤ g a b) :
    |∑ a ∈ Finset.range 8, ∑ b ∈ Finset.range 8, f a b| ≤ ∑ a ∈ Finset.range 8, ∑ b ∈ Finset.range 8, g a b :=
  (Finset.abs_sum_le_sum_abs _ _).trans <| Finset.sum_le_sum fun a ha =>
    (Finset.abs_sum_le_sum_abs _ _).trans <| Finset.sum_le_sum (h a ha)

theorem fdctReal_eq (l : Block 8) (i j : ℕ) : fdctReal l i j =
    ∑ y ∈ Finset.range 8, ∑ x ∈ Finset.range 8, ((cell l (8 * y + x)).toInt : ℝ) * dctVector i y * dctVector j x := by
  rw [fdctReal, Finset.mul_sum]
  refine Finset.sum_congr rfl fun y _ => ?_
  rw [Finset.mul_sum]
  refine Finset.sum_congr rfl fun x _ => ?_
  rw [dctVector, dctVector]; ring

theorem idctReal_eq (c : Block 16) (y x : ℕ) : idctReal c y x =
    ∑ i ∈ Finset.range 8, ∑ j ∈ Finset.range 8, ((cell c (8 * i + j)).toInt : ℝ) * dctVector i y * dctVector j x := by
  refine Finset.sum_congr rfl fun i _ => Finset.sum_congr rfl fun j _ => ?_
  rw [dctVector, dctVector]; ring

theorem abs_toInt_le_128 (v : BitVec 8) : |(v.toInt : ℝ)| ≤ 128 := by
  have hlo := v.le_toInt
  have hhi := v.toInt_lt
  have habs : |v.toInt| ≤ 128 := abs_le.mpr ⟨by simpa using hlo, by simpa using hhi.le⟩
  exact_mod_cast habs

theorem abs_toInt_le_32768 (v : BitVec 16) : |(v.toInt : ℝ)| ≤ 32768 := by
  have hlo := v.le_toInt
  have hhi := v.toInt_lt
  have habs : |v.toInt| ≤ 32768 := abs_le.mpr ⟨by simpa using hlo, by simpa using hhi.le⟩
  exact_mod_cast habs

/-- The forward transform stays within -1024 and 1024 (41_transform.md R90). -/
theorem abs_fdctReal_le (l : Block 8) {i j : ℕ} (hi : i < 8) (hj : j < 8) : |fdctReal l i j| ≤ 1024 := by
  have hterm (y x : ℕ) : |((cell l (8 * y + x)).toInt : ℝ) * dctVector i y * dctVector j x| ≤
      128 * (|dctVector i y| * |dctVector j x|) := by
    rw [abs_mul, abs_mul, mul_assoc]
    exact mul_le_mul_of_nonneg_right (abs_toInt_le_128 _) (by positivity)
  calc |fdctReal l i j|
    _ ≤ ∑ y ∈ Finset.range 8, ∑ x ∈ Finset.range 8, 128 * (|dctVector i y| * |dctVector j x|) := by
      rw [fdctReal_eq]; exact abs_sum_sum_le fun y _ x _ => hterm y x
    _ = 128 * ((∑ y ∈ Finset.range 8, |dctVector i y|) * ∑ x ∈ Finset.range 8, |dctVector j x|) := by
      rw [Finset.sum_mul_sum]; simp only [Finset.mul_sum]
    _ ≤ 1024 := by nlinarith [sum_abs_dctVector_sq hi, sum_abs_dctVector_sq hj,
      two_mul_le_add_sq (∑ y ∈ Finset.range 8, |dctVector i y|) (∑ x ∈ Finset.range 8, |dctVector j x|)]

/-- A bound on the inverse transform of any coefficients, enough for the exact rounding to work. -/
theorem abs_idctReal_le (c : Block 16) (y x : ℕ) : |idctReal c y x| ≤ 2 ^ 19 := by
  have hterm (i j : ℕ) : |((cell c (8 * i + j)).toInt : ℝ) * dctVector i y * dctVector j x| ≤ 32768 * (1 / 2) * (1 / 2) := by
    rw [abs_mul, abs_mul]
    gcongr
    · exact abs_toInt_le_32768 _
    · exact abs_dctVector_le i y
    · exact abs_dctVector_le j x
  calc |idctReal c y x|
    _ ≤ ∑ _i ∈ Finset.range 8, ∑ _j ∈ Finset.range 8, (32768 * (1 / 2) * (1 / 2) : ℝ) := by
      rw [idctReal_eq]; exact abs_sum_sum_le fun i _ j _ => hterm i j
    _ = 2 ^ 19 := by norm_num

end Sys2Proof.Machine
end

section
/-!
PROOFS. The transform pipeline and the scanner (41_transform.md, 42_zigzag.md): each command on a ready CORE with its source
valid writes its block function's block, whose cells are computed here.
-/

namespace Sys2Proof.Machine

/-! ### The cells -/

/-- The level shift is exact: the difference fits 8 signed bits (41_transform.md R84). -/
theorem toInt_levelShiftCell (v : BitVec 8) : (levelShiftCell v).toInt = (v.toNat : Int) - 128 := by
  have hlt := v.isLt
  exact BitVec.toInt_ofInt_eq_self (by decide) (by norm_num) (by norm_num; omega)

/-- The product fits 16 signed bits: QTABLE's entries are at most 121 (41_transform.md R87). -/
theorem toInt_dequantCell (q : BitVec 8) {t : Nat} (ht : t ≤ 121) : (dequantCell q t).toInt = q.toInt * (t : Int) := by
  have hlo : -128 ≤ q.toInt := q.le_toInt
  have hhi : q.toInt < 128 := q.toInt_lt
  have ht' : (t : Int) ≤ 121 := by exact_mod_cast ht
  have hnonneg : (0 : Int) ≤ t := Int.natCast_nonneg t
  refine BitVec.toInt_ofInt_eq_self (by decide) ?_ ?_ <;> norm_num <;> nlinarith

/-- The un-level shift wraps (41_transform.md R89). -/
theorem toNat_unlevelShiftCell (v : BitVec 32) : ((unlevelShiftCell v).toNat : Int) = (v.toInt + 128) % 256 := by
  rw [unlevelShiftCell, BitVec.toNat_ofInt]
  exact Int.toNat_of_nonneg (Int.emod_nonneg _ (by decide))

theorem quantCell_eq (a : BitVec 16) {t : Nat} (ht : 0 < t) :
    quantCell a t = BitVec.ofInt 8 (rha ((a.toInt : ℝ) / t)) := by
  rw [quantCell, rhaDiv_eq_rha _ ht]

/-- FDCT rounds the real value of the transform once, and it fits 16 signed bits (41_transform.md R85, R90). -/
theorem toInt_cell_forwardDct (l : Block 8) {i j : Nat} (hi : i < 8) (hj : j < 8) :
    (cell (forwardDct l) (8 * i + j)).toInt = rha (fdctReal l i j) := by
  have hreal := abs_fdctReal_le l hi hj
  have hval := val_forward l i j hj
  have hround : fdctCell l i j = rha (fdctReal l i j) := by
    rw [fdctCell, rhaSixteenth_eq, hval, mul_div_cancel_left₀ _ (by norm_num)]
    rw [hval, abs_mul, abs_of_pos (by norm_num : (0 : ℝ) < 16)]
    linarith
  obtain ⟨hlo, hhi⟩ := abs_le.mp (abs_rha_le (n := 1024) (by exact_mod_cast hreal))
  rw [forwardDct, cell_tabulate _ (by omega), rowOf_linear hj, colOf_linear hj, hround]
  exact BitVec.toInt_ofInt_eq_self (by decide) (by norm_num; omega) (by norm_num; omega)

/-- IDCT rounds the real value of the transform once, and it fits 32 signed bits (41_transform.md R88). -/
theorem toInt_cell_inverseDct (c : Block 16) {y x : Nat} (hy : y < 8) (hx : x < 8) :
    (cell (inverseDct c) (8 * y + x)).toInt = rha (idctReal c y x) := by
  have hreal := abs_idctReal_le c y x
  have hval := val_inverse c y x hx
  have hround : idctCell c y x = rha (idctReal c y x) := by
    rw [idctCell, rhaSixteenth_eq, hval, mul_div_cancel_left₀ _ (by norm_num)]
    rw [hval, abs_mul, abs_of_pos (by norm_num : (0 : ℝ) < 16)]
    norm_num at hreal ⊢
    linarith
  obtain ⟨hlo, hhi⟩ := abs_le.mp (abs_rha_le (n := 2 ^ 19) (by exact_mod_cast hreal))
  rw [inverseDct, cell_tabulate _ (by omega), rowOf_linear hx, colOf_linear hx, hround]
  exact BitVec.toInt_ofInt_eq_self (by decide) (by norm_num at hlo ⊢; omega) (by norm_num at hhi ⊢; omega)

/-- A cell index is a row and a column. -/
theorem exists_row_col {k : Nat} (hk : k < 64) : ∃ i j, i < 8 ∧ j < 8 ∧ k = 8 * i + j :=
  ⟨k / 8, k % 8, by omega, by omega, by omega⟩

/-! ### The commands, one by one -/

/-- Settles O16. -/
theorem lshSubtracts128 : Obligations.LshSubtracts128 := by
  unfold Obligations.LshSubtracts128
  intro s hready hvalid
  refine ⟨_, exec_lsh hready hvalid, rfl, fun k hk => ?_⟩
  exact (congrArg BitVec.toInt (cell_tabulate _ hk)).trans (toInt_levelShiftCell _)

/-- Settles O17, by `toInt_cell_forwardDct`. -/
theorem fdctRoundsTheRealTransform : Obligations.FdctRoundsTheRealTransform := by
  unfold Obligations.FdctRoundsTheRealTransform
  exact fun s hready hvalid => ⟨_, exec_fdct hready hvalid, rfl, fun i j hi hj => toInt_cell_forwardDct s.bufL hi hj⟩

/-- Settles O18: no entry of QTABLE is 0, and the quantizer's formula is RHA. -/
theorem qntDividesRoundsAndWraps : Obligations.QntDividesRoundsAndWraps := by
  unfold Obligations.QntDividesRoundsAndWraps
  intro s hready hvalid
  refine ⟨_, exec_qnt hready hvalid, rfl, fun k hk => ?_⟩
  have hpos : 0 < qTable k := Nat.lt_of_lt_of_le (by decide) (qTable_bounds k hk).1
  exact (cell_tabulate _ hk).trans (quantCell_eq _ hpos)

/-- Settles O19. -/
theorem dqtMultiplies : Obligations.DqtMultiplies := by
  unfold Obligations.DqtMultiplies
  intro s hready hvalid
  refine ⟨_, exec_dqt hready hvalid, rfl, fun k hk => ?_⟩
  exact (congrArg BitVec.toInt (cell_tabulate _ hk)).trans (toInt_dequantCell _ (qTable_bounds k hk).2)

/-- Settles O20, by `toInt_cell_inverseDct`. -/
theorem idctRoundsTheRealTransform : Obligations.IdctRoundsTheRealTransform := by
  unfold Obligations.IdctRoundsTheRealTransform
  exact fun s hready hvalid => ⟨_, exec_idct hready hvalid, rfl, fun y x hy hx => toInt_cell_inverseDct s.bufC hy hx⟩

/-- Settles O21. -/
theorem ulsAdds128AndWraps : Obligations.UlsAdds128AndWraps := by
  unfold Obligations.UlsAdds128AndWraps
  intro s hready hvalid
  refine ⟨_, exec_uls hready hvalid, rfl, fun k hk => ?_⟩
  exact (congrArg (fun v : BitVec 8 => (v.toNat : Int)) (cell_tabulate _ hk)).trans (toNat_unlevelShiftCell _)

/-- Settles O23: rounding a real value of at most 1024 leaves it within 1024. -/
theorem fdctStaysWithin1024 : Obligations.FdctStaysWithin1024 := by
  unfold Obligations.FdctStaysWithin1024
  intro s t hready hvalid h k hk
  cases (exec_fdct hready hvalid).symm.trans h
  obtain ⟨i, j, hi, hj, rfl⟩ := exists_row_col hk
  rw [toInt_cell_forwardDct s.bufL hi hj]
  exact abs_le.mp (abs_rha_le (n := 1024) (by exact_mod_cast abs_fdctReal_le s.bufL hi hj))

/-- Settles O27. -/
theorem zzsScans : Obligations.ZzsScans := by
  unfold Obligations.ZzsScans
  exact fun s hready hvalid => ⟨_, exec_zzs hready hvalid, rfl, fun k hk => cell_zigzagScan s.bufQ hk⟩

/-- Settles O28: the cell ZZ[k] is read from position ZZINV[ZZ[k]], which is k. -/
theorem zzuUnscans : Obligations.ZzuUnscans := by
  unfold Obligations.ZzuUnscans
  intro s hready hvalid
  refine ⟨_, exec_zzu hready hvalid, rfl, fun k hk => ?_⟩
  exact (cell_zigzagUnscan s.bufZ (zz_lt k hk)).trans (congrArg (cell s.bufZ) (zzInv_zz k hk))

/-! ### Uniform blocks -/

theorem dctVector_zero (t : ℕ) : dctVector 0 t = dctScale 0 := by rw [dctVector, dctBasis_zero, mul_one]

theorem sum_dctVector {k : ℕ} (h0 : k ≠ 0) (h8 : k < 8) : ∑ t ∈ Finset.range 8, dctVector k t = 0 := by
  simp only [dctVector, ← Finset.mul_sum]
  rw [sum_dctBasis (Nat.pos_of_ne_zero h0) (by omega), mul_zero]

section
variable {l : Block 8} {v : BitVec 8} (hl : ∀ k, k < 64 → cell l k = v)
include hl

/-- The transform of a uniform block is a product of two sums. -/
theorem fdctReal_uniform (i j : ℕ) : fdctReal l i j =
    v.toInt * ((∑ y ∈ Finset.range 8, dctVector i y) * ∑ x ∈ Finset.range 8, dctVector j x) := by
  rw [fdctReal_eq, Finset.sum_mul_sum]
  simp only [Finset.mul_sum]
  refine Finset.sum_congr rfl fun y hy => Finset.sum_congr rfl fun x hx => ?_
  rw [hl _ (by have := Finset.mem_range.mp hy; have := Finset.mem_range.mp hx; omega), mul_assoc]

theorem forwardDct_uniform_dc : (cell (forwardDct l) 0).toInt = 8 * v.toInt := by
  have hreal : fdctReal l 0 0 = ((8 * v.toInt : ℤ) : ℝ) := by
    rw [fdctReal_uniform hl]
    simp only [dctVector_zero, Finset.sum_const, Finset.card_range, nsmul_eq_mul]
    push_cast
    linear_combination (64 * (v.toInt : ℝ)) * dctScale_zero_sq
  have hcell := toInt_cell_forwardDct l (i := 0) (j := 0) (by decide) (by decide)
  rwa [hreal, rha_intCast] at hcell

theorem forwardDct_uniform_ac {k : Nat} (h0 : 0 < k) (hk : k < 64) : cell (forwardDct l) k = 0#16 := by
  obtain ⟨i, j, hi, hj, rfl⟩ := exists_row_col hk
  have hreal : fdctReal l i j = ((0 : ℤ) : ℝ) := by
    rw [fdctReal_uniform hl]
    by_cases hi0 : i = 0
    · rw [sum_dctVector (k := j) (by omega) hj]; simp
    · rw [sum_dctVector hi0 hi]; simp
  apply BitVec.eq_of_toInt_eq
  rw [toInt_cell_forwardDct l hi hj, hreal, rha_intCast]
  rfl

end

/-- A lone coefficient `(0, 0)` comes back as its eighth, rounded, in every cell. -/
theorem inverseDct_lone {c : Block 16} (hc : ∀ k, 0 < k → k < 64 → cell c k = 0#16) {k : Nat} (hk : k < 64) :
    (cell (inverseDct c) k).toInt = rhaDiv (cell c 0).toInt 8 := by
  obtain ⟨y, x, hy, hx, rfl⟩ := exists_row_col hk
  have hzero {i j : ℕ} (hi : i ∈ Finset.range 8) (hj : j ∈ Finset.range 8) (hne : i ≠ 0 ∨ j ≠ 0) :
      ((cell c (8 * i + j)).toInt : ℝ) * dctVector i y * dctVector j x = 0 := by
    rw [Finset.mem_range] at hi hj
    rw [hc _ (by omega) (by omega)]
    simp
  have hreal : idctReal c y x = ((cell c 0).toInt : ℝ) / (8 : ℕ) := by
    rw [idctReal_eq, Finset.sum_eq_single 0, Finset.sum_eq_single 0, dctVector_zero, dctVector_zero]
    · push_cast
      linear_combination ((cell c 0).toInt : ℝ) * dctScale_zero_sq
    · exact fun j hj hj0 => hzero (by decide) hj (.inr hj0)
    · exact fun h => absurd (by decide) h
    · exact fun i hi hi0 => Finset.sum_eq_zero fun j hj => hzero hi hj (.inl hi0)
    · exact fun h => absurd (by decide) h
  rw [toInt_cell_inverseDct c hy hx, hreal, rhaDiv_eq_rha _ (by decide)]

/-- Settles O24. -/
theorem uniformBlockHasOneCoefficient : Obligations.UniformBlockHasOneCoefficient := by
  unfold Obligations.UniformBlockHasOneCoefficient
  intro s v hready hvalid hl
  exact ⟨_, exec_fdct hready hvalid, forwardDct_uniform_dc hl, fun k h0 hk => forwardDct_uniform_ac hl h0 hk⟩

/-- Settles O25. -/
theorem loneDcGivesAUniformBlock : Obligations.LoneDcGivesAUniformBlock := by
  unfold Obligations.LoneDcGivesAUniformBlock
  exact fun s hready hvalid hc => ⟨_, exec_idct hready hvalid, fun k hk => inverseDct_lone hc hk⟩

/-! ### The round trip of a uniform block -/

/-- A zero coefficient stays zero through the quantizer and back. -/
theorem dequantCell_quantCell_zero (t : Nat) : dequantCell (quantCell 0#16 t) t = 0#16 := by
  rw [quantCell, BitVec.toInt_zero, rhaDiv_zero]
  simp [dequantCell]

/-- A coefficient that is a multiple of its table entry comes back from the quantizer, unless the quotient wraps. -/
theorem toInt_dequantCell_quantCell {a : BitVec 16} {m : Int} {t : Nat} (ht0 : 0 < t) (ht : t ≤ 121) (ha : a.toInt = m * t)
    (hlo : -128 ≤ m) (hhi : m < 128) : (dequantCell (quantCell a t) t).toInt = m * t := by
  have hm : (BitVec.ofInt 8 m).toInt = m := BitVec.toInt_ofInt_eq_self (by decide) hlo hhi
  rw [toInt_dequantCell _ ht, quantCell, ha, rhaDiv_mul m ht0, hm]

theorem cell_dequantize_quantize (c : Block 16) {k : Nat} (hk : k < 64) :
    cell (dequantize (quantize c)) k = dequantCell (quantCell (cell c k) (qTable k)) (qTable k) := by
  rw [dequantize, cell_tabulate _ hk, quantize, cell_tabulate _ hk]

/-- A block of one coefficient `16*m` is its own dequantized quantization, if `m` fits 8 signed bits. -/
theorem dequantize_quantize_lone {c : Block 16} {m : Int} (hdc : (cell c 0).toInt = m * 16)
    (hac : ∀ k, 0 < k → k < 64 → cell c k = 0#16) (hlo : -128 ≤ m) (hhi : m < 128) : dequantize (quantize c) = c := by
  refine block_ext fun k hk => ?_
  rw [cell_dequantize_quantize c hk]
  rcases Nat.eq_zero_or_pos k with rfl | hpos
  · apply BitVec.eq_of_toInt_eq
    rw [hdc]
    exact toInt_dequantCell_quantCell (by decide) (by decide) hdc hlo hhi
  · rw [hac k hpos hk, dequantCell_quantCell_zero]

/-- The un-level shift undoes the level shift. -/
theorem unlevelShiftCell_of_toInt {r : BitVec 32} {v : BitVec 8} (h : r.toInt = (v.toNat : Int) - 128) :
    unlevelShiftCell r = v := by
  rw [unlevelShiftCell, h, sub_add_cancel, BitVec.ofInt_natCast, BitVec.ofNat_toNat, BitVec.setWidth_eq]

/-- Settles O26: the one coefficient of the shifted block is `8*(v-128)`, which an even `v` makes a multiple of QTABLE's 16, so
that the quantizer loses nothing and IDCT gives `v-128` back. -/
theorem evenUniformBlockComesBack : Obligations.EvenUniformBlockComesBack := by
  unfold Obligations.EvenUniformBlockComesBack
  intro b v heven hb
  have hl (k : Nat) (hk : k < 64) : cell (levelShift b) k = levelShiftCell v := by
    rw [levelShift, cell_tabulate _ hk, hb k hk]
  have hv : (levelShiftCell v).toInt = (v.toNat : Int) - 128 := toInt_levelShiftCell v
  have hdc : (cell (forwardDct (levelShift b)) 0).toInt = 8 * ((v.toNat : Int) - 128) := by
    rw [forwardDct_uniform_dc hl, hv]
  have hac (k : Nat) (h0 : 0 < k) (hk : k < 64) := forwardDct_uniform_ac hl h0 hk
  have hlt := v.isLt
  rw [dequantize_quantize_lone (m := ((v.toNat : Int) - 128) / 2) (by omega) hac (by omega) (by omega)]
  refine block_ext fun k hk => ?_
  rw [unlevelShift, cell_tabulate _ hk, hb k hk]
  apply unlevelShiftCell_of_toInt
  rw [inverseDct_lone hac hk, hdc, mul_comm]
  exact rhaDiv_mul _ (by decide)

/-! ### What a block command depends on -/

/-- A buffer is determined by its cells as the window returns them. -/
theorem block_eq_of_extended {w : Nat} {f : BitVec w → Word} (hf : Function.Injective f) {a b : Block w}
    (h : ∀ k, k < 64 → f (cell a k) = f (cell b k)) : a = b :=
  block_ext fun k hk => hf (h k hk)

theorem setWidth_injective : Function.Injective (BitVec.setWidth 32 : BitVec 8 → Word) := fun a b h => by
  simpa using congrArg (BitVec.setWidth 8) h

theorem signExtend_injective {w : Nat} (hw : w ≤ 32) : Function.Injective (BitVec.signExtend 32 : BitVec w → Word) :=
  fun a b h => by
    have htoInt := congrArg BitVec.toInt h
    rw [BitVec.toInt_signExtend_of_le hw, BitVec.toInt_signExtend_of_le hw] at htoInt
    exact BitVec.eq_of_toInt_eq htoInt

/-- The buffer `b` is the same in both states. -/
def sameBuffer (s u : State) (b : BufId) : Prop :=
  match b with
  | .s => s.bufS = u.bufS
  | .l => s.bufL = u.bufL
  | .c => s.bufC = u.bufC
  | .q => s.bufQ = u.bufQ
  | .z => s.bufZ = u.bufZ
  | .r => s.bufR = u.bufR

theorem sameBuffer_of_windowCell {s u : State} {b : BufId} (h : ∀ k, k < 64 → windowCell s b k = windowCell u b k) :
    sameBuffer s u b := by
  cases b with
  | s => exact block_eq_of_extended setWidth_injective h
  | l | c | q | z => exact block_eq_of_extended (signExtend_injective (by decide)) h
  | r => exact block_ext h

theorem windowCell_of_sameBuffer {s u : State} {b : BufId} (h : sameBuffer s u b) (k : Nat) :
    windowCell s b k = windowCell u b k := by
  cases b with
  | s | l | c | q | z | r => simp only [sameBuffer] at h; simp only [windowCell, h]

/-- What a block command does when its source is valid (10_state.md R18). -/
def blockRun (i : Instr) (s : State) : State :=
  match i with
  | .lsh => { s with bufL := levelShift s.bufS, vL := true }
  | .fdct => { s with bufC := forwardDct s.bufL, vC := true }
  | .qnt => { s with bufQ := quantize s.bufC, vQ := true }
  | .zzs => { s with bufZ := zigzagScan s.bufQ, vZ := true }
  | .zzu => { s with bufQ := zigzagUnscan s.bufZ, vQ := true }
  | .dqt => { s with bufC := dequantize s.bufQ, vC := true }
  | .idct => { s with bufR := inverseDct s.bufC, vR := true }
  | .uls => { s with bufS := unlevelShift s.bufR, vS := true }
  | _ => s

theorem exec_blockCommand {i : Instr} {src : BufId} {s : State} (hi : i ∈ blockCommands) (hsrc : sourceOf i = some src)
    (hready : s.ready = true) (hvalid : validBit s src = true) : exec i s = .next (blockRun i s) := by
  have hexec : exec i s = fromSource i (validBit s src) s (blockRun i s) := by
    cases i with
    | nop | cfgw | cfgh | bpx | rle | rld => simp [blockCommands] at hi
    | lsh | fdct | qnt | zzs | zzu | dqt | idct | uls => cases hsrc; rfl
  rw [hexec, hvalid, fromSource_valid hready]

/-- What a block command writes is a function of its source. -/
theorem sameBuffer_blockRun {i : Instr} {src dst : BufId} {s u : State} (hsrc : sourceOf i = some src)
    (hdst : targetOf i = some dst) (h : sameBuffer s u src) : sameBuffer (blockRun i s) (blockRun i u) dst := by
  cases i with
  | nop | cfgw | cfgh | bpx | rld => cases hsrc
  | rle => cases hdst
  | lsh | fdct | qnt | zzs | zzu | dqt | idct | uls =>
    cases hsrc
    cases hdst
    simp only [sameBuffer] at h
    simp only [sameBuffer, blockRun, h]

/-- Settles O49: the window's cells determine the source buffer, and the command writes a function of that buffer. -/
theorem blockCommandsReadOnlyTheirSource : Obligations.BlockCommandsReadOnlyTheirSource := by
  unfold Obligations.BlockCommandsReadOnlyTheirSource
  intro i src dst s u s' u' hi hsrc hdst hs hu hvs hvu hcells hs' hu' k _
  cases (exec_blockCommand hi hsrc hs hvs).symm.trans hs'
  cases (exec_blockCommand hi hsrc hu hvu).symm.trans hu'
  exact windowCell_of_sameBuffer (sameBuffer_blockRun hsrc hdst (sameBuffer_of_windowCell hcells)) k

end Sys2Proof.Machine
end

section
/-!
PROOFS. The container's order (44_pipeline_host.md section 2): the host's two runs are made of equal stretches, one per block,
and each stretch of one stretch per plane, so that a stream's place follows from its number.
-/

namespace Sys2Proof.Machine

/-! ### Lists made of stretches of one length -/

section
variable {α β : Type} {f : α → List β} {m : Nat} (hf : ∀ a, (f a).length = m)
include hf

theorem length_flatMap_const (l : List α) : (l.flatMap f).length = m * l.length := by
  simp [List.length_flatMap, hf, Nat.mul_comm]

/-- The stretch number `n` begins after `n` stretches. -/
theorem drop_flatMap_const {l : List α} {n : Nat} {a : α} (hn : l[n]? = some a) :
    ∃ rest, (l.flatMap f).drop (m * n) = f a ++ rest := by
  induction l generalizing n with
  | nil => cases hn
  | cons x l ih =>
    cases n with
    | zero => cases hn; exact ⟨l.flatMap f, rfl⟩
    | succ n =>
      obtain ⟨rest, hrest⟩ := ih hn
      refine ⟨rest, ?_⟩
      rw [List.flatMap_cons, Nat.mul_succ, Nat.add_comm, ← List.drop_drop, List.drop_left' (hf x), hrest]

/-- What stands inside a stretch. -/
theorem take_drop_flatMap_const {l : List α} {n r q : Nat} {a : α} (hn : l[n]? = some a) (hr : r + q ≤ m) :
    ((l.flatMap f).drop (m * n + r)).take q = ((f a).drop r).take q := by
  obtain ⟨rest, hrest⟩ := drop_flatMap_const hf hn
  rw [← List.drop_drop, hrest, List.drop_append_of_le_length (by rw [hf]; omega),
    List.take_append_of_le_length (by rw [List.length_drop, hf]; omega)]

theorem getElem?_flatMap_const {l : List α} {n r : Nat} {a : α} (hn : l[n]? = some a) (hr : r < m) :
    (l.flatMap f)[m * n + r]? = (f a)[r]? := by
  obtain ⟨rest, hrest⟩ := drop_flatMap_const hf hn
  rw [← List.getElem?_drop, hrest, List.getElem?_append_left (by rwa [hf])]

end

/-! ### The order of the blocks -/

theorem length_blockColumn (blocksY bx : Nat) : ((List.range blocksY).map fun bY => (bx, bY)).length = blocksY := by simp

theorem length_blockOrder (blocksX blocksY : Nat) : (blockOrder blocksX blocksY).length = blocksX * blocksY := by
  rw [blockOrder, length_flatMap_const (length_blockColumn blocksY), List.length_range, Nat.mul_comm]

/-- Block `(bx, by)` comes after `bx` whole block-columns and `by` blocks of its own (44_pipeline_host.md R136). -/
theorem blockOrder_getElem? {blocksX blocksY bx bY : Nat} (hx : bx < blocksX) (hy : bY < blocksY) :
    (blockOrder blocksX blocksY)[bx * blocksY + bY]? = some (bx, bY) := by
  have hcolumn : (List.range blocksX)[bx]? = some bx := List.getElem?_range hx
  rw [blockOrder, Nat.mul_comm, getElem?_flatMap_const (length_blockColumn blocksY) hcolumn hy, List.getElem?_map,
    List.getElem?_range hy]
  rfl

/-! ### The compression run -/

/-- The words of the three ENCBLK of a block. -/
def blockWords (b : Nat × Nat) : List HostAct := issue (enc3 (BitVec.ofNat 13 b.1) (BitVec.ofNat 13 b.2))

theorem length_setDimWords (w h : BitVec 16) : (issue (setDim w h)).length = 2 := rfl

theorem length_blockWords (b : Nat × Nat) : (blockWords b).length = 18 := rfl

theorem compressionRun_eq (w h : BitVec 16) : compressionRun w h =
    issue (setDim w h) ++ (blockOrder (blocksOf w.toNat) (blocksOf h.toNat)).flatMap blockWords := by
  rw [compressionRun, issue, List.map_append, List.map_flatMap]
  rfl

/-- The words of plane `p` stand in the words of its block. -/
theorem take_drop_blockWords (bx bY : Nat) {p : Nat} (hp : p < 3) : ((blockWords (bx, bY)).drop (6 * p)).take 6 =
    issue (encBlk (BitVec.ofNat 2 p) (BitVec.ofNat 13 bx) (BitVec.ofNat 13 bY)) := by
  match p, hp with
  | 0, _ | 1, _ | 2, _ => rfl

/-- The six words of stream number `3*(bx*blocksY + by) + p`, after the two of SETDIM (44_pipeline_host.md R137). -/
theorem take_drop_compressionRun {w h : BitVec 16} {bx bY p : Nat} (hx : bx < blocksOf w.toNat) (hy : bY < blocksOf h.toNat)
    (hp : p < 3) : ((compressionRun w h).drop (2 + 6 * streamNumber (blocksOf h.toNat) bx bY p)).take 6 =
      issue (encBlk (BitVec.ofNat 2 p) (BitVec.ofNat 13 bx) (BitVec.ofNat 13 bY)) := by
  have hplace : 6 * streamNumber (blocksOf h.toNat) bx bY p = 18 * (bx * blocksOf h.toNat + bY) + 6 * p := by
    unfold streamNumber; omega
  rw [compressionRun_eq, ← List.drop_drop, List.drop_left' (length_setDimWords w h), hplace,
    take_drop_flatMap_const length_blockWords (blockOrder_getElem? hx hy) (by omega), take_drop_blockWords bx bY hp]

theorem length_compressionRun (w h : BitVec 16) :
    (compressionRun w h).length = 2 + 6 * (3 * (blocksOf w.toNat * blocksOf h.toNat)) := by
  rw [compressionRun_eq, List.length_append, length_flatMap_const length_blockWords, length_blockOrder, length_setDimWords]
  omega

/-- A block position of a 16-bit size fits BPX's 13-bit operand (40_config_partitioner.md R74). -/
theorem toNat_blockPosition {size : BitVec 16} {n : Nat} (h : n < blocksOf size.toNat) : (BitVec.ofNat 13 n).toNat = n := by
  have hsize := size.isLt
  unfold blocksOf at h
  exact Nat.mod_eq_of_lt (by omega)

/-! ### The decompression run -/

/-- What the host does for one stream: DECBLK, then the 64 reads of S. -/
def streamActs : List HostAct := issue decBlk ++ readSamples

theorem length_streamActs : streamActs.length = 69 := by simp [streamActs, issue, decBlk, readSamples]

theorem length_planeActs (_ : Nat × Nat) : (streamActs ++ streamActs ++ streamActs).length = 207 := by
  simp [length_streamActs]

theorem take_drop_planeActs {p : Nat} (hp : p < 3) :
    ((streamActs ++ streamActs ++ streamActs).drop (69 * p)).take 69 = streamActs := by
  have htake (rest : List HostAct) : (streamActs ++ rest).take 69 = streamActs := List.take_left' length_streamActs
  have hdrop (rest : List HostAct) : (streamActs ++ rest).drop 69 = rest := List.drop_left' length_streamActs
  rw [List.append_assoc]
  match p, hp with
  | 0, _ => exact htake _
  | 1, _ => rw [hdrop, htake]
  | 2, _ =>
    have htwo : 69 * 2 = 69 + 69 := rfl
    rw [htwo, ← List.drop_drop, hdrop, hdrop]
    exact List.take_of_length_le length_streamActs.le

/-- Stream number `n` is stream `n % 3` of block number `n / 3` (44_pipeline_host.md R138). -/
theorem take_drop_decompressionRun {blocksX blocksY n : Nat} (hn : n < 3 * (blocksX * blocksY)) :
    ((decompressionRun blocksX blocksY).drop (69 * n)).take 69 = streamActs := by
  have hblock : n / 3 < (blockOrder blocksX blocksY).length := by rw [length_blockOrder]; omega
  have hplace : 69 * n = 207 * (n / 3) + 69 * (n % 3) := by omega
  have hplane : n % 3 < 3 := Nat.mod_lt _ (by decide)
  rw [hplace]
  exact (take_drop_flatMap_const length_planeActs (List.getElem?_eq_getElem hblock) (by omega)).trans
    (take_drop_planeActs hplane)

/-- Settles O53: the place of a stream's words is found in `blockOrder`, whose stretches have one length. -/
theorem containerOrder : Obligations.ContainerOrder := by
  unfold Obligations.ContainerOrder
  refine ⟨fun w h bx bY p hx hy hp => ?_, fun w h => ⟨rfl, length_compressionRun w h⟩,
    fun blocksX blocksY n hn => take_drop_decompressionRun hn⟩
  exact ⟨take_drop_compressionRun hx hy hp, toNat_blockPosition hx, toNat_blockPosition hy⟩

end Sys2Proof.Machine
end
